-- ==== Sys2Proof/Word.lean ====
section
/-! DEFINITION. The smallest data of the block: a line level, a logical bit, a key-state byte. -/

namespace Sys2Proof

/-- A logical bit (R101): `false` is ZERO = 0, `true` is ONE = 1. -/
abbrev Bit := Bool

/-- A line level (R105): `false` is low = 0, `true` is high = 1. -/
abbrev Level := Bool

/-- One entry of a key-state buffer or of the edge vector (R30): an unsigned 8-bit byte. -/
abbrev Byte := BitVec 8

end Sys2Proof
end

