-- ==== Sys2Proof/Config.lean ====
section
/-! DEFINITION. The configuration record of 00_scope.md section 3, its example EX, and the free
values (`draw`) of the spec, which nothing in Lean can evaluate. -/

namespace Sys2Proof

/-- The implementation parameters of 00_scope.md section 3 (R6). Durations are in timer ticks,
`patienceUs` and `nodeResetUs` in microseconds. The record is fixed for a machine. -/
structure Config where
  /-- `K`, payload bits per node. -/
  k : Nat
  /-- `MAX_NODES`, entries in each key-state buffer. -/
  maxNodes : Nat
  /-- `TX_CAP`, TX ring capacity in pairs. -/
  txCap : Nat
  /-- `RX_CAP`, RX ring capacity in capture values. -/
  rxCap : Nat
  /-- `T0H`, high period of a ZERO. -/
  t0h : Nat
  /-- `T1H`, high period of a ONE. -/
  t1h : Nat
  /-- `T0L`, low period after a ZERO. -/
  t0l : Nat
  /-- `T1L`, low period after a ONE. -/
  t1l : Nat
  /-- `T_BIT`, the bit period. -/
  tBit : Nat
  /-- `RX_MIN`, lower classification bound. -/
  rxMin : Nat
  /-- `RX_SPLIT`, the ZERO/ONE split threshold. -/
  rxSplit : Nat
  /-- `RX_MAX`, upper classification bound. -/
  rxMax : Nat
  /-- `T_RST_H`, high period of the bus-reset waveform. -/
  tRstH : Nat
  /-- `T_RST_L`, low tail of the bus-reset waveform. -/
  tRstL : Nat
  /-- `JITTER`, largest difference between a transmitted and a captured width. -/
  jitter : Nat
  /-- `ARM_DELAY`, ticks from arming to the first expiry (used by the hazard predicates only). -/
  armDelay : Nat
  /-- `DUR_BITS`, width of the TX timer reload value. -/
  durBits : Nat
  /-- `CAP_BITS`, width of the capture counter. -/
  capBits : Nat
  /-- `PATIENCE_US`, the watchdog patience interval. -/
  patienceUs : Nat
  /-- `NODE_RESET_US`, the node's elapsed-time reset threshold. -/
  nodeResetUs : Nat
  /-- `GROWL_BIT`, the wire bit that means GROWL and BARK (R102). -/
  growlBit : Bit
  /-- `TICKS_PER_US`, timer ticks per microsecond (used by the hazard predicates only). -/
  ticksPerUs : Nat
  deriving DecidableEq, Repr

/-- EX, the example configuration of R11. -/
def Config.ex : Config where
  k := 1
  maxNodes := 8
  txCap := 16
  rxCap := 16
  t0h := 8
  t1h := 24
  t0l := 24
  t1l := 8
  tBit := 32
  rxMin := 4
  rxSplit := 16
  rxMax := 40
  tRstH := 80
  tRstL := 32
  jitter := 2
  armDelay := 1
  durBits := 16
  capBits := 16
  patienceUs := 1000
  nodeResetUs := 500
  growlBit := true
  ticksPerUs := 1

/-- The `n`-th free draw of a run (00_scope.md section 4, `draw(S)`: "any element of set S, under no
law"). It has no value in Lean. An element of `[lo, hi]` is drawn as `lo + draw n % (hi - lo + 1)`,
so every element of the set is possible. Log entry 4. -/
opaque Config.draw : Nat → Nat

/-- What a ring slot that does not exist would hold: no value (log entry 12). Only states that
break the ring invariant R65 reach it. -/
opaque Config.strayLevel : Nat → Level

/-- See `Config.strayLevel`. -/
opaque Config.strayTicks : Nat → Nat

/-- What a key-state byte outside `0..MAX_NODES-1` would hold: no value (R72, log entry 12). -/
opaque Config.strayByte : Int → Byte

end Sys2Proof
end

