-- ==== Sys2Proof/Syntax.lean ====
section
/-! DEFINITION. The 19 operations of opcode_table.json, their operands, and the written form of an
operation (R112). -/

namespace Sys2Proof

/-- The RX symbols, numbered ZERO = 0, ONE = 1, RESET = 2, ERROR = 3 (R108). -/
inductive Sym where
  | zero
  | one
  | reset
  | error
  deriving DecidableEq, Repr

/-- The three execution contexts of an agent (R310): the main line M, the TX timer-expiry handler
TXI, the RX capture handler RXI. -/
inductive Context where
  | main
  | txi
  | rxi
  deriving DecidableEq, Repr

/-- The agents an operation is listed for (column "agent" of R114). -/
inductive AgentKind where
  | both
  | node
  | coordinator
  deriving DecidableEq, Repr

/-- The operation formats of R112. -/
inductive Format where
  | n
  | ld
  | v
  | se
  | t
  | b
  | c
  deriving DecidableEq, Repr

/-- The operations of the block, one constructor per row of opcode_table.json, with the operands of
the row's format (R112, R113). An operand is the unsigned number the word carries: `dur` may be any
number, because a bad one is a fault of the operation and not of the word (R110). -/
inductive Instr where
  /-- 0x01 TX_SCHEDULE `level, dur` (R140). -/
  | txSchedule (level : Level) (dur : Nat)
  /-- 0x02 TX_BULK_BEGIN (R141). -/
  | txBulkBegin
  /-- 0x03 TX_BULK_SCHEDULE `level, dur` (R142). -/
  | txBulkSchedule (level : Level) (dur : Nat)
  /-- 0x04 TX_BULK_END (R143). -/
  | txBulkEnd
  /-- 0x05 TX_EXPIRY (R145). -/
  | txExpiry
  /-- 0x10 RX_CAPTURE `value` (R172). -/
  | rxCapture (value : Nat)
  /-- 0x11 RX_BITS_AVAILABLE (R174). -/
  | rxBitsAvailable
  /-- 0x12 RX_RECEIVE_BIT (R175). -/
  | rxReceiveBit
  /-- 0x20 NODE_STEP `sym, elapsed` (R201). -/
  | nodeStep (sym : Sym) (elapsed : Nat)
  /-- 0x21 NODE_RESET (R200). -/
  | nodeReset
  /-- 0x22 NODE_POLL `now` (R209). -/
  | nodePoll (now : Nat)
  /-- 0x30 COORD_FEED `bit` (R232). -/
  | coordFeed (bit : Bit)
  /-- 0x31 COORD_RESET (R230). -/
  | coordReset
  /-- 0x32 COORD_RESEED (R231). -/
  | coordReseed
  /-- 0x40 WD_INIT `now` (R260). -/
  | wdInit (now : Nat)
  /-- 0x41 WD_POLL `now` (R261). -/
  | wdPoll (now : Nat)
  /-- 0x50 DB_PUBLISH `n` (R291). -/
  | dbPublish (n : Nat)
  /-- 0x51 DB_LATEST_SNAPSHOT (R296). -/
  | dbLatestSnapshot
  /-- 0x52 DB_EDGE_EVENTS (R297). -/
  | dbEdgeEvents
  deriving DecidableEq, Repr

/-- An operation as it is written (R112): "an 8-bit operation selector op[7:0] followed by an
argument tuple". The arguments are natural numbers, since two formats carry numbers without a width
limit (R113); the spec gives the tuple no layout in bits (log entry 7). -/
structure OpWord where
  op : BitVec 8
  args : List Nat
  deriving DecidableEq, Repr

/-- Why a word spells no operation. -/
inductive DecodeError where
  /-- The selector is not listed in R114: reserved (R115). -/
  | reservedSelector (op : BitVec 8)
  /-- The argument tuple has not the length of the selector's format (R112). -/
  | argumentCount
  /-- `level` is a 1-bit argument (R112). -/
  | levelRange
  /-- `sym` is a 2-bit argument (R112). -/
  | symRange
  /-- `bit` is a 1-bit argument (R112). -/
  | bitRange
  deriving DecidableEq, Repr

end Sys2Proof
end

