-- ==== Sys2Proof/WellFormed.lean ====
section
/-! DEFINITION. When an operation's arguments fit the widths of its format under a configuration. -/

namespace Sys2Proof

/-- The argument widths of R112 that depend on the configuration: `value` has CAP_BITS bits, `n` is
in `0..MAX_NODES`. A `dur` that is 0 or does not fit DUR_BITS is no ill-formed word: the schedule
operation that carries it faults (R110). The other widths are in the types of `Instr`. -/
def Instr.wellFormed (cfg : Config) : Instr → Bool
  | .txSchedule _ _ => true
  | .txBulkBegin => true
  | .txBulkSchedule _ _ => true
  | .txBulkEnd => true
  | .txExpiry => true
  | .rxCapture value => value < 2 ^ cfg.capBits
  | .rxBitsAvailable => true
  | .rxReceiveBit => true
  | .nodeStep _ _ => true
  | .nodeReset => true
  | .nodePoll _ => true
  | .coordFeed _ => true
  | .coordReset => true
  | .coordReseed => true
  | .wdInit _ => true
  | .wdPoll _ => true
  | .dbPublish n => n ≤ cfg.maxNodes
  | .dbLatestSnapshot => true
  | .dbEdgeEvents => true

end Sys2Proof
end

