-- ==== Sys2Proof/Decode.lean ====
section
/-! DEFINITION. From a written operation to an instruction and back (30_encoding.md sections 3 to 5). -/

namespace Sys2Proof

/-- A row of the operation map R114. -/
structure OpRow where
  op : BitVec 8
  mnemonic : String
  format : Format
  ctx : Context
  agent : AgentKind
  deriving DecidableEq, Repr

/-- The operation map of R114, row by row. -/
def opTable : List OpRow :=
  [ ⟨0x01, "TX_SCHEDULE", .ld, .main, .both⟩,
    ⟨0x02, "TX_BULK_BEGIN", .n, .main, .both⟩,
    ⟨0x03, "TX_BULK_SCHEDULE", .ld, .main, .both⟩,
    ⟨0x04, "TX_BULK_END", .n, .main, .both⟩,
    ⟨0x05, "TX_EXPIRY", .n, .txi, .both⟩,
    ⟨0x10, "RX_CAPTURE", .v, .rxi, .both⟩,
    ⟨0x11, "RX_BITS_AVAILABLE", .n, .main, .both⟩,
    ⟨0x12, "RX_RECEIVE_BIT", .n, .main, .both⟩,
    ⟨0x20, "NODE_STEP", .se, .main, .node⟩,
    ⟨0x21, "NODE_RESET", .n, .main, .node⟩ ] ++
  [ ⟨0x22, "NODE_POLL", .t, .main, .node⟩,
    ⟨0x30, "COORD_FEED", .b, .main, .coordinator⟩,
    ⟨0x31, "COORD_RESET", .n, .main, .coordinator⟩,
    ⟨0x32, "COORD_RESEED", .n, .main, .coordinator⟩,
    ⟨0x40, "WD_INIT", .t, .main, .coordinator⟩,
    ⟨0x41, "WD_POLL", .t, .main, .coordinator⟩,
    ⟨0x50, "DB_PUBLISH", .c, .main, .coordinator⟩,
    ⟨0x51, "DB_LATEST_SNAPSHOT", .n, .main, .coordinator⟩,
    ⟨0x52, "DB_EDGE_EVENTS", .n, .main, .coordinator⟩ ]

/-- The row of a selector, `none` for a reserved one (R115). -/
def rowOf (op : BitVec 8) : Option OpRow :=
  opTable.find? fun r => r.op == op

/-- How many arguments a format has (R112). -/
def formatArity : Format → Nat
  | .n => 0
  | .ld => 2
  | .v => 1
  | .se => 2
  | .t => 1
  | .b => 1
  | .c => 1

/-- A 1-bit argument (R112, R113). -/
def bitOfArg : Nat → Option Bit
  | 0 => some false
  | 1 => some true
  | _ => none

/-- A 2-bit symbol argument, numbered by R108. -/
def symOfArg : Nat → Option Sym
  | 0 => some .zero
  | 1 => some .one
  | 2 => some .reset
  | 3 => some .error
  | _ => none

/-- The number of a symbol (R108). -/
def symNumber : Sym → Nat
  | .zero => 0
  | .one => 1
  | .reset => 2
  | .error => 3

/-- Format N: no argument. -/
def decodeN (args : List Nat) (i : Instr) : Except DecodeError Instr :=
  match args with
  | [] => .ok i
  | _ => .error .argumentCount

/-- Format LD: `level`, then `dur`. -/
def decodeLD (args : List Nat) (mk : Level → Nat → Instr) : Except DecodeError Instr :=
  match args with
  | [l, d] =>
    match bitOfArg l with
    | some level => .ok (mk level d)
    | none => .error .levelRange
  | _ => .error .argumentCount

/-- Formats V, T and C: one number. -/
def decodeNumber (args : List Nat) (mk : Nat → Instr) : Except DecodeError Instr :=
  match args with
  | [x] => .ok (mk x)
  | _ => .error .argumentCount

/-- Format SE: `sym`, then `elapsed`. -/
def decodeSE (args : List Nat) (mk : Sym → Nat → Instr) : Except DecodeError Instr :=
  match args with
  | [y, e] =>
    match symOfArg y with
    | some sym => .ok (mk sym e)
    | none => .error .symRange
  | _ => .error .argumentCount

/-- Format B: `bit`. -/
def decodeB (args : List Nat) (mk : Bit → Instr) : Except DecodeError Instr :=
  match args with
  | [x] =>
    match bitOfArg x with
    | some bit => .ok (mk bit)
    | none => .error .bitRange
  | _ => .error .argumentCount

/-- The operation a word spells: "a decoder reads the selector and then the fixed argument list of
that selector" (R112). Every selector that R114 does not list is refused (R115). -/
def decode (w : OpWord) : Except DecodeError Instr :=
  match w.op.toNat with
  | 0x01 => decodeLD w.args .txSchedule
  | 0x02 => decodeN w.args .txBulkBegin
  | 0x03 => decodeLD w.args .txBulkSchedule
  | 0x04 => decodeN w.args .txBulkEnd
  | 0x05 => decodeN w.args .txExpiry
  | 0x10 => decodeNumber w.args .rxCapture
  | 0x11 => decodeN w.args .rxBitsAvailable
  | 0x12 => decodeN w.args .rxReceiveBit
  | 0x20 => decodeSE w.args .nodeStep
  | 0x21 => decodeN w.args .nodeReset
  | 0x22 => decodeNumber w.args .nodePoll
  | 0x30 => decodeB w.args .coordFeed
  | 0x31 => decodeN w.args .coordReset
  | 0x32 => decodeN w.args .coordReseed
  | 0x40 => decodeNumber w.args .wdInit
  | 0x41 => decodeNumber w.args .wdPoll
  | 0x50 => decodeNumber w.args .dbPublish
  | 0x51 => decodeN w.args .dbLatestSnapshot
  | 0x52 => decodeN w.args .dbEdgeEvents
  | _ => .error (.reservedSelector w.op)

/-- The written form of an operation (R112, R114): its selector and its arguments in order. -/
def encode : Instr → OpWord
  | .txSchedule level dur => ⟨0x01, [level.toNat, dur]⟩
  | .txBulkBegin => ⟨0x02, []⟩
  | .txBulkSchedule level dur => ⟨0x03, [level.toNat, dur]⟩
  | .txBulkEnd => ⟨0x04, []⟩
  | .txExpiry => ⟨0x05, []⟩
  | .rxCapture value => ⟨0x10, [value]⟩
  | .rxBitsAvailable => ⟨0x11, []⟩
  | .rxReceiveBit => ⟨0x12, []⟩
  | .nodeStep sym elapsed => ⟨0x20, [symNumber sym, elapsed]⟩
  | .nodeReset => ⟨0x21, []⟩
  | .nodePoll now => ⟨0x22, [now]⟩
  | .coordFeed bit => ⟨0x30, [bit.toNat]⟩
  | .coordReset => ⟨0x31, []⟩
  | .coordReseed => ⟨0x32, []⟩
  | .wdInit now => ⟨0x40, [now]⟩
  | .wdPoll now => ⟨0x41, [now]⟩
  | .dbPublish n => ⟨0x50, [n]⟩
  | .dbLatestSnapshot => ⟨0x51, []⟩
  | .dbEdgeEvents => ⟨0x52, []⟩

/-- The context column of R114: the only context an operation may run in (R311, R312). -/
def contextOf : Instr → Context
  | .txSchedule _ _ => .main
  | .txBulkBegin => .main
  | .txBulkSchedule _ _ => .main
  | .txBulkEnd => .main
  | .txExpiry => .txi
  | .rxCapture _ => .rxi
  | .rxBitsAvailable => .main
  | .rxReceiveBit => .main
  | .nodeStep _ _ => .main
  | .nodeReset => .main
  | .nodePoll _ => .main
  | .coordFeed _ => .main
  | .coordReset => .main
  | .coordReseed => .main
  | .wdInit _ => .main
  | .wdPoll _ => .main
  | .dbPublish _ => .main
  | .dbLatestSnapshot => .main
  | .dbEdgeEvents => .main

/-- The agent column of R114 (R116). -/
def agentKindOf : Instr → AgentKind
  | .txSchedule _ _ => .both
  | .txBulkBegin => .both
  | .txBulkSchedule _ _ => .both
  | .txBulkEnd => .both
  | .txExpiry => .both
  | .rxCapture _ => .both
  | .rxBitsAvailable => .both
  | .rxReceiveBit => .both
  | .nodeStep _ _ => .node
  | .nodeReset => .node
  | .nodePoll _ => .node
  | .coordFeed _ => .coordinator
  | .coordReset => .coordinator
  | .coordReseed => .coordinator
  | .wdInit _ => .coordinator
  | .wdPoll _ => .coordinator
  | .dbPublish _ => .coordinator
  | .dbLatestSnapshot => .coordinator
  | .dbEdgeEvents => .coordinator

/-- A symbol's name in assembler syntax (R120). -/
def symName : Sym → String
  | .zero => "ZERO"
  | .one => "ONE"
  | .reset => "RESET"
  | .error => "ERROR"

/-- The arguments of an operation in assembler syntax (R120). -/
def asmArgs : Instr → List String
  | .txSchedule level dur => [toString level.toNat, toString dur]
  | .txBulkSchedule level dur => [toString level.toNat, toString dur]
  | .nodeStep sym elapsed => [symName sym, toString elapsed]
  | .coordFeed bit => [toString bit.toNat]
  | i => (encode i).args.map toString

/-- Assembler syntax (R120): "MNEMONIC followed by its arguments in the order of its format,
separated by commas". -/
def assembler (i : Instr) : String :=
  let name := ((rowOf (encode i).op).map OpRow.mnemonic).getD ""
  match asmArgs i with
  | [] => name
  | args => name ++ " " ++ ", ".intercalate args

/-- The argument tuple held in the bits above the selector, when an operation is numbered as one
number: each argument takes its width of R112 in order, the last number of a format all the bits
that remain (log entry 7). -/
def tableArgs (op : BitVec 8) (above : Nat) : List Nat :=
  match (rowOf op).map OpRow.format with
  | some .n => if above = 0 then [] else [above]
  | some .ld => [above % 2, above / 2]
  | some .v => [above]
  | some .se => [above % 4, above / 4]
  | some .t => [above]
  | some .b => [above]
  | some .c => [above]
  | none => []

/-- The written operation whose bits are `w`, of which only the low `nbits` count. -/
def tableWord (nbits w : Nat) : OpWord :=
  let bits := w % 2 ^ nbits
  let op := BitVec.ofNat 8 bits
  ⟨op, tableArgs op (bits / 2 ^ 8)⟩

/-- The instruction the decoder reads from an operation whose bits are `w`, numbered as
opcode_table.json numbers them. -/
def decodeTableWord (nbits w : Nat) : Option Instr :=
  match decode (tableWord nbits w) with
  | .ok i => some i
  | .error _ => none

end Sys2Proof
end

