-- ==== Sys2Proof/Machine/State.lean ====
section
/-! DEFINITION. The state of a system of agents (10_state.md), the faults and refusals, and the state
after reset (70_reset_and_hazards.md R350). -/

namespace Sys2Proof.Machine

/-- The fault codes an agent records (R317). Code 8, BAD_CONFIG, is raised by no operation (R318): it
is `Refusal.badConfig`. -/
inductive FaultCode where
  /-- 1 TX_OVERFLOW: TX ring full, the pair is dropped. Does not halt. -/
  | txOverflow
  /-- 2 RX_OVERFLOW: RX ring full, the value is dropped. Does not halt. -/
  | rxOverflow
  /-- 3 RX_EMPTY_READ: pop of an empty RX ring. Halts. -/
  | rxEmptyRead
  /-- 4 BULK_MISUSE: bulk protocol broken. Does not halt. -/
  | bulkMisuse
  /-- 5 BAD_DURATION: `dur = 0` or `dur > 2^DUR_BITS - 1`. Does not halt. -/
  | badDuration
  /-- 6 UNREACHABLE_STATE: `node_state = HOWL` at an operation boundary. Halts. -/
  | unreachableState
  /-- 7 NONMONOTONIC_CLOCK: `now < node_last_us`. Halts. -/
  | nonmonotonicClock
  deriving DecidableEq, Repr

/-- The set of fault codes an agent has recorded (R31), one member bit per code, so that equal sets
are equal data. -/
structure FaultSet where
  txOverflow : Bool := false
  rxOverflow : Bool := false
  rxEmptyRead : Bool := false
  bulkMisuse : Bool := false
  badDuration : Bool := false
  unreachableState : Bool := false
  nonmonotonicClock : Bool := false
  deriving DecidableEq, Repr

/-- One TX ring slot (R61): a level and a tick count. -/
structure TxPair where
  level : Level
  dur : Nat
  deriving DecidableEq, Repr

/-- A ring buffer's fields (R63). Its capacity is a parameter of the configuration. -/
structure Ring (α : Type) where
  slots : List α
  head : Nat
  tail : Nat
  size : Nat
  deriving DecidableEq, Repr

/-- TX codec state (R21). -/
structure Tx where
  /-- `tx_rb` -/
  rb : Ring TxPair
  /-- `tx_pending` -/
  pending : Nat
  /-- `tx_bulk_open` -/
  bulkOpen : Bool
  /-- `tx_armed`, the TX interrupt enable (R38, R313) -/
  armed : Bool
  /-- `tx_pin` -/
  pin : Level
  /-- `tx_reload` -/
  reload : Nat
  /-- `tx_high_acc` -/
  highAcc : Nat
  deriving DecidableEq, Repr

/-- RX codec state (R22). -/
structure Rx where
  /-- `rx_rb` -/
  rb : Ring Nat
  /-- `rx_cnt`, the capture counter: it runs freely, so that before every step it holds any value,
  and a rising edge on the input line resets it (R39, R170, R325, U12; log entry 11). -/
  cnt : Nat
  deriving DecidableEq, Repr

/-- The result of COORD_FEED (R109, R232). -/
inductive FeedResult where
  | continuing
  | complete (n : Nat)
  | resyncError
  deriving DecidableEq, Repr

/-- A value an operation returns to its caller (column "returns" of R114). -/
inductive Result where
  /-- No value-returning operation has run yet. -/
  | none
  /-- RX_BITS_AVAILABLE (R174). -/
  | bit (b : Bit)
  /-- RX_RECEIVE_BIT (R175). -/
  | sym (y : Sym)
  /-- COORD_FEED (R232). -/
  | feed (r : FeedResult)
  /-- DB_LATEST_SNAPSHOT (R296). -/
  | snapshot (entries : List Byte) (count : Nat)
  /-- DB_EDGE_EVENTS (R297). -/
  | edges (entries : List Byte)
  deriving DecidableEq, Repr

/-- The fields every agent's record holds (R20): the two codecs and the fault record; with them the
link that leaves the agent (R34), and the value its last value-returning operation returned, which
is the model's own field (R37, log entry 8). -/
structure Shared where
  tx : Tx
  rx : Rx
  faults : FaultSet
  /-- `link[A]`, oldest width first. -/
  link : List Nat
  ret : Result
  deriving DecidableEq, Repr

/-- `node_state` (R24). HOWL is transient: no operation leaves it at its end. -/
inductive NodeState where
  | rest
  | alert
  | howl
  | bark
  deriving DecidableEq, Repr

/-- A node's record (R20, R23). -/
structure NodeRec where
  sh : Shared
  /-- `node_state` -/
  state : NodeState
  /-- `node_count` -/
  count : Nat
  /-- `node_last_us` -/
  lastUs : Nat
  deriving DecidableEq, Repr

/-- `coord_state` (R26). -/
inductive CoordState where
  | rest
  | alert
  | readKBits
  deriving DecidableEq, Repr

/-- `wd_state` (R29). -/
inductive WdState where
  | good
  | cooldown
  | reset
  deriving DecidableEq, Repr

/-- The coordinator's record (R20, R25, R28, R30). -/
structure CoordRec where
  sh : Shared
  /-- `coord_state` -/
  state : CoordState
  /-- `wolf_id` -/
  wolfId : Int
  /-- `coord_count` -/
  count : Nat
  /-- `wd_state` -/
  wdState : WdState
  /-- `wd_deadline` -/
  wdDeadline : Nat
  /-- `KB[0]` -/
  kb0 : List Byte
  /-- `KB[1]` -/
  kb1 : List Byte
  /-- `sel`: the buffer in the write role is `KB[sel]`. -/
  sel : Bit
  /-- `read_count` -/
  readCount : Nat
  /-- `edge` -/
  edge : List Byte
  /-- Whether WD_INIT has run: where the main line stands in R352 (the model's own, log entry 15). -/
  started : Bool
  deriving DecidableEq, Repr

/-- An agent of the ring (R328). -/
inductive AgentId where
  | coordinator
  | node (i : Nat)
  deriving DecidableEq, Repr

/-- One step that may be placed to be taken next (R321): an operation of an agent in one of its
contexts, or a clock advance of the environment (R333). -/
inductive Event where
  | op (agent : AgentId) (ctx : Context) (word : OpWord)
  | clockAdvance (d : Nat)
  deriving DecidableEq, Repr

/-- The state of a system: one coordinator and its nodes in chain order (R3, R328), the clock (R33),
and the model's own fields `cfg`, `cur`, `ctx`, `script` and `draws`. -/
structure State where
  /-- The configuration the block was instantiated with (R6). No step changes it. -/
  cfg : Config
  coord : CoordRec
  nodes : List NodeRec
  /-- The monotonic microsecond clock (R33). -/
  now : Nat
  /-- The agent whose step is being taken. -/
  cur : AgentId
  /-- The context that takes it (R310). -/
  ctx : Context
  /-- The steps placed to be taken next; when there is none, the scheduler of R321 chooses. -/
  script : List Event
  /-- How many free values have been drawn (log entry 4). -/
  draws : Nat
  deriving DecidableEq, Repr

/-- Why the machine stops with a fault. -/
inductive Fault where
  /-- The agent of the step has recorded a halting fault (codes 3, 6 and 7): "The agent takes no
  further step of any context" (R316). Raised by the admission every operation passes. Safe: it is
  the spec's own stuck state, of that agent alone. -/
  | agentHalted
  deriving DecidableEq, Repr

/-- Why there is no step. -/
inductive Refusal where
  /-- The operation has no meaning in this model yet. Raised by a refused arm of `exec` only. Safe. -/
  | notModelled (mnemonic : String)
  /-- The written operation spells none: a reserved selector (R115) or an argument tuple that does
  not fit the selector's format (R112). Raised by the step on a placed operation. Safe. -/
  | undecodable (e : DecodeError)
  /-- A node operation on the coordinator or the other way round (R116). Raised by the admission of
  an operation. Safe: the spec refuses it. -/
  | wrongAgent
  /-- An operation in a context that does not run it (R116, R311, R312). Raised by the admission of
  an operation. Safe: the spec refuses it. -/
  | wrongContext
  /-- The ring has no such agent (R328). Raised by the admission of an operation. Safe. -/
  | noSuchAgent
  /-- TX_EXPIRY of an agent that is not armed, or RX_CAPTURE with an empty upstream link: "the step
  exists only while armed" (R145, R313), "enabled exactly when link[U] is non-empty" (R314). Safe:
  no such step exists. -/
  | notEnabled
  /-- RX_CAPTURE with a value the oldest pulse of the link cannot give (R330). Safe: no such step
  exists. -/
  | captureOutOfRange
  /-- DB_PUBLISH with `n > MAX_NODES` (R291). Safe: the spec refuses it. -/
  | countOutOfRange
  /-- BAD_CONFIG, code 8 (R318): the configuration breaks R6, so there is no step. Raised by the step
  and by the instantiation. Safe: the spec refuses it. -/
  | badConfig
  deriving DecidableEq, Repr

/-- A ring of `cap` slots, empty (R350). The slots hold `fill`, since the spec leaves their contents
unspecified (log entry 3). -/
def Ring.empty {α : Type} (cap : Nat) (fill : α) : Ring α :=
  { slots := List.replicate cap fill, head := 0, tail := 0, size := 0 }

/-- The codecs, link and fault record of an agent at power-on (R350). -/
def Shared.powerOn (cfg : Config) : Shared :=
  { tx :=
      { rb := Ring.empty cfg.txCap ⟨false, 0⟩, pending := 0, bulkOpen := false, armed := false,
        pin := false, reload := 0, highAcc := 0 }
    rx := { rb := Ring.empty cfg.rxCap 0, cnt := 0 }
    faults := {}
    link := []
    ret := .none }

/-- A node at power-on (R350). -/
def NodeRec.powerOn (cfg : Config) : NodeRec :=
  { sh := Shared.powerOn cfg, state := .rest, count := 0, lastUs := 0 }

/-- The coordinator at power-on (R350). `wd_deadline` is unspecified until WD_INIT (log entry 3). -/
def CoordRec.powerOn (cfg : Config) : CoordRec :=
  { sh := Shared.powerOn cfg
    state := .rest
    wolfId := -1
    count := 0
    wdState := .cooldown
    wdDeadline := 0
    kb0 := List.replicate cfg.maxNodes 0
    kb1 := List.replicate cfg.maxNodes 0
    sel := false
    readCount := 0
    edge := List.replicate cfg.maxNodes 0
    started := false }

/-- A system of one coordinator and `n` nodes at power-on, at the end of boot (R350, R353), with the
clock at `clock` ("any natural number"). -/
def State.powerOn (cfg : Config) (n clock : Nat) : State :=
  { cfg := cfg
    coord := CoordRec.powerOn cfg
    nodes := List.replicate n (NodeRec.powerOn cfg)
    now := clock
    cur := .coordinator
    ctx := .main
    script := []
    draws := 0 }

/-- The machine right after reset: power-on (R350) under the example configuration EX (R11, log entry
1), with one node and the clock at 0 (log entry 2). -/
def State.reset : State := State.powerOn Config.ex 1 0

end Sys2Proof.Machine
end

