-- ==== Sys2Proof/Machine/ConfigCheck.lean ====
section
/-! DEFINITION. When a configuration is well formed (R6 to R10), and the instantiation of a block
from one (R318). -/

namespace Sys2Proof.Machine

/-- "a power of two" (R8). -/
def isPowerOfTwo (n : Nat) : Bool := n == 2 ^ n.log2

/-- The single-parameter constraints of the parameter table and R7. -/
abbrev ConfigRanges (c : Config) : Prop :=
  1 ≤ c.k ∧ c.k ≤ 8 ∧ 1 ≤ c.maxNodes ∧ 1 ≤ c.rxCap ∧ 1 ≤ c.t0h ∧ 1 ≤ c.t0l ∧ 1 ≤ c.t1l ∧
  1 ≤ c.rxMin ∧ 1 ≤ c.tRstL ∧ 1 ≤ c.armDelay ∧ 1 ≤ c.patienceUs ∧ 1 ≤ c.nodeResetUs

/-- The ring capacities of R8: powers of two, and "`TX_CAP >= 2*(K+3)`". -/
abbrev ConfigRings (c : Config) : Prop :=
  isPowerOfTwo c.txCap = true ∧ isPowerOfTwo c.rxCap = true ∧ 2 * (c.k + 3) ≤ c.txCap

/-- The bit timing of R9: "`T0H < T1H` and `T0H + T0L = T1H + T1L = T_BIT`". -/
abbrev ConfigTiming (c : Config) : Prop :=
  c.t0h < c.t1h ∧ c.t0h + c.t0l = c.tBit ∧ c.t1h + c.t1l = c.tBit

/-- The thresholds of the parameter table and R10, each subtraction moved to the other side. -/
abbrev ConfigThresholds (c : Config) : Prop :=
  c.rxMin < c.rxSplit ∧ c.rxSplit < c.rxMax ∧ c.rxMin + c.jitter ≤ c.t0h ∧
  c.t0h + c.jitter < c.rxSplit ∧ c.rxSplit + c.jitter ≤ c.t1h ∧ c.t1h + c.jitter < c.rxMax ∧
  c.rxMax + c.jitter ≤ c.tRstH ∧ c.tRstH + c.jitter < 2 ^ c.capBits ∧
  max c.t1h c.tRstH ≤ 2 ^ c.durBits - 1

/-- "The configuration record is well formed only when every constraint in the parameter table and in
rules R7 to R10 holds" (R6). -/
def configOk (c : Config) : Bool :=
  decide (ConfigRanges c ∧ ConfigRings c ∧ ConfigTiming c ∧ ConfigThresholds c)

/-- Instantiation (R318): "A model given a configuration that breaks rule R6 has no initial state and
no step. It refuses the configuration and does not run it." -/
def instantiate (cfg : Config) (n clock : Nat) : Host.Outcome State Fault Refusal :=
  if configOk cfg then .next (State.powerOn cfg n clock) else .refused .badConfig

end Sys2Proof.Machine
end

