-- ==== Sys2Proof/Machine/Ops.lean ====
section
/-! DEFINITION. The named operations over the machine's storage: the fault record (taking a fault, R316),
the two rings (R63 to R69), the key-state buffers (R72), the links (R328, R330), the agents'
records, and the admission every operation passes (R116, R316). -/

namespace Sys2Proof.Machine

/-! ### The fault record (R316, R317) -/

/-- Adding a code to the set (R31). -/
def FaultSet.add (f : FaultSet) : FaultCode → FaultSet
  | .txOverflow => { f with txOverflow := true }
  | .rxOverflow => { f with rxOverflow := true }
  | .rxEmptyRead => { f with rxEmptyRead := true }
  | .bulkMisuse => { f with bulkMisuse := true }
  | .badDuration => { f with badDuration := true }
  | .unreachableState => { f with unreachableState := true }
  | .nonmonotonicClock => { f with nonmonotonicClock := true }

/-- Whether a code is recorded. -/
def FaultSet.has (f : FaultSet) : FaultCode → Bool
  | .txOverflow => f.txOverflow
  | .rxOverflow => f.rxOverflow
  | .rxEmptyRead => f.rxEmptyRead
  | .bulkMisuse => f.bulkMisuse
  | .badDuration => f.badDuration
  | .unreachableState => f.unreachableState
  | .nonmonotonicClock => f.nonmonotonicClock

/-- "Halting faults: codes 3, 6 and 7" (R316). -/
def FaultCode.halts : FaultCode → Bool
  | .txOverflow => false
  | .rxOverflow => false
  | .rxEmptyRead => true
  | .bulkMisuse => false
  | .badDuration => false
  | .unreachableState => true
  | .nonmonotonicClock => true

/-- The spec's number of a code (R317). -/
def FaultCode.number : FaultCode → Nat
  | .txOverflow => 1
  | .rxOverflow => 2
  | .rxEmptyRead => 3
  | .bulkMisuse => 4
  | .badDuration => 5
  | .unreachableState => 6
  | .nonmonotonicClock => 7

/-- Whether a halting fault is recorded: the agent takes no further step (R316). -/
def FaultSet.halted (f : FaultSet) : Bool :=
  f.rxEmptyRead || f.unreachableState || f.nonmonotonicClock

/-- `raise Fault(code)` on an agent: "A fault adds its code to A.faults. The code is never removed."
(R316). This is the block's only exception entry: nothing is saved and nothing is entered; the
operation ends as its rule says. -/
def Shared.raise (sh : Shared) (c : FaultCode) : Shared :=
  { sh with faults := sh.faults.add c }

/-- The value an operation returns to its caller (R37, log entry 8). -/
def Shared.answer (sh : Shared) (r : Result) : Shared := { sh with ret := r }

/-! ### Ring buffers (R63 to R69) -/

/-- Writing a value at the tail and moving the tail; the size is not changed (R142). -/
def Ring.write {α : Type} (cap : Nat) (v : α) (r : Ring α) : Ring α :=
  { r with slots := r.slots.set r.tail v, tail := (r.tail + 1) % cap }

/-- `rb_push` (R66): `none` when the item is dropped because the ring is full; `pending` is
`A.tx_pending` for the TX ring and 0 for the RX ring (R65). The caller records the overflow fault. -/
def Ring.push {α : Type} (cap pending : Nat) (v : α) (r : Ring α) : Option (Ring α) :=
  if r.size + pending = cap then none
  else some { r.write cap v with size := r.size + 1 }

/-- The value at the head of the ring. `stray` stands for a slot outside the slot array, which the
ring invariant R65 excludes (log entry 12). -/
def Ring.front {α : Type} (stray : α) (r : Ring α) : α := (r.slots[r.head]?).getD stray

/-- `rb_pop` (R67) after its caller has checked that the ring is not empty: the head moves on. -/
def Ring.pop {α : Type} (cap : Nat) (r : Ring α) : Ring α :=
  { r with head := (r.head + 1) % cap, size := r.size - 1 }

/-- `rb_avail` (R68). -/
def Ring.avail {α : Type} (r : Ring α) : Bool := decide (0 < r.size)

/-- The first `n` entries of a ring from its head: "The slots read by pops are exactly head, head+1,
..., head+size-1 (mod CAP)" (R65). -/
def Ring.entries {α : Type} (cap n : Nat) (stray : α) (r : Ring α) : List α :=
  (List.range n).map fun j => (r.slots[(r.head + j) % cap]?).getD stray

/-- The pair a slot outside the TX slot array would hold (log entry 12). -/
def strayPair (i : Nat) : TxPair := ⟨Config.strayLevel i, Config.strayTicks i⟩

/-- The pair at the head of a TX ring. -/
def txFront (r : Ring TxPair) : TxPair := r.front (strayPair r.head)

/-- The value at the head of an RX ring. -/
def rxFront (r : Ring Nat) : Nat := r.front (Config.strayTicks r.head)

/-! ### Key-state buffers (R72) -/

/-- `MemRead(KB, s, i)` on the buffer itself: byte `i`. Outside the buffer there is no byte, and what
is read is free (log entry 12). -/
def memRead (buf : List Byte) (i : Int) : Byte :=
  if 0 ≤ i then (buf[i.toNat]?).getD (Config.strayByte i) else Config.strayByte i

/-- `MemWrite(KB, s, i, v)` on the buffer itself. Outside the buffer there is nothing to write. -/
def memWrite (buf : List Byte) (i : Int) (v : Byte) : List Byte :=
  if 0 ≤ i then buf.set i.toNat v else buf

/-- The buffer `KB[b]`. -/
def CoordRec.kb (c : CoordRec) (b : Bit) : List Byte := if b then c.kb1 else c.kb0

/-- `KB[b] <- buf`. -/
def CoordRec.putKb (c : CoordRec) (b : Bit) (buf : List Byte) : CoordRec :=
  if b then { c with kb1 := buf } else { c with kb0 := buf }

/-- The buffer in the write role, `KB[sel]` (R73, R290). -/
def CoordRec.writeBuf (c : CoordRec) : List Byte := c.kb c.sel

/-- The buffer in the read role, `KB[1 - sel]` (R73, R290). -/
def CoordRec.readBuf (c : CoordRec) : List Byte := c.kb !c.sel

/-! ### Agents and links (R328, R330) -/

/-- The downstream agent in a ring of `n` nodes (R328). -/
def downstream (n : Nat) : AgentId → AgentId
  | .coordinator => if n = 0 then .coordinator else .node 0
  | .node i => if i + 1 < n then .node (i + 1) else .coordinator

/-- The upstream agent in a ring of `n` nodes: the agent whose downstream agent it is (R328). -/
def upstream (n : Nat) : AgentId → AgentId
  | .coordinator => if n = 0 then .coordinator else .node (n - 1)
  | .node 0 => .coordinator
  | .node (i + 1) => .node i

/-- The codec part of an agent's record; `none` when the ring has no such agent. -/
def State.shared? (s : State) : AgentId → Option Shared
  | .coordinator => some s.coord.sh
  | .node i => (s.nodes[i]?).map NodeRec.sh

/-- Replacing the codec part of an agent's record. -/
def State.putShared (s : State) (a : AgentId) (sh : Shared) : State :=
  match a with
  | .coordinator => { s with coord := { s.coord with sh := sh } }
  | .node i => { s with nodes := s.nodes.modify i fun n => { n with sh := sh } }

/-- Replacing a node's record. -/
def State.putNode (s : State) (i : Nat) (n : NodeRec) : State :=
  { s with nodes := s.nodes.set i n }

/-- Replacing the coordinator's record. -/
def State.putCoord (s : State) (c : CoordRec) : State := { s with coord := c }

/-- The link that leaves an agent (R34); empty where the ring has no such agent. -/
def State.linkOf (s : State) (a : AgentId) : List Nat := ((s.shared? a).map Shared.link).getD []

/-- Replacing the link that leaves an agent. -/
def State.putLink (s : State) (a : AgentId) (l : List Nat) : State :=
  match s.shared? a with
  | some sh => s.putShared a { sh with link := l }
  | none => s

/-- The agent whose output the agent of this step listens to (R314). -/
def State.upstreamOf (s : State) (a : AgentId) : AgentId := upstream s.nodes.length a

/-- The agents of the ring, the coordinator first (R328). -/
def State.agents (s : State) : List AgentId :=
  .coordinator :: (List.range s.nodes.length).map .node

/-- Whether an agent has recorded a halting fault (R316). -/
def State.haltedAgent (s : State) (a : AgentId) : Bool :=
  ((s.shared? a).map fun sh => sh.faults.halted).getD false

/-- `emit_pulse(A, w)`: the pulse joins the link that leaves A (R330). -/
def Shared.emitPulse (sh : Shared) (w : Nat) : Shared := { sh with link := sh.link ++ [w] }

/-- The capture counter set to `x`. -/
def Shared.setCounter (sh : Shared) (x : Nat) : Shared := { sh with rx := { sh.rx with cnt := x } }

/-- A rising edge on the line that agent `a` drives: "A rising edge on the input line resets it to 0"
(R170, R325), where the input line is that of the downstream agent (R327, R328). -/
def State.risingEdge (s : State) (a : AgentId) : State :=
  match s.shared? (downstream s.nodes.length a) with
  | some sh => s.putShared (downstream s.nodes.length a) (sh.setCounter 0)
  | none => s

/-- The least value a capture of a pulse of width `w` can give (R330). -/
def captureLow (cfg : Config) (w : Nat) : Nat :=
  if 2 ^ cfg.capBits ≤ w + cfg.jitter then 0 else w - cfg.jitter

/-- The greatest value a capture of a pulse of width `w` can give (R330). -/
def captureHigh (cfg : Config) (w : Nat) : Nat :=
  if 2 ^ cfg.capBits ≤ w + cfg.jitter then 2 ^ cfg.capBits - 1 else w + cfg.jitter

/-- `draw([lo, hi])` with the free value `x` (00_scope.md section 4). -/
def drawIn (lo hi x : Nat) : Nat := lo + x % (hi - lo + 1)

/-! ### Admission of an operation (R116, R316) -/

/-- An operation listed for both agents, in the context `ctx`: refused in another context (R311,
R312), no agent, or the agent halted (R316); else `k` runs with the agent's codec part. -/
def withShared (ctx : Context) (s : State)
    (k : Shared → Host.Outcome State Fault Refusal) : Host.Outcome State Fault Refusal :=
  if s.ctx = ctx then
    match s.shared? s.cur with
    | none => .refused .noSuchAgent
    | some sh => if sh.faults.halted then .fault .agentHalted else k sh
  else .refused .wrongContext

/-- An operation listed for the node only (R116), on the main line. -/
def withNode (s : State)
    (k : Nat → NodeRec → Host.Outcome State Fault Refusal) : Host.Outcome State Fault Refusal :=
  match s.cur with
  | .coordinator => .refused .wrongAgent
  | .node i =>
    if s.ctx = .main then
      match s.nodes[i]? with
      | none => .refused .noSuchAgent
      | some n => if n.sh.faults.halted then .fault .agentHalted else k i n
    else .refused .wrongContext

/-- An operation listed for the coordinator only (R116), on the main line. -/
def withCoord (s : State)
    (k : CoordRec → Host.Outcome State Fault Refusal) : Host.Outcome State Fault Refusal :=
  match s.cur with
  | .node _ => .refused .wrongAgent
  | .coordinator =>
    if s.ctx = .main then
      if s.coord.sh.faults.halted then .fault .agentHalted else k s.coord
    else .refused .wrongContext

/-- A main-line operation of both agents that always ends in a next state: `f` is its effect. -/
def onShared (s : State) (f : Shared → Shared) : Host.Outcome State Fault Refusal :=
  withShared .main s fun sh => .next (s.putShared s.cur (f sh))

/-- A coordinator operation that always ends in a next state: `f` is its effect. -/
def onCoord (s : State) (f : CoordRec → CoordRec) : Host.Outcome State Fault Refusal :=
  withCoord s fun c => .next (s.putCoord (f c))

end Sys2Proof.Machine
end

