-- ==== Sys2Proof/Machine/Operands.lean ====
section
/-! DEFINITION. What the operands and the wire symbols stand for: durations (R110), the pairs of a
logical bit (R104), the control symbols (R102), the frame (R103), and the pseudo-operations
(R125 to R127). -/

namespace Sys2Proof.Machine

/-- Whether a schedule operation accepts a duration: not 0 and not above `2^DUR_BITS - 1` (R110). -/
def durationOk (cfg : Config) (dur : Nat) : Bool :=
  !(decide (dur = 0) || decide (dur > 2 ^ cfg.durBits - 1))

/-- G, the bit GROWL_BIT (R102). -/
def growl (cfg : Config) : Bit := cfg.growlBit

/-- B, the same bit as G (R102). -/
def bark (cfg : Config) : Bit := cfg.growlBit

/-- H, the other bit (R102). -/
def howl (cfg : Config) : Bit := !cfg.growlBit

/-- The two TX pairs of a logical bit (R104): a high period, then a low period. -/
def bitPairs (cfg : Config) (b : Bit) : List TxPair :=
  if b then [⟨true, cfg.t1h⟩, ⟨false, cfg.t1l⟩] else [⟨true, cfg.t0h⟩, ⟨false, cfg.t0l⟩]

/-- The high period of a logical bit, `T(b)H` (R147). -/
def highTime (cfg : Config) (b : Bit) : Nat := if b then cfg.t1h else cfg.t0h

/-- The low period after a logical bit, `T(b)L` (R147). -/
def lowTime (cfg : Config) (b : Bit) : Nat := if b then cfg.t1l else cfg.t0l

/-- The bus-reset waveform (R106). -/
def resetPairs (cfg : Config) : List TxPair := [⟨true, cfg.tRstH⟩, ⟨false, cfg.tRstL⟩]

/-- The bits of a payload word, most significant first: "`bits(p) = [p[K-1], ..., p[0]]`" (R103,
R107). -/
def payloadBits (k p : Nat) : List Bit := (List.range k).reverse.map p.testBit

/-- A node's group in a frame: `[B] ++ bits(p) ++ [G]` (R103). -/
def groupBits (cfg : Config) (p : Nat) : List Bit :=
  bark cfg :: (payloadBits cfg.k p ++ [growl cfg])

/-- The frame of a list of payloads (R103). -/
def frameBits (cfg : Config) (ps : List Nat) : List Bit :=
  growl cfg :: (ps.flatMap (groupBits cfg) ++ [howl cfg])

/-- The bits of the terminal sequence, `[B] ++ bits(p) ++ [G, H]` (R205). -/
def terminalBits (cfg : Config) (p : Nat) : List Bit :=
  bark cfg :: (payloadBits cfg.k p ++ [growl cfg, howl cfg])

/-- The bits of a frame start, the empty frame `[G, H]` (R118, R127). -/
def frameStartBits (cfg : Config) : List Bit := [growl cfg, howl cfg]

/-- The pairs of a sequence of bits (R125). -/
def bitsPairs (cfg : Config) (bits : List Bit) : List TxPair := bits.flatMap (bitPairs cfg)

/-- The operations a bulk of pairs expands to when a program issues it (R125, R126). -/
def bulkProgram (ps : List TxPair) : List Instr :=
  .txBulkBegin :: (ps.map (fun p => .txBulkSchedule p.level p.dur) ++ [.txBulkEnd])

/-- `SEND_BITS [b_1, ..., b_m]` as a program (R125). -/
def sendBitsProgram (cfg : Config) (bits : List Bit) : List Instr :=
  bulkProgram (bitsPairs cfg bits)

/-- `SEND_RESET` as a program (R126). -/
def sendResetProgram (cfg : Config) : List Instr := bulkProgram (resetPairs cfg)

/-- `SEND_FRAME_START` as a program (R127). -/
def sendFrameStartProgram (cfg : Config) : List Instr :=
  sendBitsProgram cfg (frameStartBits cfg)

/-- The logical bit of a ZERO or ONE symbol (R101, R201), `none` for RESET and ERROR. -/
def bitOfSym : Sym → Option Bit
  | .zero => some false
  | .one => some true
  | .reset => none
  | .error => none

/-- The symbol of a logical bit (R101, R108). -/
def symOfBit (b : Bit) : Sym := if b then .one else .zero

end Sys2Proof.Machine
end

