-- ==== Sys2Proof/Machine/Flags.lean ====
section
/-! DEFINITION. The status values of the block (R37: it has no flags register): the classification of
a capture value, and the numbers the spec gives to results and states (R24, R26, R29, R109). -/

namespace Sys2Proof.Machine

/-- `classify(c)` (R173): each band includes its lower bound and excludes its upper bound. -/
def classify (cfg : Config) (c : Nat) : Sym :=
  if c < cfg.rxMin then .error
  else if c < cfg.rxSplit then .zero
  else if c < cfg.rxMax then .one
  else .reset

/-- The encoding of COORD_FEED's result as a tag and a count (R109). -/
def feedNumber : FeedResult → Nat × Nat
  | .continuing => (0, 0)
  | .complete n => (1, n)
  | .resyncError => (2, 0)

/-- The number of a node state (R24). -/
def nodeStateNumber : NodeState → Nat
  | .rest => 0
  | .alert => 1
  | .howl => 2
  | .bark => 3

/-- The number of a coordinator state (R26). -/
def coordStateNumber : CoordState → Nat
  | .rest => 0
  | .alert => 1
  | .readKBits => 2

/-- The number of a supervisor state (R29). -/
def wdStateNumber : WdState → Nat
  | .good => 0
  | .cooldown => 1
  | .reset => 2

/-- The boolean view of an edge entry: "as a boolean, entry i is (A.edge[i] ≠ 0)" (R297). -/
def edgeFlag (e : Byte) : Bool := e != 0

end Sys2Proof.Machine
end

