-- ==== Sys2Proof/Machine/Tx.lean ====
section
/-! DEFINITION. The pulse-timing transmit codec (40_tx_codec.md) and the inline pseudo-operations
(R125 to R127). -/

namespace Sys2Proof.Machine

/-- `arm(A)` (R144): the timer starts and the TX interrupt is enabled. -/
def arm (sh : Shared) : Shared := { sh with tx := { sh.tx with armed := true } }

/-- TX_SCHEDULE (R140): its checks in the rule's order, then the push. -/
def txSchedule (cfg : Config) (level : Level) (dur : Nat) (sh : Shared) : Shared :=
  if sh.tx.bulkOpen then sh.raise .bulkMisuse
  else if !durationOk cfg dur then sh.raise .badDuration
  else
    match sh.tx.rb.push cfg.txCap sh.tx.pending ⟨level, dur⟩ with
    | none => sh.raise .txOverflow
    | some rb =>
      let pushed : Shared := { sh with tx := { sh.tx with rb := rb } }
      if pushed.tx.armed then pushed else arm pushed

/-- TX_BULK_BEGIN (R141). -/
def txBulkBegin (sh : Shared) : Shared :=
  if sh.tx.bulkOpen then sh.raise .bulkMisuse
  else { sh with tx := { sh.tx with bulkOpen := true, pending := 0 } }

/-- TX_BULK_SCHEDULE (R142): the pair is written and counted as pending; `size` is not changed. -/
def txBulkSchedule (cfg : Config) (level : Level) (dur : Nat) (sh : Shared) : Shared :=
  if !sh.tx.bulkOpen then sh.raise .bulkMisuse
  else if !durationOk cfg dur then sh.raise .badDuration
  else if sh.tx.rb.size + sh.tx.pending = cfg.txCap then sh.raise .txOverflow
  else
    { sh with
      tx := { sh.tx with rb := sh.tx.rb.write cfg.txCap ⟨level, dur⟩, pending := sh.tx.pending + 1 } }

/-- TX_BULK_END (R143): the pending pairs become visible in one update. -/
def txBulkEnd (sh : Shared) : Shared :=
  if !sh.tx.bulkOpen then sh.raise .bulkMisuse
  else
    let committed : Shared :=
      { sh with
        tx :=
          { sh.tx with
            rb := { sh.tx.rb with size := sh.tx.rb.size + sh.tx.pending }
            pending := 0
            bulkOpen := false } }
    if decide (0 < committed.tx.rb.size) && !committed.tx.armed then arm committed else committed

/-- What a popped pair does to the pin and the pulse being measured (R145): a falling edge emits the
pulse, a rising edge starts one, two high pairs in a row make one pulse. -/
def drivePin (l : Level) (d : Nat) (sh : Shared) : Shared :=
  let edged : Shared :=
    if sh.tx.pin && !l then
      { sh.emitPulse sh.tx.highAcc with tx := { sh.tx with highAcc := 0 } }
    else if !sh.tx.pin && l then { sh with tx := { sh.tx with highAcc := d } }
    else if sh.tx.pin && l then { sh with tx := { sh.tx with highAcc := sh.tx.highAcc + d } }
    else sh
  { edged with tx := { edged.tx with pin := l, reload := d } }

/-- The expiry that finds the ring empty (R145): the line falls and the interrupt is disabled. -/
def goIdle (sh : Shared) : Shared :=
  let edged : Shared :=
    if sh.tx.pin then { sh.emitPulse sh.tx.highAcc with tx := { sh.tx with highAcc := 0 } } else sh
  { edged with tx := { edged.tx with pin := false, armed := false } }

/-- TX_EXPIRY (R145) on an armed agent. -/
def txExpiry (cfg : Config) (sh : Shared) : Shared :=
  if sh.tx.rb.avail then
    let p := txFront sh.tx.rb
    drivePin p.level p.dur { sh with tx := { sh.tx with rb := sh.tx.rb.pop cfg.txCap } }
  else goIdle sh

/-- A bulk run inline within one atomic step (R125): the expansion's operations, one after the other.
Each ends as its own rule says; a dropped pair does not abort the bulk (R142, log entry 9). -/
def sendPairs (cfg : Config) (ps : List TxPair) (sh : Shared) : Shared :=
  txBulkEnd (ps.foldl (fun x p => txBulkSchedule cfg p.level p.dur x) (txBulkBegin sh))

/-- `send_bits(A, bits)` (R125). -/
def sendBits (cfg : Config) (bits : List Bit) (sh : Shared) : Shared :=
  sendPairs cfg (bitsPairs cfg bits) sh

/-- `send_reset(A)` (R126). -/
def sendReset (cfg : Config) (sh : Shared) : Shared := sendPairs cfg (resetPairs cfg) sh

/-- `SEND_FRAME_START` (R127). -/
def sendFrameStart (cfg : Config) (sh : Shared) : Shared := sendBits cfg (frameStartBits cfg) sh

/-! ### Meanings -/

/-- 0x01 TX_SCHEDULE `level, dur` (R140). -/
def execTxSchedule (level : Level) (dur : Nat) (s : State) : Host.Outcome State Fault Refusal :=
  onShared s (txSchedule s.cfg level dur)

/-- 0x02 TX_BULK_BEGIN (R141). -/
def execTxBulkBegin (s : State) : Host.Outcome State Fault Refusal :=
  onShared s txBulkBegin

/-- 0x03 TX_BULK_SCHEDULE `level, dur` (R142). -/
def execTxBulkSchedule (level : Level) (dur : Nat) (s : State) :
    Host.Outcome State Fault Refusal :=
  onShared s (txBulkSchedule s.cfg level dur)

/-- 0x04 TX_BULK_END (R143). -/
def execTxBulkEnd (s : State) : Host.Outcome State Fault Refusal :=
  onShared s txBulkEnd

/-- Whether the line goes from low to high between two records of the agent that drives it. -/
def risesTo (before after : Shared) : Bool := !before.tx.pin && after.tx.pin

/-- 0x05 TX_EXPIRY (R145), run by TXI only (R116, R312): "the step exists only while armed". A rising
edge reaches the downstream agent's capture counter (R170). -/
def execTxExpiry (s : State) : Host.Outcome State Fault Refusal :=
  withShared .txi s fun sh =>
    if sh.tx.armed then
      let driven := s.putShared s.cur (txExpiry s.cfg sh)
      .next (if risesTo sh (txExpiry s.cfg sh) then driven.risingEdge s.cur else driven)
    else .refused .notEnabled

end Sys2Proof.Machine
end

