-- ==== Sys2Proof/Machine/Rx.lean ====
section
/-! DEFINITION. The pulse-timing receive codec (41_rx_codec.md). -/

namespace Sys2Proof.Machine

/-- RX_CAPTURE (R172): the value is pushed, or dropped with RX_OVERFLOW on a full ring. The capture
counter runs on: the falling edge that captured the value lies before this step (R170, R314, log
entry 11). -/
def rxCapture (cfg : Config) (value : Nat) (sh : Shared) : Shared :=
  match sh.rx.rb.push cfg.rxCap 0 value with
  | none => sh.raise .rxOverflow
  | some rb => { sh with rx := { sh.rx with rb := rb } }

/-- RX_BITS_AVAILABLE (R174): the occupancy is returned and nothing changes. -/
def rxBitsAvailable (sh : Shared) : Shared := sh.answer (.bit sh.rx.rb.avail)

/-- The pop inside RX_RECEIVE_BIT, NODE_POLL and WD_POLL, on a ring that is not empty (R175): the
symbol of the oldest capture, and the ring without it. -/
def rxTake (cfg : Config) (sh : Shared) : Sym × Shared :=
  (classify cfg (rxFront sh.rx.rb), { sh with rx := { sh.rx with rb := sh.rx.rb.pop cfg.rxCap } })

/-- RX_RECEIVE_BIT (R175): on an empty ring the halting fault RX_EMPTY_READ, and nothing returned. -/
def rxReceiveBit (cfg : Config) (sh : Shared) : Shared :=
  if sh.rx.rb.size = 0 then sh.raise .rxEmptyRead
  else
    let taken := rxTake cfg sh
    taken.2.answer (.sym taken.1)

/-! ### Meanings -/

/-- 0x10 RX_CAPTURE `value` (R172), run by RXI only (R116, R312). It is enabled while the link of
the upstream agent is not empty; it removes the oldest pulse, which must be able to give the value
(R314, R330). -/
def execRxCapture (value : Nat) (s : State) : Host.Outcome State Fault Refusal :=
  withShared .rxi s fun _ =>
    let up := s.upstreamOf s.cur
    match s.linkOf up with
    | [] => .refused .notEnabled
    | w :: rest =>
      if captureLow s.cfg w ≤ value ∧ value ≤ captureHigh s.cfg w then
        let drained := s.putLink up rest
        match drained.shared? s.cur with
        | some sh => .next (drained.putShared s.cur (rxCapture s.cfg value sh))
        | none => .refused .noSuchAgent
      else .refused .captureOutOfRange

/-- 0x11 RX_BITS_AVAILABLE (R174). -/
def execRxBitsAvailable (s : State) : Host.Outcome State Fault Refusal :=
  onShared s rxBitsAvailable

/-- 0x12 RX_RECEIVE_BIT (R175). -/
def execRxReceiveBit (s : State) : Host.Outcome State Fault Refusal :=
  onShared s (rxReceiveBit s.cfg)

end Sys2Proof.Machine
end

