-- ==== Sys2Proof/Machine/Node.lean ====
section
/-! DEFINITION. The node forwarding automaton, join_cry (42_node_automaton.md). -/

namespace Sys2Proof.Machine

/-- NODE_RESET (R200). -/
def nodeReset (n : NodeRec) : NodeRec := { n with state := .rest, count := 0 }

/-- The payload sample "`draw([0, 2^K - 1])`" of R205, with the free value `x`. -/
def payloadSample (cfg : Config) (x : Nat) : Nat := drawIn 0 (2 ^ cfg.k - 1) x

/-- NODE_STEP in ALERT on H: the terminal sequence (R205), one bulk. HOWL is passed through in the
same step and left for REST (R24). `x` is the free value of the payload sample. -/
def nodeTerminal (cfg : Config) (x : Nat) (n : NodeRec) : NodeRec :=
  nodeReset { n with sh := sendBits cfg (terminalBits cfg (payloadSample cfg x)) n.sh }

/-- NODE_STEP on a bit, in the state it is read in (R204 to R207). `draws` counts the free values
used: the terminal sequence uses one. A node in HOWL does not come here (R208). -/
def nodeBit (cfg : Config) (b : Bit) (n : NodeRec) (draws : Nat) : NodeRec × Nat :=
  match n.state with
  | .rest =>
    if b = growl cfg then
      ({ n with sh := sendBits cfg [growl cfg] n.sh, state := .alert }, draws)
    else (n, draws)
  | .alert =>
    if b = howl cfg then (nodeTerminal cfg (Config.draw draws) n, draws + 1)
    else
      ({ n with sh := sendBits cfg [bark cfg] n.sh, state := .bark, count := cfg.k + 1 }, draws)
  | .bark =>
    let left := n.count - 1
    ({ n with
        sh := sendBits cfg [b] n.sh
        count := left
        state := if left = 0 then .alert else .bark }, draws)
  | .howl => (n, draws)

/-- NODE_STEP (R201): the unreachable state, then the timeout, then the symbol in the state it
leaves (R202, R203, or a bit). -/
def nodeStep (cfg : Config) (sym : Sym) (elapsed : Nat) (n : NodeRec) (draws : Nat) :
    NodeRec × Nat :=
  if n.state = .howl then ({ n with sh := n.sh.raise .unreachableState }, draws)
  else
    let m := if elapsed > cfg.nodeResetUs then nodeReset n else n
    match sym with
    | .reset => (nodeReset { m with sh := sendReset cfg m.sh }, draws)
    | .error => (nodeReset m, draws)
    | .zero => nodeBit cfg false m draws
    | .one => nodeBit cfg true m draws

/-- NODE_POLL (R209): at most one symbol. -/
def nodePoll (cfg : Config) (now : Nat) (n : NodeRec) (draws : Nat) : NodeRec × Nat :=
  if now < n.lastUs then ({ n with sh := n.sh.raise .nonmonotonicClock }, draws)
  else if n.sh.rx.rb.avail then
    let taken := rxTake cfg n.sh
    nodeStep cfg taken.1 (now - n.lastUs) { n with sh := taken.2, lastUs := now } draws
  else (n, draws)

/-- A node operation whose effect `f` may use free values. -/
def onNode (s : State) (f : NodeRec → Nat → NodeRec × Nat) : Host.Outcome State Fault Refusal :=
  withNode s fun i n => .next { s.putNode i (f n s.draws).1 with draws := (f n s.draws).2 }

/-! ### Meanings -/

/-- 0x20 NODE_STEP `sym, elapsed` (R201). -/
def execNodeStep (sym : Sym) (elapsed : Nat) (s : State) : Host.Outcome State Fault Refusal :=
  onNode s (nodeStep s.cfg sym elapsed)

/-- 0x21 NODE_RESET (R200). -/
def execNodeReset (s : State) : Host.Outcome State Fault Refusal :=
  onNode s fun n draws => (nodeReset n, draws)

/-- 0x22 NODE_POLL `now` (R209). -/
def execNodePoll (now : Nat) (s : State) : Host.Outcome State Fault Refusal :=
  onNode s (nodePoll s.cfg now)

end Sys2Proof.Machine
end

