-- ==== Sys2Proof/Machine/Coord.lean ====
section
/-! DEFINITION. The coordinator aggregation automaton (43_coordinator.md). -/

namespace Sys2Proof.Machine

/-- COORD_RESET (R230), and the three writes of `self_reset` (R238). -/
def coordReset (c : CoordRec) : CoordRec := { c with state := .rest, wolfId := -1, count := 0 }

/-- COORD_RESEED (R231): the automaton reset and the write-role buffer cleared. -/
def coordReseed (cfg : Config) (c : CoordRec) : CoordRec :=
  (coordReset c).putKb c.sel (List.replicate cfg.maxNodes 0)

/-- A result that resets the automaton: RESYNC_ERROR (R238). -/
def feedResync (c : CoordRec) : FeedResult × CoordRec := (.resyncError, coordReset c)

/-- COORD_FEED in REST (R233). -/
def feedRest (cfg : Config) (bit : Bit) (c : CoordRec) : FeedResult × CoordRec :=
  if bit = growl cfg then (.continuing, { c with state := .alert }) else feedResync c

/-- COORD_FEED in ALERT on H (R234): COMPLETE(n) with `n = wolf_id + 1`. -/
def feedHowl (c : CoordRec) : FeedResult × CoordRec :=
  (.complete (c.wolfId + 1).toNat, coordReset c)

/-- COORD_FEED in ALERT on B, a node header (R235). -/
def feedHeader (cfg : Config) (c : CoordRec) : FeedResult × CoordRec :=
  if c.wolfId + 1 ≥ cfg.maxNodes then feedResync c
  else
    let id := c.wolfId + 1
    (.continuing,
      { c.putKb c.sel (memWrite c.writeBuf id 0) with
        wolfId := id, count := cfg.k + 1, state := .readKBits })

/-- COORD_FEED in READ_K_BITS on a payload bit (R236). -/
def feedPayload (bit : Bit) (c : CoordRec) : FeedResult × CoordRec :=
  let v := memRead c.writeBuf c.wolfId
  let shifted : Byte := (v <<< 1) ||| BitVec.ofNat 8 bit.toNat
  (.continuing,
    { c.putKb c.sel (memWrite c.writeBuf c.wolfId shifted) with count := c.count - 1 })

/-- COORD_FEED in READ_K_BITS on the separator (R237). -/
def feedSeparator (cfg : Config) (bit : Bit) (c : CoordRec) : FeedResult × CoordRec :=
  if bit = growl cfg then (.continuing, { c with count := 0, state := .alert }) else feedResync c

/-- COORD_FEED (R232). -/
def coordFeed (cfg : Config) (bit : Bit) (c : CoordRec) : FeedResult × CoordRec :=
  match c.state with
  | .rest => feedRest cfg bit c
  | .alert => if bit = howl cfg then feedHowl c else feedHeader cfg c
  | .readKBits => if c.count > 1 then feedPayload bit c else feedSeparator cfg bit c

/-- The value a coordinator operation returns to its caller. -/
def CoordRec.answer (c : CoordRec) (r : Result) : CoordRec := { c with sh := c.sh.answer r }

/-! ### Meanings -/

/-- 0x30 COORD_FEED `bit` (R232). -/
def execCoordFeed (bit : Bit) (s : State) : Host.Outcome State Fault Refusal :=
  onCoord s fun c =>
    let fed := coordFeed s.cfg bit c
    fed.2.answer (.feed fed.1)

/-- 0x31 COORD_RESET (R230). -/
def execCoordReset (s : State) : Host.Outcome State Fault Refusal :=
  onCoord s coordReset

/-- 0x32 COORD_RESEED (R231). -/
def execCoordReseed (s : State) : Host.Outcome State Fault Refusal :=
  onCoord s (coordReseed s.cfg)

end Sys2Proof.Machine
end

