-- ==== Sys2Proof/Machine/Debounce.lean ====
section
/-! DEFINITION. The debounce double buffer and the consumer queries (45_debounce.md). -/

namespace Sys2Proof.Machine

/-- The bytes `0..MAX_NODES-1` of a buffer, read one by one (R72). -/
def readAll (cfg : Config) (buf : List Byte) : List Byte :=
  (List.range cfg.maxNodes).map fun i : Nat => memRead buf i

/-- The edge vector (R291): "per-node XOR of the two buffers' previous contents". -/
def edgeVector (cfg : Config) (w r : List Byte) : List Byte :=
  (List.range cfg.maxNodes).map fun i : Nat => memRead w i ^^^ memRead r i

/-- DB_PUBLISH (R291): the edge vector, the swap (a flip of `sel`, R290), the count, and the new
write buffer zeroed. -/
def dbPublish (cfg : Config) (n : Nat) (c : CoordRec) : CoordRec :=
  { c.putKb (!c.sel) (List.replicate cfg.maxNodes 0) with
    edge := edgeVector cfg c.writeBuf c.readBuf, sel := !c.sel, readCount := n }

/-- What DB_LATEST_SNAPSHOT returns (R296). -/
def latestSnapshot (cfg : Config) (c : CoordRec) : Result :=
  .snapshot (readAll cfg c.readBuf) c.readCount

/-- What DB_EDGE_EVENTS returns (R297). -/
def edgeEvents (cfg : Config) (c : CoordRec) : Result := .edges (readAll cfg c.edge)

/-! ### Meanings -/

/-- 0x50 DB_PUBLISH `n` (R291): "A model refuses an `n > MAX_NODES`". -/
def execDbPublish (n : Nat) (s : State) : Host.Outcome State Fault Refusal :=
  withCoord s fun c =>
    if n > s.cfg.maxNodes then .refused .countOutOfRange
    else .next (s.putCoord (dbPublish s.cfg n c))

/-- 0x51 DB_LATEST_SNAPSHOT (R296). -/
def execDbLatestSnapshot (s : State) : Host.Outcome State Fault Refusal :=
  onCoord s fun c => c.answer (latestSnapshot s.cfg c)

/-- 0x52 DB_EDGE_EVENTS (R297). -/
def execDbEdgeEvents (s : State) : Host.Outcome State Fault Refusal :=
  onCoord s fun c => c.answer (edgeEvents s.cfg c)

end Sys2Proof.Machine
end

