-- ==== Sys2Proof/Machine/Watchdog.lean ====
section
/-! DEFINITION. The watchdog / resync supervisor (44_supervisor.md). -/

namespace Sys2Proof.Machine

/-- WD_INIT (R260). The main line's boot sequence is then done (R352, log entry 15). -/
def wdInit (cfg : Config) (now : Nat) (c : CoordRec) : CoordRec :=
  { coordReset c with wdState := .cooldown, wdDeadline := now + cfg.patienceUs, started := true }

/-- `enter_reset(A)` (R271). -/
def enterReset (cfg : Config) (c : CoordRec) : CoordRec :=
  let c := coordReset c
  { c with sh := sendReset cfg c.sh, wdState := .reset }

/-- `start_cycle(A)` (R272). -/
def startCycle (cfg : Config) (c : CoordRec) : CoordRec :=
  let c := coordReseed cfg c
  { c with sh := sendFrameStart cfg c.sh, wdState := .good }

/-- `COORD_RESET; A.wd_state <- COOLDOWN` (R263, R269). -/
def fallBack (c : CoordRec) : CoordRec := { coordReset c with wdState := .cooldown }

/-- GOOD with COMPLETE(n) (R264). -/
def wdComplete (cfg : Config) (n : Nat) (c : CoordRec) : CoordRec :=
  let c := dbPublish cfg n c
  if c.sh.rx.rb.avail then enterReset cfg c else startCycle cfg c

/-- GOOD with a ZERO or ONE symbol (R263). -/
def wdFeed (cfg : Config) (bit : Bit) (c : CoordRec) : CoordRec :=
  let fed := coordFeed cfg bit c
  match fed.1 with
  | .continuing => fed.2
  | .resyncError => enterReset cfg fed.2
  | .complete n => wdComplete cfg n fed.2

/-- GOOD with a symbol (R263). -/
def wdGood (cfg : Config) (sym : Sym) (c : CoordRec) : CoordRec :=
  match sym with
  | .reset => fallBack c
  | .error => fallBack c
  | .zero => wdFeed cfg false c
  | .one => wdFeed cfg true c

/-- A symbol in each supervisor state (R263, R266, R268, R269). -/
def wdSymbol (cfg : Config) (sym : Sym) (c : CoordRec) : CoordRec :=
  match c.wdState with
  | .good => wdGood cfg sym c
  | .cooldown => c
  | .reset => if sym = .reset then startCycle cfg c else fallBack c

/-- A timeout in each supervisor state (R265, R267, R270). -/
def wdTimeout (cfg : Config) (c : CoordRec) : CoordRec :=
  match c.wdState with
  | .good => enterReset cfg c
  | .cooldown => enterReset cfg c
  | .reset => { c with sh := sendReset cfg c.sh }

/-- Re-arming the deadline (R262). -/
def rearm (cfg : Config) (now : Nat) (c : CoordRec) : CoordRec :=
  { c with wdDeadline := now + cfg.patienceUs }

/-- WD_POLL (R261): a waiting symbol first, then a due timeout, else nothing. -/
def wdPoll (cfg : Config) (now : Nat) (c : CoordRec) : CoordRec :=
  if c.sh.rx.rb.avail then
    let taken := rxTake cfg c.sh
    rearm cfg now (wdSymbol cfg taken.1 { c with sh := taken.2 })
  else if now ≥ c.wdDeadline then rearm cfg now (wdTimeout cfg c)
  else c

/-! ### Meanings -/

/-- 0x40 WD_INIT `now` (R260). -/
def execWdInit (now : Nat) (s : State) : Host.Outcome State Fault Refusal :=
  onCoord s (wdInit s.cfg now)

/-- 0x41 WD_POLL `now` (R261). -/
def execWdPoll (now : Nat) (s : State) : Host.Outcome State Fault Refusal :=
  onCoord s (wdPoll s.cfg now)

end Sys2Proof.Machine
end

