-- ==== Sys2Proof/Machine/Dispatch.lean ====
section
/-! DEFINITION. One operation of the agent `s.cur` in the context `s.ctx`: one arm per row of
opcode_table.json. -/

namespace Sys2Proof.Machine

def exec (i : Instr) (s : State) : Host.Outcome State Fault Refusal :=
  match i with
  | .txSchedule level dur => Sys2Proof.Machine.execTxSchedule level dur s
  | .txBulkBegin => Sys2Proof.Machine.execTxBulkBegin s
  | .txBulkSchedule level dur => Sys2Proof.Machine.execTxBulkSchedule level dur s
  | .txBulkEnd => Sys2Proof.Machine.execTxBulkEnd s
  | .txExpiry => Sys2Proof.Machine.execTxExpiry s
  | .rxCapture value => Sys2Proof.Machine.execRxCapture value s
  | .rxBitsAvailable => Sys2Proof.Machine.execRxBitsAvailable s
  | .rxReceiveBit => Sys2Proof.Machine.execRxReceiveBit s
  | .nodeStep sym elapsed => Sys2Proof.Machine.execNodeStep sym elapsed s
  | .nodeReset => Sys2Proof.Machine.execNodeReset s
  | .nodePoll now => Sys2Proof.Machine.execNodePoll now s
  | .coordFeed bit => Sys2Proof.Machine.execCoordFeed bit s
  | .coordReset => Sys2Proof.Machine.execCoordReset s
  | .coordReseed => Sys2Proof.Machine.execCoordReseed s
  | .wdInit now => Sys2Proof.Machine.execWdInit now s
  | .wdPoll now => Sys2Proof.Machine.execWdPoll now s
  | .dbPublish n => Sys2Proof.Machine.execDbPublish n s
  | .dbLatestSnapshot => Sys2Proof.Machine.execDbLatestSnapshot s
  | .dbEdgeEvents => Sys2Proof.Machine.execDbEdgeEvents s

end Sys2Proof.Machine
end

