-- ==== Sys2Proof/Machine/Schedule.lean ====
section
/-! DEFINITION. Which step is taken (R321): a placed step, or a free choice among the enabled ones;
the main lines (R128, R351, R352), the interrupts (R313, R314), the clock (R333) and the capture
counters, which run freely between the steps (R170, R325). -/

namespace Sys2Proof.Machine

/-! ### The capture counters (R170, R325) and the clock (R333) -/

/-- An agent's capture counter after it has counted on for an unknown time: any value of CAP_BITS bits,
here the free value of index `x` (R170, R325, U12). -/
def freeCounter (cfg : Config) (x : Nat) (sh : Shared) : Shared :=
  sh.setCounter (Config.draw x % 2 ^ cfg.capBits)

/-- The counters of the nodes, with the free values from index `x` on. -/
def freeNodeCounters (cfg : Config) : Nat → List NodeRec → List NodeRec
  | _, [] => []
  | x, n :: ns => { n with sh := freeCounter cfg x n.sh } :: freeNodeCounters cfg (x + 1) ns

/-- "The capture peripheral's counter counts ticks freely" (R170): before every step, in the time of
unknown length since the step before it, the counter of every agent comes to stand at any value
(U12, log entry 11). -/
def runCounters (s : State) : State :=
  { s with
    coord := { s.coord with sh := freeCounter s.cfg s.draws s.coord.sh }
    nodes := freeNodeCounters s.cfg (s.draws + 1) s.nodes
    draws := s.draws + 1 + s.nodes.length }

/-- The environment step `now <- now + d` (R333). -/
def clockAdvance (d : Nat) (s : State) : State := { s with now := s.now + d }

/-! ### One operation, and one placed step -/

/-- An operation of agent `a` in context `ctx`, as one atomic step (R64). -/
def runInstr (a : AgentId) (ctx : Context) (i : Instr) (s : State) :
    Host.Outcome State Fault Refusal :=
  exec i { s with cur := a, ctx := ctx }

/-- A placed step: the written operation is decoded and run; one that spells no operation is refused
(R115). -/
def runEvent (e : Event) (s : State) : Host.Outcome State Fault Refusal :=
  match e with
  | .op a ctx w =>
    match decode w with
    | .ok i => runInstr a ctx i s
    | .error err => .refused (.undecodable err)
  | .clockAdvance d => .next (clockAdvance d s)

/-! ### The free scheduler (R321) -/

/-- A step the scheduler may pick (R321). -/
inductive Pick where
  | clock
  | mainLine (a : AgentId)
  | txExpiry (a : AgentId)
  | rxCapture (a : AgentId)
  deriving DecidableEq, Repr

/-- Whether TX_EXPIRY of an agent is enabled (R313). -/
def txEnabled (s : State) (a : AgentId) : Bool :=
  ((s.shared? a).map fun sh => sh.tx.armed).getD false

/-- Whether RX_CAPTURE of an agent is enabled (R314). -/
def rxEnabled (s : State) (a : AgentId) : Bool := !(s.linkOf (s.upstreamOf a)).isEmpty

/-- The enabled steps of one agent; a halted agent has none (R316). -/
def agentPicks (s : State) (a : AgentId) : List Pick :=
  if s.haltedAgent a then []
  else
    .mainLine a :: ((if txEnabled s a then [.txExpiry a] else []) ++
      (if rxEnabled s a then [.rxCapture a] else []))

/-- The enabled steps of the system (R321); the clock may always advance. -/
def enabledPicks (s : State) : List Pick := .clock :: s.agents.flatMap (agentPicks s)

/-- The next operation of an agent's main line: the node's loop (R128, R351), the coordinator's boot
sequence and loop (R128, R352), with the clock's current value (R33). -/
def mainLineOp (s : State) : AgentId → Instr
  | .coordinator => if s.coord.started then .wdPoll s.now else .wdInit s.now
  | .node _ => .nodePoll s.now

/-- The value RX_CAPTURE takes from the oldest pulse of the upstream link (R330), with the free
value `x`. -/
def captureValue (s : State) (a : AgentId) (x : Nat) : Nat :=
  match s.linkOf (s.upstreamOf a) with
  | [] => 0
  | w :: _ => drawIn (captureLow s.cfg w) (captureHigh s.cfg w) x

/-- Taking a picked step. -/
def runPick (p : Pick) (s : State) : Host.Outcome State Fault Refusal :=
  match p with
  | .clock => .next { clockAdvance (Config.draw s.draws) s with draws := s.draws + 1 }
  | .mainLine a => runInstr a .main (mainLineOp s a) s
  | .txExpiry a => runInstr a .txi .txExpiry s
  | .rxCapture a =>
    runInstr a .rxi (.rxCapture (captureValue s a (Config.draw s.draws)))
      { s with draws := s.draws + 1 }

/-- The scheduler's choice: "picks any enabled step" (R321), by a free draw. -/
def pickStep (s : State) : Pick :=
  ((enabledPicks s)[Config.draw s.draws % (enabledPicks s).length]?).getD .clock

/-- A step with nothing placed. -/
def runFree (s : State) : Host.Outcome State Fault Refusal :=
  runPick (pickStep s) { s with draws := s.draws + 1 }

/-- One step of the system: the capture counters have run on, and the next placed step is taken, or a
free one. A configuration that breaks R6 has no step (R318). -/
def stepSystem (s : State) : Host.Outcome State Fault Refusal :=
  if configOk s.cfg then
    match s.script with
    | [] => runFree (runCounters s)
    | e :: rest => runEvent e { runCounters s with script := rest }
  else .refused .badConfig

/-! ### Placing an operation as the next step (log entry 6) -/

/-- The agent a placed operation is given to: node 0 for an operation of the node, else the
coordinator. -/
def agentFor (i : Instr) : AgentId :=
  match agentKindOf i with
  | .node => .node 0
  | .coordinator => .coordinator
  | .both => .coordinator

/-- The interrupt request an interrupt operation needs: an armed timer for TX_EXPIRY (R313), a pulse
in flight towards the agent for RX_CAPTURE (R314). The other operations need none. -/
def raiseRequest (i : Instr) (s : State) : State :=
  match i with
  | .txExpiry =>
    match s.shared? (agentFor i) with
    | some sh => s.putShared (agentFor i) (arm sh)
    | none => s
  | .rxCapture value =>
    s.putLink (s.upstreamOf (agentFor i)) (value :: s.linkOf (s.upstreamOf (agentFor i)))
  | _ => s

/-- Placing the operation whose bits are `w` as the very next step. -/
def placeWord (s : State) (nbits w : Nat) : State :=
  let word := tableWord nbits w
  match decode word with
  | .ok i =>
    let requested := raiseRequest i s
    { requested with script := .op (agentFor i) (contextOf i) word :: s.script }
  | .error _ => { s with script := .op .coordinator .main word :: s.script }

end Sys2Proof.Machine
end

