-- ==== Sys2Proof/Machine/Step.lean ====
section
/-! DEFINITION. One step of the machine, and the placing of an instruction as its next step. -/

namespace Sys2Proof.Machine

/-- One step of the system: one atomic operation of one agent, or a clock advance (R64, R321). -/
def step (s : State) : Host.Outcome State Fault Refusal := stepSystem s

/-- `s` with the operation whose bits are `w` placed where `step` takes its next operation from (log
entry 6). -/
def State.withFetchWord (s : State) (nbits w : Nat) : State := placeWord s nbits w

end Sys2Proof.Machine
end

