-- ==== Sys2Proof/Safety.lean ====
section
/-! DEFINITION. What counts as a good run, in the terms statements use: no fault recorded, fair runs
(R336), the clean launch (R355), the ends of a run (R356), the invariant of the machine, and the
hazard requirements on a configuration (R357 to R363). -/

namespace Sys2Proof.Machine

/-! ### Faults -/

/-- The agent has recorded no fault (R31). -/
abbrev Shared.noFault (sh : Shared) : Prop := sh.faults = {}

/-- "no fault recorded in any agent" (R316): the premise of every claim about a run. -/
abbrev State.noFault (s : State) : Prop :=
  s.coord.sh.noFault ∧ ∀ n ∈ s.nodes, n.sh.noFault

/-! ### When an operation may run (R116, R316, R321) -/

/-- The agent of the step exists, has not halted, and its codec part is `sh`; the step is taken in
context `ctx`. -/
abbrev State.sharedReady (s : State) (ctx : Context) (sh : Shared) : Prop :=
  s.ctx = ctx ∧ s.shared? s.cur = some sh ∧ sh.faults.halted = false

/-- The step is one of the main line of node `i`, whose record is `n` and which has not halted. -/
abbrev State.nodeReady (s : State) (i : Nat) (n : NodeRec) : Prop :=
  s.ctx = .main ∧ s.cur = .node i ∧ s.nodes[i]? = some n ∧ n.sh.faults.halted = false

/-- The step is one of the coordinator's main line, and the coordinator has not halted. -/
abbrev State.coordReady (s : State) : Prop :=
  s.ctx = .main ∧ s.cur = .coordinator ∧ s.coord.sh.faults.halted = false

/-- `r` is `s` but for the capture counters, which have run on to some values of CAP_BITS bits (R170,
R325, U12), and for the count of free values. -/
abbrev State.countersRanTo (s r : State) : Prop :=
  r = { s with coord := r.coord, nodes := r.nodes, draws := r.draws } ∧
  r.nodes.length = s.nodes.length ∧
  (∃ x < 2 ^ s.cfg.capBits, r.coord = { s.coord with sh := s.coord.sh.setCounter x }) ∧
  ∀ (i : Nat) (n : NodeRec), s.nodes[i]? = some n →
    ∃ x < 2 ^ s.cfg.capBits, r.nodes[i]? = some { n with sh := n.sh.setCounter x }

/-! ### Runs of placed steps -/

/-- `k` steps, stopping at the first fault or refusal. -/
def runSteps : Nat → State → Host.Outcome State Fault Refusal
  | 0, s => .next s
  | k + 1, s =>
    match step s with
    | .next t => runSteps k t
    | .fault r => .fault r
    | .refused r => .refused r

/-- A list of placed steps, taken in order from `s`. -/
def runScript (es : List Event) (s : State) : Host.Outcome State Fault Refusal :=
  runSteps es.length { s with script := es }

/-- A program's operations, issued one by one from the main line of `a` (R125, R311). -/
def issue (a : AgentId) (is : List Instr) : List Event :=
  is.map fun i => .op a .main (encode i)

/-- `k` expiries of the TX timer of `a` (R313). -/
def expiries (a : AgentId) (k : Nat) : List Event :=
  List.replicate k (.op a .txi (encode .txExpiry))

/-- A node reads the symbols of `bits`, one NODE_STEP each (R201): each read is its elapsed time and the
number of expiries of the node's TX timer that follow it. -/
def nodeReads (i : Nat) (bits : List Bit) (reads : List (Nat × Nat)) : List Event :=
  (List.zipWith (fun b r =>
    .op (.node i) .main (encode (.nodeStep (symOfBit b) r.1)) :: expiries (.node i) r.2)
    bits reads).flatten

/-- One capture of the value `v` at `a` (R314). -/
def capture (a : AgentId) (v : Nat) : Event := .op a .rxi (encode (.rxCapture v))

/-! ### Infinite runs and fairness (R321, R336; log entry 23) -/

/-- `s` with one more step placed in front of its script, or as it stands. -/
def State.placing (s : State) : Option Event → State
  | none => s
  | some e => { s with script := e :: s.script }

/-- The agent and the operation of a step that the free scheduler picks; none for a clock advance. -/
def State.pickedOp (s : State) : Pick → Option (AgentId × Instr)
  | .clock => none
  | .mainLine a => some (a, mainLineOp s a)
  | .txExpiry a => some (a, .txExpiry)
  | .rxCapture a => some (a, .rxCapture (captureValue s a (Config.draw s.draws)))

/-- The agent and the operation of the step that `step` takes in `s`; none for a clock advance. -/
def State.takenOp (s : State) : Option (AgentId × Instr) :=
  match s.script with
  | .op a _ w :: _ =>
    match decode w with
    | .ok i => some (a, i)
    | .error _ => none
  | .clockAdvance _ :: _ => none
  | [] =>
    State.pickedOp { runCounters s with draws := (runCounters s).draws + 1 } (pickStep (runCounters s))

/-- Which of the steps of R321 an operation of an agent is, by the context that runs it (R114). -/
def pickOf : Option (AgentId × Instr) → Pick
  | none => .clock
  | some (a, i) =>
    match contextOf i with
    | .main => .mainLine a
    | .txi => .txExpiry a
    | .rxi => .rxCapture a

/-- The step of R321 that `step` takes in `s`. -/
def State.taken (s : State) : Pick := pickOf s.takenOp

/-- An infinite run (R356: the main loops spin forever): state `k + 1` is the step of state `k`, before
which the schedule may place a step, and places none where the free scheduler is to choose. -/
def isRun (place : Nat → Option Event) (run : Nat → State) : Prop :=
  ∀ k, step ((run k).placing (place k)) = .next (run (k + 1))

/-- "every step that stays enabled is eventually taken" (R336). -/
def weaklyFair (place : Nat → Option Event) (run : Nat → State) : Prop :=
  ∀ (p : Pick) (k : Nat), (∀ j, k ≤ j → p ∈ enabledPicks (run j)) →
    ∃ j, k ≤ j ∧ ((run j).placing (place j)).taken = p

/-- The operation is one iteration of a main loop (R128). -/
def Instr.isPoll (i : Instr) : Prop := ∃ now, i = .nodePoll now ∨ i = .wdPoll now

/-- "every agent's main line polls infinitely often" (R336), of the agents that never halt: a halted
agent takes no further step (R316). -/
def pollsForever (place : Nat → Option Event) (run : Nat → State) : Prop :=
  ∀ a ∈ (run 0).agents, (∀ j, (run j).haltedAgent a = false) →
    ∀ k, ∃ j, k ≤ j ∧ ∃ i, Instr.isPoll i ∧ ((run j).placing (place j)).takenOp = some (a, i)

/-- A fair run, the premise of the termination claims: "Termination claims rest on weak fairness"
(R336). The step relation itself admits unfair runs. -/
def fairRun (place : Nat → Option Event) (run : Nat → State) : Prop :=
  isRun place run ∧ weaklyFair place run ∧ pollsForever place run

/-! ### Clean launch (R355) -/

/-- A ring as the power-on state leaves it: empty, of its capacity; the slot contents are open. -/
abbrev Ring.fresh {α : Type} (cap : Nat) (r : Ring α) : Prop :=
  r.slots.length = cap ∧ r.head = 0 ∧ r.tail = 0 ∧ r.size = 0

/-- The codecs, the fault record and the link of an agent at a clean launch (R350, R355). -/
abbrev Shared.fresh (cfg : Config) (sh : Shared) : Prop :=
  sh.tx.rb.fresh cfg.txCap ∧ sh.tx.pending = 0 ∧ sh.tx.bulkOpen = false ∧ sh.tx.armed = false ∧
  sh.tx.pin = false ∧ sh.tx.reload = 0 ∧ sh.tx.highAcc = 0 ∧ sh.rx.rb.fresh cfg.rxCap ∧
  sh.noFault ∧ sh.link = []

/-- A node at a clean launch (R350, R351). -/
abbrev NodeRec.fresh (cfg : Config) (n : NodeRec) : Prop :=
  n.sh.fresh cfg ∧ n.state = .rest ∧ n.count = 0 ∧ n.lastUs = 0

/-- The coordinator at a clean launch: power-on (R350) with WD_INIT run at the clock's current value
(R352, R260). -/
abbrev CoordRec.fresh (cfg : Config) (now : Nat) (c : CoordRec) : Prop :=
  c.sh.fresh cfg ∧ c.state = .rest ∧ c.wolfId = -1 ∧ c.count = 0 ∧ c.wdState = .cooldown ∧
  c.wdDeadline = now + cfg.patienceUs ∧ c.kb0 = List.replicate cfg.maxNodes 0 ∧
  c.kb1 = List.replicate cfg.maxNodes 0 ∧ c.sel = false ∧ c.readCount = 0 ∧
  c.edge = List.replicate cfg.maxNodes 0 ∧ c.started = true

/-- `clean_launch(system)` (R355). -/
abbrev State.cleanLaunch (s : State) : Prop :=
  configOk s.cfg = true ∧ s.coord.fresh s.cfg s.now ∧ ∀ n ∈ s.nodes, n.fresh s.cfg

/-! ### Ends of a run (R356) -/

/-- No agent has recorded a halting fault: "A state with a halting fault (R316) is neither kind of
end" (R356). -/
abbrev State.noneHalted (s : State) : Prop :=
  s.coord.sh.faults.halted = false ∧ ∀ n ∈ s.nodes, n.sh.faults.halted = false

/-- An agent that has nothing left to send. -/
abbrev Shared.quiet (sh : Shared) : Prop :=
  sh.tx.armed = false ∧ sh.tx.bulkOpen = false ∧ sh.link = []

/-- Whether a placed step is an operation of a program, issued from a main line (R311). The interrupts
and the clock advances placed between and after them belong to the schedule. -/
def Event.ofProgram : Event → Bool
  | .op _ .main _ => true
  | .op _ .txi _ => false
  | .op _ .rxi _ => false
  | .clockAdvance _ => false

/-- The placed program's last operation is behind the state: no placed step is one of a program. -/
abbrev State.programDone (s : State) : Prop := ∀ e ∈ s.script, e.ofProgram = false

/-- After the program's last operation, every agent is disarmed with no open bulk, and every link is
empty. -/
abbrev State.settled (s : State) : Prop :=
  s.programDone ∧ s.coord.sh.quiet ∧ ∀ n ∈ s.nodes, n.sh.quiet

/-- A quiescent end (R356) of the finite program that is placed in `s`: the state `t` after `k` placed
steps is the first one that is settled, and no agent has halted. It observes every field of every
agent. (Behind the placed steps the main loops of R128 would run on, which are no part of it.) -/
def quiescentEnd (s : State) (k : Nat) (t : State) : Prop :=
  k ≤ s.script.length ∧ runSteps k s = .next t ∧ t.settled ∧ t.noneHalted ∧
  ∀ j < k, ∀ u, runSteps j s = .next u → ¬ u.settled

/-- Whether the operation `i`, taken in `s`, publishes: DB_PUBLISH does (R291), and WD_POLL does when, in
GOOD, the symbol it takes is the H that completes a cycle (R263, R264). -/
def State.publishes (s : State) : Instr → Bool
  | .dbPublish _ => true
  | .wdPoll _ =>
    decide (s.coord.wdState = .good) && s.coord.sh.rx.rb.avail && decide (s.coord.state = .alert) &&
      decide (classify s.cfg (rxFront s.coord.sh.rx.rb) = symOfBit (!s.cfg.growlBit))
  | .txSchedule _ _ => false
  | .txBulkBegin => false
  | .txBulkSchedule _ _ => false
  | .txBulkEnd => false
  | .txExpiry => false
  | .rxCapture _ => false
  | .rxBitsAvailable => false
  | .rxReceiveBit => false
  | .nodeStep _ _ => false
  | .nodeReset => false
  | .nodePoll _ => false
  | .coordFeed _ => false
  | .coordReset => false
  | .coordReseed => false
  | .wdInit _ => false
  | .dbLatestSnapshot => false
  | .dbEdgeEvents => false

/-- A cycle end (R356): the state `t` just after an operation `i` of the coordinator that publishes, in
which no agent has halted. -/
def cycleEnd (s : State) (i : Instr) (t : State) : Prop :=
  exec i s = .next t ∧ s.publishes i = true ∧ t.noneHalted

/-- What a cycle end observes (R356): the pair DB_LATEST_SNAPSHOT returns, and the vector
DB_EDGE_EVENTS returns. -/
def cycleObservation (cfg : Config) (c : CoordRec) : Result × Result :=
  (latestSnapshot cfg c, edgeEvents cfg c)

/-! ### The invariant of the machine -/

/-- The ring invariant R65. -/
abbrev Ring.wf {α : Type} (cap pending : Nat) (r : Ring α) : Prop :=
  r.slots.length = cap ∧ r.head < cap ∧ r.size + pending ≤ cap ∧
  r.tail = (r.head + r.size + pending) % cap

/-- The TX codec between operations: R65; no pending pair without an open bulk (R142, R143); the line
is low and the ring empty while the timer is disarmed (R144, R143); no pulse is being measured
while the line is low (R145); every pair committed or pending has a duration in
`1..2^DUR_BITS-1` (R61), and the reload value fits (R21). -/
abbrev Tx.wf (cfg : Config) (t : Tx) : Prop :=
  t.rb.wf cfg.txCap t.pending ∧ (t.bulkOpen = false → t.pending = 0) ∧
  (t.armed = false → t.pin = false ∧ t.rb.size = 0) ∧ (t.pin = false → t.highAcc = 0) ∧
  (∀ p ∈ t.rb.entries cfg.txCap (t.rb.size + t.pending) ⟨false, 0⟩, durationOk cfg p.dur = true) ∧
  t.reload < 2 ^ cfg.durBits

/-- The RX codec between operations: R65, and CAP_BITS-bit values (R22, R62). -/
abbrev Rx.wf (cfg : Config) (r : Rx) : Prop :=
  r.rb.wf cfg.rxCap 0 ∧ (∀ v ∈ r.rb.entries cfg.rxCap r.rb.size 0, v < 2 ^ cfg.capBits) ∧
  r.cnt < 2 ^ cfg.capBits

/-- The pairs TX_EXPIRY will pop, oldest first (R65, R142). -/
abbrev Shared.txQueue (cfg : Config) (sh : Shared) : List TxPair :=
  sh.tx.rb.entries cfg.txCap sh.tx.rb.size ⟨false, 0⟩

/-- All entries of the TX ring, oldest first: the pairs TX_EXPIRY will pop, and behind them the pending
pairs of an open bulk (R65). -/
abbrev Shared.txAll (cfg : Config) (sh : Shared) : List TxPair :=
  sh.tx.rb.entries cfg.txCap (sh.tx.rb.size + sh.tx.pending) ⟨false, 0⟩

/-- The pulses that an output line gives until its TX is idle, when the pairs `q` are popped one after
the other, the line stands at `pin` and has been high for `acc` ticks of its last pulse (R145). -/
def linePulses : Level → Nat → List TxPair → List Nat
  | pin, acc, [] => if pin then [acc] else []
  | pin, acc, p :: q =>
    if p.level then linePulses true (if pin then acc + p.dur else p.dur) q
    else if pin then acc :: linePulses false 0 q
    else linePulses false acc q

/-- The pulses an agent has sent and not yet been heard, and those its TX still has to send. -/
def Shared.pulses (cfg : Config) (sh : Shared) : List Nat :=
  sh.link ++ linePulses sh.tx.pin sh.tx.highAcc (sh.txQueue cfg)

/-- The line is low once every pair that is queued has been popped. -/
abbrev Shared.endsLow (cfg : Config) (sh : Shared) : Prop :=
  (((sh.txQueue cfg).getLast?).map TxPair.level).getD sh.tx.pin = false

/-- Whether a TX ring of `cap` slots that holds `size` pairs has room for each burst of a list, where
each burst is the number of pairs it queues and the number of expiries that follow it: at most one
for each pair in the ring and the one that finds the ring empty (R145). -/
def hasRoom (cap : Nat) : Nat → List (Nat × Nat) → Bool
  | _, [] => true
  | size, (add, e) :: bursts =>
    decide (size + add ≤ cap ∧ e ≤ size + add + 1) && hasRoom cap (size + add - e) bursts

/-- The capture values RX_RECEIVE_BIT will pop, oldest first (R65). -/
abbrev Shared.rxQueue (cfg : Config) (sh : Shared) : List Nat :=
  sh.rx.rb.entries cfg.rxCap sh.rx.rb.size 0

/-- What both kinds of agent keep. -/
abbrev Shared.wf (cfg : Config) (sh : Shared) : Prop := sh.tx.wf cfg ∧ sh.rx.wf cfg

/-- The node automaton between operations: never HOWL (R24); `node_count` in `0..K+1` (R23), and at
least 1 exactly in BARK (R206, R207). -/
abbrev NodeRec.wf (cfg : Config) (n : NodeRec) : Prop :=
  n.sh.wf cfg ∧ n.state ≠ .howl ∧ n.count ≤ cfg.k + 1 ∧ (n.state = .bark ↔ 1 ≤ n.count)

/-- The coordinator automaton between operations: `wolf_id` in `-1..MAX_NODES-1` (R27), -1 in REST
(R230, R234, R238), at least 0 in READ_K_BITS (R235); `coord_count` in `0..K+1` (R25), and at least 1
exactly in READ_K_BITS (R235 to R237). -/
abbrev CoordRec.automatonWf (cfg : Config) (c : CoordRec) : Prop :=
  -1 ≤ c.wolfId ∧ c.wolfId < cfg.maxNodes ∧ c.count ≤ cfg.k + 1 ∧
  (c.state = .rest → c.wolfId = -1) ∧ (c.state = .readKBits → 0 ≤ c.wolfId) ∧
  (c.state = .readKBits ↔ 1 ≤ c.count)

/-- The debounce buffers keep their sizes (R30, R60), and the rabies count is in `0..MAX_NODES`. -/
abbrev CoordRec.buffersWf (cfg : Config) (c : CoordRec) : Prop :=
  c.kb0.length = cfg.maxNodes ∧ c.kb1.length = cfg.maxNodes ∧ c.edge.length = cfg.maxNodes ∧
  c.readCount ≤ cfg.maxNodes

/-- What the coordinator keeps. -/
abbrev CoordRec.wf (cfg : Config) (c : CoordRec) : Prop :=
  c.sh.wf cfg ∧ c.automatonWf cfg ∧ c.buffersWf cfg

/-- The invariant of the system: a well-formed configuration (R6) and every agent's invariant. -/
abbrev State.Inv (s : State) : Prop :=
  configOk s.cfg = true ∧ s.coord.wf s.cfg ∧ ∀ n ∈ s.nodes, n.wf s.cfg

/-! ### Hazard requirements on a configuration (70_reset_and_hazards.md section 4) -/

/-- The low periods fit the timer: R10 bounds only the high ones, and a pair that does not fit is
refused its slot with BAD_DURATION (R110, log entry 18). -/
abbrev lowsFit (c : Config) : Prop :=
  c.t0l < 2 ^ c.durBits ∧ c.t1l < 2 ^ c.durBits ∧ c.tRstL < 2 ^ c.durBits

/-- R360: "`TX_CAP >= 2*(K+4)` gives a margin of one bit". -/
abbrev hazardTxBacklog (c : Config) : Prop := 2 * (c.k + 4) ≤ c.txCap

/-- R362, the part that the configuration fixes: the node's threshold exceeds one bit period. -/
abbrev hazardNodeGap (c : Config) : Prop := c.tBit < c.nodeResetUs * c.ticksPerUs

/-- The patience in ticks. -/
def patienceTicks (c : Config) : Nat := c.patienceUs * c.ticksPerUs

/-- R363, first silence: the round trip of the frame start, "through the whole chain before its first
bit returns". "Each node forwards a pulse only after the pulse's falling edge, its main line's poll,
and ARM_DELAY", so that the first bit G, sent `n + 1` times, takes at least its high period each time
and ARM_DELAY at each node. -/
abbrev hazardFrameStart (c : Config) (n : Nat) : Prop :=
  (n + 1) * highTime c c.growlBit + n * c.armDelay < patienceTicks c

/-- R363, second silence: "the gap between two symbols of a returning frame", at least the bit period
that every bit takes (R10), as in R362. -/
abbrev hazardSymbolGap (c : Config) : Prop := c.tBit < patienceTicks c

/-- R363, third silence: the round trip of the reset waveform through `n` nodes, "at least about
`N*(T_RST_H + T_RST_L + ARM_DELAY)` ticks for the echo". -/
abbrev hazardEcho (c : Config) (n : Nat) : Prop :=
  n * (c.tRstH + c.tRstL + c.armDelay) < patienceTicks c

/-- R363, the part that the configuration fixes: the patience exceeds the longest of the three
silences. What loop and interrupt latencies add to them is not in the model (log entry 16). -/
abbrev hazardPatience (c : Config) (n : Nat) : Prop :=
  hazardFrameStart c n ∧ hazardSymbolGap c ∧ hazardEcho c n

/-- The times of the expiries of one armed period, from arming at time 0 and without interrupt
latency (R146): the first after ARM_DELAY, each next one a popped duration later. -/
def expiryTimes (first : Nat) : List Nat → List Nat
  | [] => [first]
  | d :: ds => first :: expiryTimes (first + d) ds

end Sys2Proof.Machine
end

