-- ==== Sys2Proof/Laws/State.lean ====
section
/-! SUPPORT. The small lemmas of the state: what each update leaves in each field, true by unfolding,
and what the agent accessors read after a write. -/

namespace Sys2Proof.Machine

/-! ### The fault record -/

@[simp] theorem FaultSet.has_add (f : FaultSet) (c d : FaultCode) :
    (f.add c).has d = (f.has d || decide (c = d)) := by
  cases c <;> cases d <;> simp [FaultSet.add, FaultSet.has]

@[simp] theorem FaultSet.has_empty (c : FaultCode) : ({} : FaultSet).has c = false := by
  cases c <;> rfl

theorem FaultSet.halted_iff (f : FaultSet) :
    f.halted = true ↔ ∃ c : FaultCode, c.halts = true ∧ f.has c = true := by
  constructor
  · intro h
    simp only [FaultSet.halted, Bool.or_eq_true] at h
    obtain (h | h) | h := h
    exacts [⟨.rxEmptyRead, rfl, h⟩, ⟨.unreachableState, rfl, h⟩, ⟨.nonmonotonicClock, rfl, h⟩]
  · rintro ⟨c, hc, h⟩
    cases c <;> simp_all [FaultCode.halts, FaultSet.has, FaultSet.halted]

theorem FaultSet.halted_add (f : FaultSet) (c : FaultCode) :
    (f.add c).halted = (f.halted || c.halts) := by
  cases c <;> simp [FaultSet.add, FaultSet.halted, FaultCode.halts]

@[simp] theorem Shared.raise_tx (sh : Shared) (c : FaultCode) : (sh.raise c).tx = sh.tx := rfl
@[simp] theorem Shared.raise_rx (sh : Shared) (c : FaultCode) : (sh.raise c).rx = sh.rx := rfl
@[simp] theorem Shared.raise_link (sh : Shared) (c : FaultCode) : (sh.raise c).link = sh.link := rfl
@[simp] theorem Shared.raise_ret (sh : Shared) (c : FaultCode) : (sh.raise c).ret = sh.ret := rfl
@[simp] theorem Shared.raise_faults (sh : Shared) (c : FaultCode) :
    (sh.raise c).faults = sh.faults.add c := rfl

/-! ### Updates of an agent's codec part -/

@[simp] theorem Shared.answer_tx (sh : Shared) (r : Result) : (sh.answer r).tx = sh.tx := rfl
@[simp] theorem Shared.answer_rx (sh : Shared) (r : Result) : (sh.answer r).rx = sh.rx := rfl
@[simp] theorem Shared.answer_faults (sh : Shared) (r : Result) :
    (sh.answer r).faults = sh.faults := rfl
@[simp] theorem Shared.answer_link (sh : Shared) (r : Result) : (sh.answer r).link = sh.link := rfl
@[simp] theorem Shared.answer_ret (sh : Shared) (r : Result) : (sh.answer r).ret = r := rfl

@[simp] theorem Shared.emitPulse_tx (sh : Shared) (w : Nat) : (sh.emitPulse w).tx = sh.tx := rfl
@[simp] theorem Shared.emitPulse_rx (sh : Shared) (w : Nat) : (sh.emitPulse w).rx = sh.rx := rfl
@[simp] theorem Shared.emitPulse_faults (sh : Shared) (w : Nat) :
    (sh.emitPulse w).faults = sh.faults := rfl
@[simp] theorem Shared.emitPulse_ret (sh : Shared) (w : Nat) : (sh.emitPulse w).ret = sh.ret := rfl
@[simp] theorem Shared.emitPulse_link (sh : Shared) (w : Nat) :
    (sh.emitPulse w).link = sh.link ++ [w] := rfl

@[simp] theorem Shared.setCounter_tx (sh : Shared) (x : Nat) : (sh.setCounter x).tx = sh.tx := rfl
@[simp] theorem Shared.setCounter_rb (sh : Shared) (x : Nat) :
    (sh.setCounter x).rx.rb = sh.rx.rb := rfl
@[simp] theorem Shared.setCounter_cnt (sh : Shared) (x : Nat) : (sh.setCounter x).rx.cnt = x := rfl
@[simp] theorem Shared.setCounter_faults (sh : Shared) (x : Nat) :
    (sh.setCounter x).faults = sh.faults := rfl
@[simp] theorem Shared.setCounter_link (sh : Shared) (x : Nat) :
    (sh.setCounter x).link = sh.link := rfl
@[simp] theorem Shared.setCounter_ret (sh : Shared) (x : Nat) :
    (sh.setCounter x).ret = sh.ret := rfl
@[simp] theorem Shared.setCounter_setCounter (sh : Shared) (x y : Nat) :
    (sh.setCounter x).setCounter y = sh.setCounter y := rfl

@[simp] theorem arm_armed (sh : Shared) : (arm sh).tx.armed = true := rfl
@[simp] theorem arm_rb (sh : Shared) : (arm sh).tx.rb = sh.tx.rb := rfl
@[simp] theorem arm_pending (sh : Shared) : (arm sh).tx.pending = sh.tx.pending := rfl
@[simp] theorem arm_bulkOpen (sh : Shared) : (arm sh).tx.bulkOpen = sh.tx.bulkOpen := rfl
@[simp] theorem arm_pin (sh : Shared) : (arm sh).tx.pin = sh.tx.pin := rfl
@[simp] theorem arm_reload (sh : Shared) : (arm sh).tx.reload = sh.tx.reload := rfl
@[simp] theorem arm_highAcc (sh : Shared) : (arm sh).tx.highAcc = sh.tx.highAcc := rfl
@[simp] theorem arm_rx (sh : Shared) : (arm sh).rx = sh.rx := rfl
@[simp] theorem arm_faults (sh : Shared) : (arm sh).faults = sh.faults := rfl
@[simp] theorem arm_link (sh : Shared) : (arm sh).link = sh.link := rfl
@[simp] theorem arm_ret (sh : Shared) : (arm sh).ret = sh.ret := rfl

/-! ### Updates of the coordinator's record -/

@[simp] theorem CoordRec.kb_false (c : CoordRec) : c.kb false = c.kb0 := rfl
@[simp] theorem CoordRec.kb_true (c : CoordRec) : c.kb true = c.kb1 := rfl

@[simp] theorem CoordRec.kb_putKb_same (c : CoordRec) (b : Bit) (buf : List Byte) :
    (c.putKb b buf).kb b = buf := by
  cases b <;> rfl

@[simp] theorem CoordRec.kb_putKb_not (c : CoordRec) (b : Bit) (buf : List Byte) :
    (c.putKb b buf).kb (!b) = c.kb (!b) := by
  cases b <;> rfl

@[simp] theorem CoordRec.kb_not_putKb (c : CoordRec) (b : Bit) (buf : List Byte) :
    (c.putKb (!b) buf).kb b = c.kb b := by
  cases b <;> rfl

@[simp] theorem CoordRec.putKb_sh (c : CoordRec) (b : Bit) (buf : List Byte) :
    (c.putKb b buf).sh = c.sh := by cases b <;> rfl
@[simp] theorem CoordRec.putKb_state (c : CoordRec) (b : Bit) (buf : List Byte) :
    (c.putKb b buf).state = c.state := by cases b <;> rfl
@[simp] theorem CoordRec.putKb_wolfId (c : CoordRec) (b : Bit) (buf : List Byte) :
    (c.putKb b buf).wolfId = c.wolfId := by cases b <;> rfl
@[simp] theorem CoordRec.putKb_count (c : CoordRec) (b : Bit) (buf : List Byte) :
    (c.putKb b buf).count = c.count := by cases b <;> rfl
@[simp] theorem CoordRec.putKb_wdState (c : CoordRec) (b : Bit) (buf : List Byte) :
    (c.putKb b buf).wdState = c.wdState := by cases b <;> rfl
@[simp] theorem CoordRec.putKb_wdDeadline (c : CoordRec) (b : Bit) (buf : List Byte) :
    (c.putKb b buf).wdDeadline = c.wdDeadline := by cases b <;> rfl
@[simp] theorem CoordRec.putKb_sel (c : CoordRec) (b : Bit) (buf : List Byte) :
    (c.putKb b buf).sel = c.sel := by cases b <;> rfl
@[simp] theorem CoordRec.putKb_readCount (c : CoordRec) (b : Bit) (buf : List Byte) :
    (c.putKb b buf).readCount = c.readCount := by cases b <;> rfl
@[simp] theorem CoordRec.putKb_edge (c : CoordRec) (b : Bit) (buf : List Byte) :
    (c.putKb b buf).edge = c.edge := by cases b <;> rfl
@[simp] theorem CoordRec.putKb_started (c : CoordRec) (b : Bit) (buf : List Byte) :
    (c.putKb b buf).started = c.started := by cases b <;> rfl

@[simp] theorem coordReset_sh (c : CoordRec) : (coordReset c).sh = c.sh := rfl
@[simp] theorem coordReset_state (c : CoordRec) : (coordReset c).state = .rest := rfl
@[simp] theorem coordReset_wolfId (c : CoordRec) : (coordReset c).wolfId = -1 := rfl
@[simp] theorem coordReset_count (c : CoordRec) : (coordReset c).count = 0 := rfl
@[simp] theorem coordReset_wdState (c : CoordRec) : (coordReset c).wdState = c.wdState := rfl
@[simp] theorem coordReset_wdDeadline (c : CoordRec) :
    (coordReset c).wdDeadline = c.wdDeadline := rfl
@[simp] theorem coordReset_kb0 (c : CoordRec) : (coordReset c).kb0 = c.kb0 := rfl
@[simp] theorem coordReset_kb1 (c : CoordRec) : (coordReset c).kb1 = c.kb1 := rfl
@[simp] theorem coordReset_sel (c : CoordRec) : (coordReset c).sel = c.sel := rfl
@[simp] theorem coordReset_readCount (c : CoordRec) : (coordReset c).readCount = c.readCount := rfl
@[simp] theorem coordReset_edge (c : CoordRec) : (coordReset c).edge = c.edge := rfl
@[simp] theorem coordReset_started (c : CoordRec) : (coordReset c).started = c.started := rfl

@[simp] theorem CoordRec.answer_sh (c : CoordRec) (r : Result) :
    (c.answer r).sh = c.sh.answer r := rfl
@[simp] theorem CoordRec.answer_state (c : CoordRec) (r : Result) :
    (c.answer r).state = c.state := rfl
@[simp] theorem CoordRec.answer_wolfId (c : CoordRec) (r : Result) :
    (c.answer r).wolfId = c.wolfId := rfl
@[simp] theorem CoordRec.answer_count (c : CoordRec) (r : Result) :
    (c.answer r).count = c.count := rfl
@[simp] theorem CoordRec.answer_kb0 (c : CoordRec) (r : Result) : (c.answer r).kb0 = c.kb0 := rfl
@[simp] theorem CoordRec.answer_kb1 (c : CoordRec) (r : Result) : (c.answer r).kb1 = c.kb1 := rfl
@[simp] theorem CoordRec.answer_sel (c : CoordRec) (r : Result) : (c.answer r).sel = c.sel := rfl
@[simp] theorem CoordRec.answer_readCount (c : CoordRec) (r : Result) :
    (c.answer r).readCount = c.readCount := rfl
@[simp] theorem CoordRec.answer_edge (c : CoordRec) (r : Result) :
    (c.answer r).edge = c.edge := rfl

/-! ### Updates of a node's record -/

@[simp] theorem nodeReset_sh (n : NodeRec) : (nodeReset n).sh = n.sh := rfl
@[simp] theorem nodeReset_state (n : NodeRec) : (nodeReset n).state = .rest := rfl
@[simp] theorem nodeReset_count (n : NodeRec) : (nodeReset n).count = 0 := rfl
@[simp] theorem nodeReset_lastUs (n : NodeRec) : (nodeReset n).lastUs = n.lastUs := rfl

/-! ### The agents' records in the state -/

@[simp] theorem State.putShared_cfg (s : State) (a : AgentId) (sh : Shared) :
    (s.putShared a sh).cfg = s.cfg := by cases a <;> rfl
@[simp] theorem State.putShared_now (s : State) (a : AgentId) (sh : Shared) :
    (s.putShared a sh).now = s.now := by cases a <;> rfl
@[simp] theorem State.putShared_cur (s : State) (a : AgentId) (sh : Shared) :
    (s.putShared a sh).cur = s.cur := by cases a <;> rfl
@[simp] theorem State.putShared_ctx (s : State) (a : AgentId) (sh : Shared) :
    (s.putShared a sh).ctx = s.ctx := by cases a <;> rfl
@[simp] theorem State.putShared_script (s : State) (a : AgentId) (sh : Shared) :
    (s.putShared a sh).script = s.script := by cases a <;> rfl
@[simp] theorem State.putShared_draws (s : State) (a : AgentId) (sh : Shared) :
    (s.putShared a sh).draws = s.draws := by cases a <;> rfl
@[simp] theorem State.putShared_nodes_length (s : State) (a : AgentId) (sh : Shared) :
    (s.putShared a sh).nodes.length = s.nodes.length := by
  cases a <;> simp [State.putShared]

@[simp] theorem State.placing_none (s : State) : s.placing none = s := rfl
@[simp] theorem State.placing_script (s : State) (e : Event) :
    (s.placing (some e)).script = e :: s.script := rfl
@[simp] theorem State.placing_cfg (s : State) (o : Option Event) : (s.placing o).cfg = s.cfg := by
  cases o <;> rfl
@[simp] theorem State.placing_coord (s : State) (o : Option Event) :
    (s.placing o).coord = s.coord := by cases o <;> rfl
@[simp] theorem State.placing_nodes (s : State) (o : Option Event) :
    (s.placing o).nodes = s.nodes := by cases o <;> rfl
@[simp] theorem State.placing_now (s : State) (o : Option Event) : (s.placing o).now = s.now := by
  cases o <;> rfl
@[simp] theorem State.placing_draws (s : State) (o : Option Event) :
    (s.placing o).draws = s.draws := by cases o <;> rfl

@[simp] theorem State.putCoord_cfg (s : State) (c : CoordRec) : (s.putCoord c).cfg = s.cfg := rfl
@[simp] theorem State.putCoord_coord (s : State) (c : CoordRec) : (s.putCoord c).coord = c := rfl
@[simp] theorem State.putCoord_nodes (s : State) (c : CoordRec) :
    (s.putCoord c).nodes = s.nodes := rfl
@[simp] theorem State.putCoord_now (s : State) (c : CoordRec) : (s.putCoord c).now = s.now := rfl
@[simp] theorem State.putCoord_cur (s : State) (c : CoordRec) : (s.putCoord c).cur = s.cur := rfl
@[simp] theorem State.putCoord_ctx (s : State) (c : CoordRec) : (s.putCoord c).ctx = s.ctx := rfl
@[simp] theorem State.putCoord_script (s : State) (c : CoordRec) :
    (s.putCoord c).script = s.script := rfl
@[simp] theorem State.putCoord_draws (s : State) (c : CoordRec) :
    (s.putCoord c).draws = s.draws := rfl

@[simp] theorem State.putNode_cfg (s : State) (i : Nat) (n : NodeRec) :
    (s.putNode i n).cfg = s.cfg := rfl
@[simp] theorem State.putNode_coord (s : State) (i : Nat) (n : NodeRec) :
    (s.putNode i n).coord = s.coord := rfl
@[simp] theorem State.putNode_nodes (s : State) (i : Nat) (n : NodeRec) :
    (s.putNode i n).nodes = s.nodes.set i n := rfl
@[simp] theorem State.putNode_now (s : State) (i : Nat) (n : NodeRec) :
    (s.putNode i n).now = s.now := rfl
@[simp] theorem State.putNode_cur (s : State) (i : Nat) (n : NodeRec) :
    (s.putNode i n).cur = s.cur := rfl
@[simp] theorem State.putNode_ctx (s : State) (i : Nat) (n : NodeRec) :
    (s.putNode i n).ctx = s.ctx := rfl
@[simp] theorem State.putNode_script (s : State) (i : Nat) (n : NodeRec) :
    (s.putNode i n).script = s.script := rfl
@[simp] theorem State.putNode_draws (s : State) (i : Nat) (n : NodeRec) :
    (s.putNode i n).draws = s.draws := rfl

@[simp] theorem State.shared?_coordinator (s : State) :
    s.shared? .coordinator = some s.coord.sh := rfl
@[simp] theorem State.shared?_node (s : State) (i : Nat) :
    s.shared? (.node i) = (s.nodes[i]?).map NodeRec.sh := rfl

/-- Reading an agent's codec part after replacing one. -/
theorem State.shared?_putShared (s : State) (a b : AgentId) (sh : Shared) :
    (s.putShared a sh).shared? b =
      if a = b then (s.shared? a).map fun _ => sh else s.shared? b := by
  cases a with
  | coordinator => cases b <;> simp [State.putShared]
  | node i =>
    cases b with
    | coordinator => simp [State.putShared]
    | node j =>
      by_cases h : i = j
      · subst h; simp [State.putShared, Function.comp_def]
      · simp [State.putShared, h]

/-- Reading the codec part of the agent just replaced. -/
theorem State.shared?_putShared_self {s : State} {a : AgentId} {old : Shared} (sh : Shared)
    (h : s.shared? a = some old) : (s.putShared a sh).shared? a = some sh := by
  simp [State.shared?_putShared, h]

/-- Replacing twice leaves the second. -/
theorem State.putShared_putShared (s : State) (a : AgentId) (x y : Shared) :
    (s.putShared a x).putShared a y = s.putShared a y := by
  cases a with
  | coordinator => rfl
  | node i =>
    simp only [State.putShared, State.mk.injEq, true_and, and_true]
    refine List.ext_getElem? fun j => ?_
    by_cases h : i = j <;> simp [h, Function.comp_def]

/-- Replacing an agent's codec part by itself changes nothing. -/
theorem State.putShared_self {s : State} {a : AgentId} {sh : Shared} (h : s.shared? a = some sh) :
    s.putShared a sh = s := by
  cases a with
  | coordinator => simp at h; subst h; rfl
  | node i =>
    have : (s.nodes.modify i fun n => { n with sh := sh }) = s.nodes := by
      refine List.ext_getElem? fun j => ?_
      by_cases hj : i = j
      · subst hj
        simp only [State.shared?_node, Option.map_eq_some_iff] at h
        obtain ⟨n, hn, rfl⟩ := h
        simp [hn]
      · simp [hj]
    simp [State.putShared, this]

end Sys2Proof.Machine
end

