-- ==== Sys2Proof/Laws/PerInstr.lean ====
section
/-! SUPPORT. Statements about every instruction as syntax, one lemma per constructor. -/

namespace Sys2Proof.Laws.TableRow

/-- The written form of an operation has a row in the operation map R114, whose format has as many
arguments as the operation carries, and whose context and agent columns are the model's. -/
def Statement (i : Instr) : Prop :=
  ∃ row, rowOf (encode i).op = some row ∧ (encode i).args.length = formatArity row.format ∧
    row.ctx = contextOf i ∧ row.agent = agentKindOf i

theorem txSchedule (level : Level) (dur : Nat) : Statement (.txSchedule level dur) :=
  ⟨_, rfl, rfl, rfl, rfl⟩
theorem txBulkBegin : Statement .txBulkBegin := ⟨_, rfl, rfl, rfl, rfl⟩
theorem txBulkSchedule (level : Level) (dur : Nat) : Statement (.txBulkSchedule level dur) :=
  ⟨_, rfl, rfl, rfl, rfl⟩
theorem txBulkEnd : Statement .txBulkEnd := ⟨_, rfl, rfl, rfl, rfl⟩
theorem txExpiry : Statement .txExpiry := ⟨_, rfl, rfl, rfl, rfl⟩
theorem rxCapture (value : Nat) : Statement (.rxCapture value) := ⟨_, rfl, rfl, rfl, rfl⟩
theorem rxBitsAvailable : Statement .rxBitsAvailable := ⟨_, rfl, rfl, rfl, rfl⟩
theorem rxReceiveBit : Statement .rxReceiveBit := ⟨_, rfl, rfl, rfl, rfl⟩
theorem nodeStep (sym : Sym) (elapsed : Nat) : Statement (.nodeStep sym elapsed) :=
  ⟨_, rfl, rfl, rfl, rfl⟩
theorem nodeReset : Statement .nodeReset := ⟨_, rfl, rfl, rfl, rfl⟩
theorem nodePoll (now : Nat) : Statement (.nodePoll now) := ⟨_, rfl, rfl, rfl, rfl⟩
theorem coordFeed (bit : Bit) : Statement (.coordFeed bit) := ⟨_, rfl, rfl, rfl, rfl⟩
theorem coordReset : Statement .coordReset := ⟨_, rfl, rfl, rfl, rfl⟩
theorem coordReseed : Statement .coordReseed := ⟨_, rfl, rfl, rfl, rfl⟩
theorem wdInit (now : Nat) : Statement (.wdInit now) := ⟨_, rfl, rfl, rfl, rfl⟩
theorem wdPoll (now : Nat) : Statement (.wdPoll now) := ⟨_, rfl, rfl, rfl, rfl⟩
theorem dbPublish (n : Nat) : Statement (.dbPublish n) := ⟨_, rfl, rfl, rfl, rfl⟩
theorem dbLatestSnapshot : Statement .dbLatestSnapshot := ⟨_, rfl, rfl, rfl, rfl⟩
theorem dbEdgeEvents : Statement .dbEdgeEvents := ⟨_, rfl, rfl, rfl, rfl⟩

end Sys2Proof.Laws.TableRow
end

