-- ==== Sys2Proof/Laws/Ring.lean ====
section
/-! SUPPORT. What the ring operations can do (R65 to R70): they keep the ring invariant, and seen
through `Ring.entries` a ring is a first-in first-out queue. -/

namespace Sys2Proof.Machine

variable {α : Type}

@[simp] theorem Ring.entries_length (cap n : Nat) (d : α) (r : Ring α) :
    (r.entries cap n d).length = n := by
  simp [Ring.entries]

@[simp] theorem Ring.entries_zero (cap : Nat) (d : α) (r : Ring α) : r.entries cap 0 d = [] := rfl

/-- The entries depend on the slots and the head alone. -/
theorem Ring.entries_congr {r r' : Ring α} (hs : r'.slots = r.slots) (hh : r'.head = r.head)
    (cap n : Nat) (d : α) : r'.entries cap n d = r.entries cap n d := by
  simp [Ring.entries, hs, hh]

/-- A write adds its value behind the first `k` entries, where the tail stands. -/
theorem Ring.entries_write {cap k : Nat} {r : Ring α} (d v : α) (hl : r.slots.length = cap)
    (hk : k < cap) (ht : r.tail = (r.head + k) % cap) :
    (r.write cap v).entries cap (k + 1) d = r.entries cap k d ++ [v] := by
  have hcap : 0 < cap := by omega
  simp only [Ring.entries, Ring.write, List.range_succ, List.map_append, List.map_cons, List.map_nil]
  congr 1
  · refine List.map_congr_left fun j hj => ?_
    have hj : j < k := List.mem_range.mp hj
    have hne : (r.head + k) % cap ≠ (r.head + j) % cap := by
      intro h
      have h' : (k - j) % cap = 0 := by
        have := Nat.sub_mod_eq_zero_of_mod_eq h
        have e : r.head + k - (r.head + j) = k - j := by omega
        rwa [e] at this
      rw [Nat.mod_eq_of_lt (by omega)] at h'
      omega
    rw [ht, List.getElem?_set_ne hne]
  · have hlt : (r.head + k) % cap < cap := Nat.mod_lt _ hcap
    simp [ht, hl, hlt]

/-- A pop removes the first entry. -/
theorem Ring.entries_pop {cap n : Nat} (r : Ring α) (d : α) :
    r.entries cap (n + 1) d =
      ((r.slots[(r.head) % cap]?).getD d) :: (r.pop cap).entries cap n d := by
  simp only [Ring.entries, Ring.pop, List.range_succ_eq_map, List.map_cons, List.map_map, Nat.add_zero]
  congr 1
  refine List.map_congr_left fun j _ => ?_
  simp only [Function.comp_apply, Nat.succ_eq_add_one]
  have : (r.head + (j + 1)) % cap = ((r.head + 1) % cap + j) % cap := by
    rw [Nat.mod_add_mod]; congr 1; omega
  rw [this]

/-- In a well-formed ring the front does not depend on what a missing slot would hold. -/
theorem Ring.front_eq {cap pending : Nat} {r : Ring α} (h : r.wf cap pending) (d e : α) :
    r.front d = (r.slots[r.head % cap]?).getD e := by
  obtain ⟨hl, hh, -, -⟩ := h
  rw [Nat.mod_eq_of_lt hh]
  have : r.head < r.slots.length := by omega
  simp [Ring.front, List.getElem?_eq_getElem this]

/-- A push answers `none` exactly on a full ring. -/
theorem Ring.push_eq_none {cap pending : Nat} {v : α} {r : Ring α} :
    r.push cap pending v = none ↔ r.size + pending = cap := by
  simp [Ring.push]

/-- What a push that is not dropped does (R66). -/
theorem Ring.push_eq_some {cap pending : Nat} {v : α} {r r' : Ring α} :
    r.push cap pending v = some r' ↔
      r.size + pending ≠ cap ∧ r' = { r.write cap v with size := r.size + 1 } := by
  simp only [Ring.push]
  split <;> simp_all [eq_comm]

/-- The write of a bulk (R142) keeps the ring invariant, with one more pending entry. -/
theorem Ring.wf_write {cap pending : Nat} {r : Ring α} (v : α) (h : r.wf cap pending)
    (hn : r.size + pending ≠ cap) : (r.write cap v).wf cap (pending + 1) := by
  obtain ⟨hl, hh, hs, ht⟩ := h
  refine ⟨by simp [Ring.write, hl], hh, by simp only [Ring.write]; omega, ?_⟩
  simp only [Ring.write, ht, Nat.mod_add_mod]
  congr 1

/-- A push (R66) keeps the ring invariant; `pending` is 0 where pushes are allowed. -/
theorem Ring.wf_push {cap : Nat} {r r' : Ring α} {v : α} (h : r.wf cap 0)
    (hp : r.push cap 0 v = some r') : r'.wf cap 0 := by
  obtain ⟨hn, rfl⟩ := Ring.push_eq_some.mp hp
  obtain ⟨hl, hh, hs, ht⟩ := Ring.wf_write v h hn
  exact ⟨hl, hh, by simp only [Ring.write] at hs ⊢; omega, by rw [ht]; simp [Ring.write, Nat.add_assoc]⟩

/-- A push puts its value behind the entries (R70). -/
theorem Ring.entries_push {cap : Nat} {r r' : Ring α} {v : α} (d : α) (h : r.wf cap 0)
    (hp : r.push cap 0 v = some r') :
    r'.entries cap r'.size d = r.entries cap r.size d ++ [v] := by
  obtain ⟨hn, rfl⟩ := Ring.push_eq_some.mp hp
  obtain ⟨hl, hh, hs, ht⟩ := h
  exact Ring.entries_write d v hl (by omega) ht

/-- A pop of a ring that is not empty (R67) keeps the ring invariant. -/
theorem Ring.wf_pop {cap pending : Nat} {r : Ring α} (h : r.wf cap pending) (hs : 0 < r.size) :
    (r.pop cap).wf cap pending := by
  obtain ⟨hl, hh, hc, ht⟩ := h
  have hcap : 0 < cap := by omega
  refine ⟨hl, Nat.mod_lt _ hcap, by simp only [Ring.pop]; omega, ?_⟩
  simp only [Ring.pop, ht]
  rw [Nat.add_assoc ((r.head + 1) % cap), Nat.mod_add_mod]
  congr 1; omega

/-- Committing the pending entries (R143) keeps the ring invariant. -/
theorem Ring.wf_commit {cap pending : Nat} {r : Ring α} (h : r.wf cap pending) :
    ({ r with size := r.size + pending } : Ring α).wf cap 0 := by
  obtain ⟨hl, hh, hc, ht⟩ := h
  exact ⟨hl, hh, hc, by simpa [Nat.add_assoc] using ht⟩

/-- A fresh ring has the ring invariant (R350). -/
theorem Ring.wf_empty {cap : Nat} (h : 0 < cap) (fill : α) : (Ring.empty cap fill).wf cap 0 := by
  simp [Ring.empty, Ring.wf, h]

end Sys2Proof.Machine
end

