-- ==== Sys2Proof/Laws/Ops.lean ====
section
/-! SUPPORT. What the shared operations can do: the admission of an operation, the links, and the TX
and RX codec operations, each said once. -/

namespace Sys2Proof.Machine

/-! ### Admission (R116, R316) -/

variable {s t : State} {ctx : Context}

theorem withShared_ready {sh : Shared} (k : Shared → Host.Outcome State Fault Refusal)
    (h : s.sharedReady ctx sh) : withShared ctx s k = k sh := by
  obtain ⟨hc, ha, hf⟩ := h
  simp [withShared, hc, ha, hf]

theorem withShared_next {k : Shared → Host.Outcome State Fault Refusal}
    (h : withShared ctx s k = .next t) : ∃ sh, s.sharedReady ctx sh ∧ k sh = .next t := by
  unfold withShared at h
  split at h
  case isFalse => cases h
  case isTrue hc =>
    split at h
    case h_1 => cases h
    case h_2 sh ha =>
      split at h
      case isTrue => cases h
      case isFalse hf => exact ⟨sh, ⟨hc, ha, by simpa using hf⟩, h⟩

theorem withNode_ready {i : Nat} {n : NodeRec}
    (k : Nat → NodeRec → Host.Outcome State Fault Refusal) (h : s.nodeReady i n) :
    withNode s k = k i n := by
  obtain ⟨hc, hu, ha, hf⟩ := h
  simp [withNode, hc, hu, ha, hf]

theorem withNode_next {k : Nat → NodeRec → Host.Outcome State Fault Refusal}
    (h : withNode s k = .next t) : ∃ i n, s.nodeReady i n ∧ k i n = .next t := by
  unfold withNode at h
  split at h
  case h_1 => cases h
  case h_2 i hu =>
    split at h
    case isFalse => cases h
    case isTrue hc =>
      split at h
      case h_1 => cases h
      case h_2 n ha =>
        split at h
        case isTrue => cases h
        case isFalse hf => exact ⟨i, n, ⟨hc, hu, ha, by simpa using hf⟩, h⟩

theorem withCoord_ready (k : CoordRec → Host.Outcome State Fault Refusal) (h : s.coordReady) :
    withCoord s k = k s.coord := by
  obtain ⟨hc, hu, hf⟩ := h
  simp [withCoord, hc, hu, hf]

theorem withCoord_next {k : CoordRec → Host.Outcome State Fault Refusal}
    (h : withCoord s k = .next t) : s.coordReady ∧ k s.coord = .next t := by
  unfold withCoord at h
  split at h
  case h_1 => cases h
  case h_2 hu =>
    split at h
    case isFalse => cases h
    case isTrue hc =>
      split at h
      case isTrue => cases h
      case isFalse hf => exact ⟨⟨hc, hu, by simpa using hf⟩, h⟩

theorem onShared_ready {sh : Shared} (f : Shared → Shared) (h : s.sharedReady .main sh) :
    onShared s f = .next (s.putShared s.cur (f sh)) := withShared_ready _ h

theorem onShared_next {f : Shared → Shared} (h : onShared s f = .next t) :
    ∃ sh, s.sharedReady .main sh ∧ t = s.putShared s.cur (f sh) := by
  obtain ⟨sh, hr, hk⟩ := withShared_next h
  exact ⟨sh, hr, by simpa [eq_comm] using hk⟩

theorem onCoord_ready (f : CoordRec → CoordRec) (h : s.coordReady) :
    onCoord s f = .next (s.putCoord (f s.coord)) := withCoord_ready _ h

theorem onCoord_next {f : CoordRec → CoordRec} (h : onCoord s f = .next t) :
    s.coordReady ∧ t = s.putCoord (f s.coord) := by
  obtain ⟨hr, hk⟩ := withCoord_next h
  exact ⟨hr, by simpa [eq_comm] using hk⟩

theorem onNode_ready {i : Nat} {n : NodeRec} (f : NodeRec → Nat → NodeRec × Nat)
    (h : s.nodeReady i n) :
    onNode s f = .next { s.putNode i (f n s.draws).1 with draws := (f n s.draws).2 } :=
  withNode_ready _ h

theorem onNode_next {f : NodeRec → Nat → NodeRec × Nat} (h : onNode s f = .next t) :
    ∃ i n, s.nodeReady i n ∧
      t = { s.putNode i (f n s.draws).1 with draws := (f n s.draws).2 } := by
  obtain ⟨i, n, hr, hk⟩ := withNode_next h
  exact ⟨i, n, hr, by simpa [eq_comm] using hk⟩

/-! ### Links (R330) -/

/-- The link that leaves an agent of the ring is part of its record. -/
theorem State.linkOf_eq {a : AgentId} {sh : Shared} (h : s.shared? a = some sh) :
    s.linkOf a = sh.link := by
  simp [State.linkOf, h]

/-- Only an agent of the ring has a link that is not empty. -/
theorem State.shared?_of_linkOf {a : AgentId} {w : Nat} {rest : List Nat}
    (h : s.linkOf a = w :: rest) : ∃ sh, s.shared? a = some sh ∧ sh.link = w :: rest := by
  cases ha : s.shared? a with
  | none => simp [State.linkOf, ha] at h
  | some sh => exact ⟨sh, rfl, by simpa [State.linkOf, ha] using h⟩

theorem State.putLink_eq {a : AgentId} {sh : Shared} (l : List Nat) (h : s.shared? a = some sh) :
    s.putLink a l = s.putShared a { sh with link := l } := by
  simp [State.putLink, h]

@[simp] theorem State.putLink_cfg (s : State) (a : AgentId) (l : List Nat) :
    (s.putLink a l).cfg = s.cfg := by
  unfold State.putLink; split <;> simp
@[simp] theorem State.putLink_cur (s : State) (a : AgentId) (l : List Nat) :
    (s.putLink a l).cur = s.cur := by
  unfold State.putLink; split <;> simp

/-- The downstream agent of an agent of the ring is one of the ring (R328). -/
theorem State.shared?_downstream {a : AgentId} {sh : Shared} (h : s.shared? a = some sh) :
    ∃ d, s.shared? (downstream s.nodes.length a) = some d := by
  cases a with
  | coordinator =>
    simp only [downstream]
    split
    case isTrue => exact ⟨_, rfl⟩
    case isFalse hn =>
      have : 0 < s.nodes.length := by omega
      exact ⟨s.nodes[0].sh, by simp [List.getElem?_eq_getElem this]⟩
  | node i =>
    simp only [downstream]
    split
    case isTrue hi => exact ⟨s.nodes[i + 1].sh, by simp [List.getElem?_eq_getElem hi]⟩
    case isFalse => exact ⟨_, rfl⟩

theorem State.risingEdge_eq {a : AgentId} {d : Shared}
    (h : s.shared? (downstream s.nodes.length a) = some d) :
    s.risingEdge a = s.putShared (downstream s.nodes.length a) (d.setCounter 0) := by
  simp [State.risingEdge, h]

@[simp] theorem State.risingEdge_cfg (s : State) (a : AgentId) : (s.risingEdge a).cfg = s.cfg := by
  unfold State.risingEdge; split <;> simp
@[simp] theorem State.risingEdge_now (s : State) (a : AgentId) : (s.risingEdge a).now = s.now := by
  unfold State.risingEdge; split <;> simp
@[simp] theorem State.risingEdge_cur (s : State) (a : AgentId) : (s.risingEdge a).cur = s.cur := by
  unfold State.risingEdge; split <;> simp
@[simp] theorem State.risingEdge_ctx (s : State) (a : AgentId) : (s.risingEdge a).ctx = s.ctx := by
  unfold State.risingEdge; split <;> simp
@[simp] theorem State.risingEdge_script (s : State) (a : AgentId) :
    (s.risingEdge a).script = s.script := by
  unfold State.risingEdge; split <;> simp
@[simp] theorem State.risingEdge_draws (s : State) (a : AgentId) :
    (s.risingEdge a).draws = s.draws := by
  unfold State.risingEdge; split <;> simp
@[simp] theorem State.risingEdge_nodes_length (s : State) (a : AgentId) :
    (s.risingEdge a).nodes.length = s.nodes.length := by
  unfold State.risingEdge; split <;> simp

/-- TX_EXPIRY once more, in one line: it runs on an armed agent, whose record takes the expiry (R145);
and where that makes the line rise, the downstream agent's capture counter restarts at 0 (R170). -/
theorem execTxExpiry_next (h : execTxExpiry s = .next t) :
    ∃ sh, s.sharedReady .txi sh ∧ sh.tx.armed = true ∧
      ((risesTo sh (txExpiry s.cfg sh) = false ∧
          t = s.putShared s.cur (txExpiry s.cfg sh)) ∨
        (risesTo sh (txExpiry s.cfg sh) = true ∧ ∃ d,
          (s.putShared s.cur (txExpiry s.cfg sh)).shared? (downstream s.nodes.length s.cur) =
            some d ∧
          t = (s.putShared s.cur (txExpiry s.cfg sh)).putShared (downstream s.nodes.length s.cur)
            (d.setCounter 0))) := by
  obtain ⟨sh, hr, hk⟩ := withShared_next h
  refine ⟨sh, hr, ?_⟩
  cases ha : sh.tx.armed <;> simp only [ha, Bool.false_eq_true, ↓reduceIte, reduceCtorEq] at hk
  refine ⟨rfl, ?_⟩
  cases he : risesTo sh (txExpiry s.cfg sh) <;>
    simp only [he, Bool.false_eq_true, ↓reduceIte, Host.Outcome.next.injEq] at hk
  · exact .inl ⟨rfl, hk.symm⟩
  · obtain ⟨d, hd⟩ := State.shared?_downstream
      (State.shared?_putShared_self (txExpiry s.cfg sh) hr.2.1)
    rw [State.risingEdge_eq hd] at hk
    rw [State.putShared_nodes_length] at hd hk
    exact .inr ⟨rfl, d, hd, hk.symm⟩

/-- RX_CAPTURE once more, in one line: when it answers a next state, the step was one of RXI on an
agent that has not halted, the upstream link held the pulse `w` in front, `w` can give the value,
and the pulse moved from that link into the agent's RX codec (R172, R330). -/
theorem execRxCapture_next {value : Nat} (h : execRxCapture value s = .next t) :
    ∃ sh up w rest sh', s.sharedReady .rxi sh ∧ s.shared? (s.upstreamOf s.cur) = some up ∧
      up.link = w :: rest ∧ captureLow s.cfg w ≤ value ∧ value ≤ captureHigh s.cfg w ∧
      (s.putShared (s.upstreamOf s.cur) { up with link := rest }).shared? s.cur = some sh' ∧
      t = (s.putShared (s.upstreamOf s.cur) { up with link := rest }).putShared s.cur
        (rxCapture s.cfg value sh') := by
  obtain ⟨sh, hr, hk⟩ := withShared_next h
  simp only at hk
  split at hk
  case h_1 => cases hk
  case h_2 w rest hl =>
    obtain ⟨up, hu, hul⟩ := State.shared?_of_linkOf hl
    split at hk
    case isFalse => cases hk
    case isTrue hv =>
      rw [State.putLink_eq rest hu] at hk
      split at hk
      case h_2 => cases hk
      case h_1 sh' hs' =>
        refine ⟨sh, up, w, rest, sh', hr, hu, hul, hv.1, hv.2, hs', ?_⟩
        simpa [eq_comm] using hk

/-! ### The TX codec (40_tx_codec.md) -/

/-- Everything TX_SCHEDULE can do (R140). -/
theorem txSchedule_cases (cfg : Config) (level : Level) (dur : Nat) (sh : Shared) :
    (sh.tx.bulkOpen = true ∧ txSchedule cfg level dur sh = sh.raise .bulkMisuse) ∨
    (sh.tx.bulkOpen = false ∧ durationOk cfg dur = false ∧
      txSchedule cfg level dur sh = sh.raise .badDuration) ∨
    (sh.tx.bulkOpen = false ∧ durationOk cfg dur = true ∧
      sh.tx.rb.size + sh.tx.pending = cfg.txCap ∧
      txSchedule cfg level dur sh = sh.raise .txOverflow) ∨
    (sh.tx.bulkOpen = false ∧ durationOk cfg dur = true ∧ ∃ rb,
      sh.tx.rb.push cfg.txCap sh.tx.pending ⟨level, dur⟩ = some rb ∧
      txSchedule cfg level dur sh = { sh with tx := { sh.tx with rb := rb, armed := true } }) := by
  unfold txSchedule
  cases hb : sh.tx.bulkOpen <;> cases hd : durationOk cfg dur <;> simp only [Bool.false_eq_true,
    ↓reduceIte, Bool.not_true, Bool.not_false, true_and, false_and, or_false, false_or, and_self,
    reduceCtorEq]
  cases hp : sh.tx.rb.push cfg.txCap sh.tx.pending ⟨level, dur⟩ with
  | none => exact .inl ⟨Ring.push_eq_none.mp hp, rfl⟩
  | some rb =>
    refine .inr ⟨rb, rfl, ?_⟩
    cases ha : sh.tx.armed <;> simp [arm]

/-- Everything TX_BULK_SCHEDULE can do (R142). -/
theorem txBulkSchedule_cases (cfg : Config) (level : Level) (dur : Nat) (sh : Shared) :
    (sh.tx.bulkOpen = false ∧ txBulkSchedule cfg level dur sh = sh.raise .bulkMisuse) ∨
    (sh.tx.bulkOpen = true ∧ durationOk cfg dur = false ∧
      txBulkSchedule cfg level dur sh = sh.raise .badDuration) ∨
    (sh.tx.bulkOpen = true ∧ durationOk cfg dur = true ∧
      sh.tx.rb.size + sh.tx.pending = cfg.txCap ∧
      txBulkSchedule cfg level dur sh = sh.raise .txOverflow) ∨
    (sh.tx.bulkOpen = true ∧ durationOk cfg dur = true ∧
      sh.tx.rb.size + sh.tx.pending ≠ cfg.txCap ∧
      txBulkSchedule cfg level dur sh =
        { sh with
          tx :=
            { sh.tx with
              rb := sh.tx.rb.write cfg.txCap ⟨level, dur⟩, pending := sh.tx.pending + 1 } }) := by
  unfold txBulkSchedule
  cases hb : sh.tx.bulkOpen <;> cases hd : durationOk cfg dur <;> simp only [Bool.false_eq_true,
    ↓reduceIte, Bool.not_true, Bool.not_false, true_and, false_and, or_false, false_or, and_self,
    reduceCtorEq]
  by_cases hf : sh.tx.rb.size + sh.tx.pending = cfg.txCap <;> simp [hf]

/-- TX_BULK_END on an open bulk (R143). -/
theorem txBulkEnd_open {sh : Shared} (h : sh.tx.bulkOpen = true) :
    txBulkEnd sh =
      { sh with
        tx :=
          { sh.tx with
            rb := { sh.tx.rb with size := sh.tx.rb.size + sh.tx.pending }
            pending := 0
            bulkOpen := false
            armed := sh.tx.armed || decide (0 < sh.tx.rb.size + sh.tx.pending) } } := by
  unfold txBulkEnd
  by_cases hp : 0 < sh.tx.rb.size + sh.tx.pending <;> cases ha : sh.tx.armed <;>
    simp [h, hp, arm, ha]

/-- TX_EXPIRY on a ring that is not empty (R145). -/
theorem txExpiry_pop (cfg : Config) {sh : Shared} (h : 0 < sh.tx.rb.size) :
    txExpiry cfg sh =
      { sh with
        tx :=
          { sh.tx with
            rb := sh.tx.rb.pop cfg.txCap
            pin := (txFront sh.tx.rb).level
            reload := (txFront sh.tx.rb).dur
            highAcc :=
              if (txFront sh.tx.rb).level then
                (if sh.tx.pin then sh.tx.highAcc else 0) + (txFront sh.tx.rb).dur
              else if sh.tx.pin then 0 else sh.tx.highAcc }
        link := if sh.tx.pin && !(txFront sh.tx.rb).level then sh.link ++ [sh.tx.highAcc]
          else sh.link } := by
  have ha : sh.tx.rb.avail = true := by simpa [Ring.avail] using h
  cases hp : sh.tx.pin <;> cases hl : (txFront sh.tx.rb).level <;>
    simp [txExpiry, drivePin, ha, hp, hl, Shared.emitPulse]

/-- TX_EXPIRY on an empty ring (R145). -/
theorem txExpiry_idle (cfg : Config) {sh : Shared} (h : sh.tx.rb.size = 0) :
    txExpiry cfg sh =
      { sh with
        tx :=
          { sh.tx with
            pin := false, armed := false,
            highAcc := if sh.tx.pin then 0 else sh.tx.highAcc }
        link := if sh.tx.pin then sh.link ++ [sh.tx.highAcc] else sh.link } := by
  have ha : sh.tx.rb.avail = false := by simp [Ring.avail, h]
  cases hp : sh.tx.pin <;> simp [txExpiry, goIdle, ha, hp, Shared.emitPulse]

/-! ### Frames of the codec operations -/

/-- The TX operations of the main line touch the TX codec and the fault record alone. -/
def TxFrame (a b : Shared) : Prop := b.rx = a.rx ∧ b.link = a.link ∧ b.ret = a.ret

theorem TxFrame.refl (a : Shared) : TxFrame a a := ⟨rfl, rfl, rfl⟩

theorem TxFrame.trans {a b c : Shared} (h : TxFrame a b) (k : TxFrame b c) : TxFrame a c :=
  ⟨k.1.trans h.1, k.2.1.trans h.2.1, k.2.2.trans h.2.2⟩

theorem txBulkBegin_frame (sh : Shared) : TxFrame sh (txBulkBegin sh) := by
  unfold txBulkBegin; split <;> exact ⟨rfl, rfl, rfl⟩

theorem txBulkSchedule_frame (cfg : Config) (l : Level) (d : Nat) (sh : Shared) :
    TxFrame sh (txBulkSchedule cfg l d sh) := by
  obtain ⟨-, h⟩ | ⟨-, -, h⟩ | ⟨-, -, -, h⟩ | ⟨-, -, -, h⟩ := txBulkSchedule_cases cfg l d sh <;>
    rw [h] <;> exact ⟨rfl, rfl, rfl⟩

theorem txBulkEnd_frame (sh : Shared) : TxFrame sh (txBulkEnd sh) := by
  cases h : sh.tx.bulkOpen with
  | false => simp only [txBulkEnd, h, Bool.not_false, ↓reduceIte]; exact ⟨rfl, rfl, rfl⟩
  | true => rw [txBulkEnd_open h]; exact ⟨rfl, rfl, rfl⟩

theorem sendPairs_frame (cfg : Config) (ps : List TxPair) (sh : Shared) :
    TxFrame sh (sendPairs cfg ps sh) := by
  refine TxFrame.trans ?_ (txBulkEnd_frame _)
  have key : ∀ (l : List TxPair) (a b : Shared), TxFrame a b →
      TxFrame a (l.foldl (fun x p => txBulkSchedule cfg p.level p.dur x) b) := by
    intro l
    induction l with
    | nil => intro a b h; exact h
    | cons p l ih => intro a b h; exact ih a _ (h.trans (txBulkSchedule_frame cfg _ _ b))
  exact key ps sh _ (txBulkBegin_frame sh)

@[simp] theorem sendPairs_rx (cfg : Config) (ps : List TxPair) (sh : Shared) :
    (sendPairs cfg ps sh).rx = sh.rx := (sendPairs_frame cfg ps sh).1
@[simp] theorem sendPairs_link (cfg : Config) (ps : List TxPair) (sh : Shared) :
    (sendPairs cfg ps sh).link = sh.link := (sendPairs_frame cfg ps sh).2.1
@[simp] theorem sendPairs_ret (cfg : Config) (ps : List TxPair) (sh : Shared) :
    (sendPairs cfg ps sh).ret = sh.ret := (sendPairs_frame cfg ps sh).2.2
@[simp] theorem sendBits_rx (cfg : Config) (bs : List Bit) (sh : Shared) :
    (sendBits cfg bs sh).rx = sh.rx := sendPairs_rx ..
@[simp] theorem sendBits_link (cfg : Config) (bs : List Bit) (sh : Shared) :
    (sendBits cfg bs sh).link = sh.link := sendPairs_link ..
@[simp] theorem sendBits_ret (cfg : Config) (bs : List Bit) (sh : Shared) :
    (sendBits cfg bs sh).ret = sh.ret := sendPairs_ret ..
@[simp] theorem sendReset_rx (cfg : Config) (sh : Shared) :
    (sendReset cfg sh).rx = sh.rx := sendPairs_rx ..
@[simp] theorem sendReset_link (cfg : Config) (sh : Shared) :
    (sendReset cfg sh).link = sh.link := sendPairs_link ..
@[simp] theorem sendReset_ret (cfg : Config) (sh : Shared) :
    (sendReset cfg sh).ret = sh.ret := sendPairs_ret ..
@[simp] theorem sendFrameStart_rx (cfg : Config) (sh : Shared) :
    (sendFrameStart cfg sh).rx = sh.rx := sendPairs_rx ..

/-! ### The RX codec (41_rx_codec.md) -/

/-- Everything RX_CAPTURE's push can do (R172). -/
theorem rxCapture_cases (cfg : Config) (value : Nat) (sh : Shared) :
    (sh.rx.rb.size = cfg.rxCap ∧ rxCapture cfg value sh = sh.raise .rxOverflow) ∨
    (∃ rb, sh.rx.rb.push cfg.rxCap 0 value = some rb ∧
      rxCapture cfg value sh = { sh with rx := { sh.rx with rb := rb } }) := by
  unfold rxCapture
  cases hp : sh.rx.rb.push cfg.rxCap 0 value with
  | none => exact .inl ⟨by simpa using Ring.push_eq_none.mp hp, rfl⟩
  | some rb => exact .inr ⟨rb, rfl, rfl⟩

end Sys2Proof.Machine
end

