-- ==== Sys2Proof/Laws/Invariant.lean ====
section
/-! SUPPORT. Every operation over the machine's storage keeps its canonical form: the ring invariant
R65 and the codec invariants of Safety.lean. -/

namespace Sys2Proof.Machine

variable {cfg : Config} {sh : Shared}

theorem durationOk_iff {d : Nat} : durationOk cfg d = true ↔ 1 ≤ d ∧ d < 2 ^ cfg.durBits := by
  have : 0 < 2 ^ cfg.durBits := Nat.two_pow_pos _
  simp only [durationOk, Bool.not_eq_true', Bool.or_eq_false_iff, decide_eq_false_iff_not]
  omega

theorem Shared.wf_raise (c : FaultCode) (h : sh.wf cfg) : (sh.raise c).wf cfg := h

theorem Shared.wf_answer (r : Result) (h : sh.wf cfg) : (sh.answer r).wf cfg := h

theorem Shared.wf_link (l : List Nat) (h : sh.wf cfg) :
    Shared.wf cfg { sh with link := l } := h

theorem Shared.wf_setCounter {x : Nat} (hx : x < 2 ^ cfg.capBits) (h : sh.wf cfg) :
    (sh.setCounter x).wf cfg :=
  ⟨h.1, h.2.1, h.2.2.1, hx⟩

theorem txSchedule_wf (l : Level) (d : Nat) (h : sh.wf cfg) : (txSchedule cfg l d sh).wf cfg := by
  obtain ⟨-, e⟩ | ⟨-, -, e⟩ | ⟨-, -, -, e⟩ | ⟨hb, hd, rb, hp, e⟩ := txSchedule_cases cfg l d sh
  · rw [e]; exact h
  · rw [e]; exact h
  · rw [e]; exact h
  · rw [e]
    obtain ⟨⟨hr, hbp, ha, hacc, hent, hrel⟩, hrx⟩ := h
    have hp0 := hbp hb
    rw [hp0] at hp hr hent
    refine ⟨⟨?_, hbp, by simp, hacc, ?_, hrel⟩, hrx⟩
    · simpa [hp0] using Ring.wf_push hr hp
    · simp only [hp0, Nat.add_zero] at hent ⊢
      rw [Ring.entries_push _ hr hp]
      intro p hmem
      obtain hmem | hmem := List.mem_append.mp hmem
      · exact hent p hmem
      · simp only [List.mem_singleton] at hmem; subst hmem; exact hd

theorem txBulkBegin_wf (h : sh.wf cfg) : (txBulkBegin sh).wf cfg := by
  unfold txBulkBegin
  cases hb : sh.tx.bulkOpen with
  | true => exact Shared.wf_raise _ h
  | false =>
    obtain ⟨⟨hr, hbp, ha, hacc, hent, hrel⟩, hrx⟩ := h
    have hp0 := hbp hb
    simp only [Bool.false_eq_true, ↓reduceIte]
    rw [hp0] at hr hent
    exact ⟨⟨hr, fun _ => rfl, ha, hacc, hent, hrel⟩, hrx⟩

theorem txBulkSchedule_wf (l : Level) (d : Nat) (h : sh.wf cfg) :
    (txBulkSchedule cfg l d sh).wf cfg := by
  obtain ⟨-, e⟩ | ⟨-, -, e⟩ | ⟨-, -, -, e⟩ | ⟨hb, hd, hn, e⟩ := txBulkSchedule_cases cfg l d sh
  · rw [e]; exact h
  · rw [e]; exact h
  · rw [e]; exact h
  · rw [e]
    obtain ⟨⟨hr, hbp, ha, hacc, hent, hrel⟩, hrx⟩ := h
    refine ⟨⟨Ring.wf_write _ hr hn, by simp [hb], ha, hacc, ?_, hrel⟩, hrx⟩
    obtain ⟨hl, hh, hc, ht⟩ := hr
    intro p hmem
    have hw := Ring.entries_write (k := sh.tx.rb.size + sh.tx.pending) ⟨false, 0⟩
      (⟨l, d⟩ : TxPair) hl (by omega) (by simpa [Nat.add_assoc] using ht)
    change p ∈ (sh.tx.rb.write cfg.txCap ⟨l, d⟩).entries cfg.txCap
      (sh.tx.rb.size + (sh.tx.pending + 1)) ⟨false, 0⟩ at hmem
    rw [← Nat.add_assoc, hw] at hmem
    obtain hmem | hmem := List.mem_append.mp hmem
    · exact hent p hmem
    · simp only [List.mem_singleton] at hmem; subst hmem; exact hd

theorem txBulkEnd_wf (h : sh.wf cfg) : (txBulkEnd sh).wf cfg := by
  cases hb : sh.tx.bulkOpen with
  | false => simp only [txBulkEnd, hb, Bool.not_false, ↓reduceIte]; exact Shared.wf_raise _ h
  | true =>
    rw [txBulkEnd_open hb]
    obtain ⟨⟨hr, hbp, ha, hacc, hent, hrel⟩, hrx⟩ := h
    refine ⟨⟨Ring.wf_commit hr, fun _ => rfl, ?_, hacc, ?_, hrel⟩, hrx⟩
    · intro hf
      simp only [Bool.or_eq_false_iff, decide_eq_false_iff_not] at hf
      exact ⟨(ha hf.1).1, by simp only; omega⟩
    · simpa [Ring.entries] using hent

theorem sendPairs_wf (ps : List TxPair) (h : sh.wf cfg) : (sendPairs cfg ps sh).wf cfg := by
  refine txBulkEnd_wf ?_
  have key : ∀ (l : List TxPair) (a : Shared), a.wf cfg →
      (l.foldl (fun x p => txBulkSchedule cfg p.level p.dur x) a).wf cfg := by
    intro l
    induction l with
    | nil => intro a h; exact h
    | cons p l ih => intro a h; exact ih _ (txBulkSchedule_wf _ _ h)
  exact key ps _ (txBulkBegin_wf h)

theorem sendBits_wf (bs : List Bit) (h : sh.wf cfg) : (sendBits cfg bs sh).wf cfg :=
  sendPairs_wf _ h

theorem sendReset_wf (h : sh.wf cfg) : (sendReset cfg sh).wf cfg := sendPairs_wf _ h

theorem sendFrameStart_wf (h : sh.wf cfg) : (sendFrameStart cfg sh).wf cfg := sendPairs_wf _ h

/-- The front of a TX ring that is not empty is its first entry. -/
theorem txFront_mem_entries {k : Nat} {r : Ring TxPair} (h : r.wf cfg.txCap k) (hs : 0 < r.size)
    (d : TxPair) : txFront r ∈ r.entries cfg.txCap (r.size + k) d := by
  obtain ⟨m, hm⟩ : ∃ m, r.size + k = m + 1 := ⟨r.size + k - 1, by omega⟩
  rw [hm, Ring.entries_pop, txFront, Ring.front_eq h _ d]
  exact List.mem_cons_self

theorem txExpiry_wf (h : sh.wf cfg) : (txExpiry cfg sh).wf cfg := by
  obtain ⟨⟨hr, hbp, ha, hacc, hent, hrel⟩, hrx⟩ := h
  obtain hs | hs := Nat.eq_zero_or_pos sh.tx.rb.size
  · rw [txExpiry_idle cfg hs]
    refine ⟨⟨hr, hbp, fun _ => ⟨rfl, hs⟩, ?_, hent, hrel⟩, hrx⟩
    intro _
    cases hp : sh.tx.pin
    · simpa using hacc hp
    · rfl
  · rw [txExpiry_pop cfg hs]
    have hfront := hent _ (txFront_mem_entries hr hs _)
    refine ⟨⟨Ring.wf_pop hr hs, hbp, ?_, ?_, ?_, (durationOk_iff.mp hfront).2⟩, hrx⟩
    · intro hf
      have := (ha hf).2
      omega
    · intro hl
      have hl : (txFront sh.tx.rb).level = false := hl
      cases hp : sh.tx.pin
      · simpa [hl] using hacc hp
      · simp [hl]
    · intro p hmem
      refine hent p ?_
      obtain ⟨m, hm⟩ : ∃ m, sh.tx.rb.size + sh.tx.pending = m + 1 :=
        ⟨sh.tx.rb.size + sh.tx.pending - 1, by omega⟩
      have hk : (sh.tx.rb.pop cfg.txCap).size + sh.tx.pending = m := by
        simp only [Ring.pop]; omega
      change p ∈ (sh.tx.rb.pop cfg.txCap).entries cfg.txCap
        ((sh.tx.rb.pop cfg.txCap).size + sh.tx.pending) ⟨false, 0⟩ at hmem
      rw [hk] at hmem
      rw [hm, Ring.entries_pop]
      exact List.mem_cons_of_mem _ hmem

theorem rxCapture_wf {value : Nat} (hv : value < 2 ^ cfg.capBits) (h : sh.wf cfg) :
    (rxCapture cfg value sh).wf cfg := by
  obtain ⟨htx, hr, hent, hcnt⟩ := h
  obtain ⟨-, e⟩ | ⟨rb, hp, e⟩ := rxCapture_cases cfg value sh
  · rw [e]; exact ⟨htx, hr, hent, hcnt⟩
  · rw [e]
    refine ⟨htx, Ring.wf_push hr hp, ?_, hcnt⟩
    intro v hmem
    rw [Ring.entries_push _ hr hp] at hmem
    obtain hmem | hmem := List.mem_append.mp hmem
    · exact hent v hmem
    · simp only [List.mem_singleton] at hmem; omega

theorem rxTake_wf (hs : 0 < sh.rx.rb.size) (h : sh.wf cfg) : (rxTake cfg sh).2.wf cfg := by
  obtain ⟨htx, hr, hent, hcnt⟩ := h
  refine ⟨htx, Ring.wf_pop hr hs, ?_, hcnt⟩
  intro v hmem
  refine hent v ?_
  obtain ⟨m, hm⟩ : ∃ m, sh.rx.rb.size = m + 1 := ⟨sh.rx.rb.size - 1, by omega⟩
  have hk : (sh.rx.rb.pop cfg.rxCap).size = m := by simp only [Ring.pop]; omega
  change v ∈ (sh.rx.rb.pop cfg.rxCap).entries cfg.rxCap (sh.rx.rb.pop cfg.rxCap).size 0 at hmem
  rw [hk] at hmem
  rw [hm, Ring.entries_pop]
  exact List.mem_cons_of_mem _ hmem

theorem rxReceiveBit_wf (h : sh.wf cfg) : (rxReceiveBit cfg sh).wf cfg := by
  unfold rxReceiveBit
  split
  · exact h
  · exact rxTake_wf (by omega) h

/-- The storage of every agent at power-on is in canonical form (R350). -/
theorem Shared.wf_powerOn (h : configOk cfg = true) : (Shared.powerOn cfg).wf cfg := by
  simp only [configOk, decide_eq_true_eq] at h
  obtain ⟨h1, h2, -, -⟩ := h
  have htx : 0 < cfg.txCap := by omega
  refine ⟨⟨Ring.wf_empty htx _, fun _ => rfl, fun _ => ⟨rfl, rfl⟩, fun _ => rfl, ?_,
    Nat.two_pow_pos _⟩, Ring.wf_empty (by omega) _, ?_, Nat.two_pow_pos _⟩
  · simp [Shared.powerOn, Ring.empty]
  · simp [Shared.powerOn, Ring.empty]

end Sys2Proof.Machine
end

