-- ==== Sys2Proof/Laws/Schedule.lean ====
section
/-! SUPPORT. The capture counters between the steps (R170, R325): what their running on leaves alone. -/

namespace Sys2Proof.Machine

@[simp] theorem runCounters_cfg (s : State) : (runCounters s).cfg = s.cfg := rfl
@[simp] theorem runCounters_now (s : State) : (runCounters s).now = s.now := rfl
@[simp] theorem runCounters_cur (s : State) : (runCounters s).cur = s.cur := rfl
@[simp] theorem runCounters_ctx (s : State) : (runCounters s).ctx = s.ctx := rfl
@[simp] theorem runCounters_script (s : State) : (runCounters s).script = s.script := rfl

@[simp] theorem clockAdvance_now (d : Nat) (s : State) : (clockAdvance d s).now = s.now + d := rfl
@[simp] theorem clockAdvance_cfg (d : Nat) (s : State) : (clockAdvance d s).cfg = s.cfg := rfl
@[simp] theorem clockAdvance_coord (d : Nat) (s : State) : (clockAdvance d s).coord = s.coord := rfl
@[simp] theorem clockAdvance_nodes (d : Nat) (s : State) : (clockAdvance d s).nodes = s.nodes := rfl
@[simp] theorem clockAdvance_script (d : Nat) (s : State) :
    (clockAdvance d s).script = s.script := rfl

/-- A counter that runs on is the only field that changes. -/
theorem freeCounter_eq (cfg : Config) (x : Nat) (sh : Shared) :
    ∃ y < 2 ^ cfg.capBits, freeCounter cfg x sh = sh.setCounter y :=
  ⟨_, Nat.mod_lt _ (Nat.two_pow_pos _), rfl⟩

@[simp] theorem freeNodeCounters_length (cfg : Config) (x : Nat) (ns : List NodeRec) :
    (freeNodeCounters cfg x ns).length = ns.length := by
  induction ns generalizing x with
  | nil => rfl
  | cons n ns ih => simp [freeNodeCounters, ih]

theorem freeNodeCounters_getElem? (cfg : Config) (x : Nat) (ns : List NodeRec) (i : Nat) :
    (freeNodeCounters cfg x ns)[i]? =
      (ns[i]?).map fun n => { n with sh := freeCounter cfg (x + i) n.sh } := by
  induction ns generalizing x i with
  | nil => rfl
  | cons n ns ih =>
    cases i with
    | zero => rfl
    | succ i => simp [freeNodeCounters, ih, Nat.add_assoc, Nat.add_comm 1 i]

/-- All that the running on of the counters can do. -/
theorem runCounters_ranTo (s : State) : s.countersRanTo (runCounters s) := by
  refine ⟨rfl, freeNodeCounters_length .., ?_, ?_⟩
  · obtain ⟨y, hy, e⟩ := freeCounter_eq s.cfg s.draws s.coord.sh
    exact ⟨y, hy, by simp [runCounters, e]⟩
  · intro i n hn
    obtain ⟨y, hy, e⟩ := freeCounter_eq s.cfg (s.draws + 1 + i) n.sh
    exact ⟨y, hy, by simp [runCounters, freeNodeCounters_getElem?, hn, e]⟩

/-- The record of an agent after the counters have run on. -/
theorem State.countersRanTo.shared? {s r : State} (h : s.countersRanTo r) {a : AgentId} {sh : Shared}
    (ha : s.shared? a = some sh) :
    ∃ y < 2 ^ s.cfg.capBits, r.shared? a = some (sh.setCounter y) := by
  obtain ⟨-, -, ⟨y, hy, hc⟩, hn⟩ := h
  cases a with
  | coordinator =>
    cases ha
    exact ⟨y, hy, by simp [hc]⟩
  | node i =>
    simp only [State.shared?_node, Option.map_eq_some_iff] at ha
    obtain ⟨n, hi, rfl⟩ := ha
    obtain ⟨z, hz, hr⟩ := hn i n hi
    exact ⟨z, hz, by simp [hr]⟩

/-- The ring has an agent after the counters have run on only if it had it before. -/
theorem State.countersRanTo.shared?_none {s r : State} (h : s.countersRanTo r) {a : AgentId}
    (ha : s.shared? a = none) : r.shared? a = none := by
  cases a with
  | coordinator => cases ha
  | node i =>
    simp only [State.shared?_node, Option.map_eq_none_iff, List.getElem?_eq_none_iff] at ha ⊢
    rw [h.2.1]; exact ha

/-- The running on of the counters keeps the machine's invariant. -/
theorem State.Inv_runCounters {s : State} (h : s.Inv) : (runCounters s).Inv := by
  obtain ⟨hc, ⟨hsh, hau, hb⟩, hn⟩ := h
  obtain ⟨-, -, ⟨y, hy, e⟩, hr⟩ := runCounters_ranTo s
  refine ⟨hc, ?_, ?_⟩
  · rw [e]; exact ⟨Shared.wf_setCounter hy hsh, hau, hb⟩
  · intro m hm
    obtain ⟨i, hi⟩ := List.mem_iff_getElem?.mp hm
    have hlen : i < s.nodes.length := by
      have := (List.getElem?_eq_some_iff.mp hi).1
      simpa [runCounters] using this
    obtain ⟨z, hz, e'⟩ := hr i _ (List.getElem?_eq_getElem hlen)
    rw [e'] at hi
    cases hi
    have hw := hn _ (List.getElem_mem hlen)
    exact ⟨Shared.wf_setCounter hz hw.1, hw.2⟩

/-- A placed step: the counters have run on, and the rest of the script is left. -/
theorem step_placed {s : State} {e : Event} {rest : List Event} (hc : configOk s.cfg = true)
    (h : s.script = e :: rest) :
    step s = runEvent e { runCounters s with script := rest } := by
  simp [step, stepSystem, hc, h]

/-- What `State.takenOp` names is what the step takes: a clock advance, or the operation of the agent, in
some context; the counters have run on before it. -/
theorem step_taken {s t : State} (h : step s = .next t) :
    (s.takenOp = none ∧ ∃ d x es,
      t = { runCounters s with now := s.now + d, draws := x, script := es }) ∨
    ∃ a i ctx x es, s.takenOp = some (a, i) ∧
      exec i { runCounters s with cur := a, ctx := ctx, draws := x, script := es } = .next t := by
  unfold step stepSystem at h
  split at h
  case isFalse => cases h
  case isTrue =>
    split at h
    case h_1 hs =>
      simp only [State.takenOp, hs, runFree] at h ⊢
      generalize pickStep (runCounters s) = p at h ⊢
      cases p with
      | clock => cases h; exact .inl ⟨rfl, _, _, _, rfl⟩
      | mainLine a => exact .inr ⟨_, _, .main, _, _, rfl, h⟩
      | txExpiry a => exact .inr ⟨_, _, .txi, _, _, rfl, h⟩
      | rxCapture a => exact .inr ⟨_, _, .rxi, _, _, rfl, h⟩
    case h_2 e rest hs =>
      cases e with
      | clockAdvance d => cases h; exact .inl ⟨by simp [State.takenOp, hs], _, _, _, rfl⟩
      | op a ctx w =>
        simp only [runEvent] at h
        split at h
        case h_1 i hd => exact .inr ⟨a, i, ctx, _, _, by simp [State.takenOp, hs, hd], h⟩
        case h_2 => cases h

/-- A step with nothing placed. -/
theorem step_free {s : State} (hc : configOk s.cfg = true) (h : s.script = []) :
    step s = runFree (runCounters s) := by
  simp [step, stepSystem, hc, h]

end Sys2Proof.Machine
end

