-- ==== Sys2Proof/Certificates/Slice0/Obligations.lean ====
section
/-! DEFINITION. The statements about the machine, each from numbered rules of the spec. Every statement
holds for every configuration, every number of nodes and every state that meets its hypotheses. -/

open Sys2Proof Sys2Proof.Machine

/-! ### Encodings (30_encoding.md) -/

/-- R112, R114: the written form of an operation spells that operation and no other, whatever its
arguments, and every word that spells one is its written form. -/
def Obligations.DecodeAndEncodeAgree : Prop :=
  (∀ i : Instr, decode (encode i) = .ok i) ∧
  ∀ (w : OpWord) (i : Instr), decode w = .ok i → encode i = w

/-- R115: every selector that the map does not list is refused and no step is taken for it; every word
that spells an operation is a listed selector with the argument tuple of its format. -/
def Obligations.ReservedSelectorsSpellNoOperation : Prop :=
  (∀ w : OpWord, rowOf w.op = none → decode w = .error (.reservedSelector w.op)) ∧
  (∀ (s : State) (a : AgentId) (ctx : Context) (w : OpWord) (rest : List Event),
    configOk s.cfg = true → s.script = .op a ctx w :: rest → rowOf w.op = none →
    step s = .refused (.undecodable (.reservedSelector w.op))) ∧
  (∀ (w : OpWord) (i : Instr), decode w = .ok i →
    ∃ row, rowOf w.op = some row ∧ w.args.length = formatArity row.format ∧
      row.ctx = contextOf i ∧ row.agent = agentKindOf i)

/-- R114, R108, R112: words written out from the operation map decode to the operations they stand
for (the spec's own DE-5 and DE-6 among them). -/
def Obligations.SampleWordsDecode : Prop :=
  decode ⟨0x01, [1, 24]⟩ = .ok (.txSchedule true 24) ∧
  decode ⟨0x10, [23]⟩ = .ok (.rxCapture 23) ∧
  decode ⟨0x20, [2, 40]⟩ = .ok (.nodeStep .reset 40) ∧
  decode ⟨0x30, [1]⟩ = .ok (.coordFeed true) ∧
  decode ⟨0x41, [1200]⟩ = .ok (.wdPoll 1200) ∧
  decode ⟨0x50, [3]⟩ = .ok (.dbPublish 3)

/-! ### Steps, configuration and scheduling (R6, R318, R321, R333) -/

/-- R64, R321: when the next placed step is an operation whose word spells `i`, the step is `i`, taken
by the placed agent in the placed context with the rest of the script left; nothing else is added, but
that the capture counters have run on since the step before (R170, log entry 11). -/
def Obligations.StepRunsThePlacedOperation : Prop :=
  ∀ (s : State) (a : AgentId) (ctx : Context) (w : OpWord) (i : Instr) (rest : List Event),
    configOk s.cfg = true → s.script = .op a ctx w :: rest → decode w = .ok i →
    ∃ r, s.countersRanTo r ∧ step s = exec i { r with script := rest, cur := a, ctx := ctx }

/-- R318: a configuration that breaks R6 has no initial state and no step, and no operation raises
BAD_CONFIG. -/
def Obligations.BadConfigurationHasNoStep : Prop :=
  (∀ (cfg : Config) (n clock : Nat), configOk cfg = false →
    instantiate cfg n clock = .refused .badConfig) ∧
  (∀ s : State, configOk s.cfg = false → step s = .refused .badConfig) ∧
  (∀ (i : Instr) (s : State), exec i s ≠ .refused .badConfig)

/-- R321: the enabled steps are the clock advance, the main line of every agent of the ring that has
not halted (R316), its TX_EXPIRY while it is armed (R313) and its RX_CAPTURE while its upstream link
holds a pulse (R314), and no other. Each of them can be taken and answers a next state: the
coordinator's main line is WD_INIT once and then WD_POLL, the node's NODE_POLL, with the clock's value
(R128, R33, log entries 14 and 15). With nothing placed, the step is the one of them that the draw
numbers, any of them by R321; the draw is the model's reading (log entry 5). -/
def Obligations.FreeStepTakesAnEnabledStep : Prop :=
  (∀ s : State,
    Pick.clock ∈ enabledPicks s ∧
    (∀ a, Pick.mainLine a ∈ enabledPicks s ↔
      ∃ sh, s.shared? a = some sh ∧ sh.faults.halted = false) ∧
    (∀ a, Pick.txExpiry a ∈ enabledPicks s ↔
      ∃ sh, s.shared? a = some sh ∧ sh.faults.halted = false ∧ sh.tx.armed = true) ∧
    (∀ a, Pick.rxCapture a ∈ enabledPicks s ↔
      ∃ sh, s.shared? a = some sh ∧ sh.faults.halted = false ∧
        s.linkOf (s.upstreamOf a) ≠ []) ∧
    ∀ p ∈ enabledPicks s, ∃ t, runPick p s = .next t ∧
      match p with
      | .clock => ∃ d, t = { s with now := s.now + d, draws := s.draws + 1 }
      | .mainLine .coordinator =>
        exec (if s.coord.started = true then .wdPoll s.now else .wdInit s.now)
          { s with cur := .coordinator, ctx := .main } = .next t
      | .mainLine (.node i) =>
        exec (.nodePoll s.now) { s with cur := .node i, ctx := .main } = .next t
      | .txExpiry a => exec .txExpiry { s with cur := a, ctx := .txi } = .next t
      | .rxCapture a =>
        ∃ v, exec (.rxCapture v) { s with cur := a, ctx := .rxi, draws := s.draws + 1 } =
          .next t) ∧
  ∀ s : State, configOk s.cfg = true → s.script = [] →
    ∃ r p t, s.countersRanTo r ∧
      (enabledPicks s)[Config.draw r.draws % (enabledPicks s).length]? = some p ∧
      step s = runPick p { r with draws := r.draws + 1 } ∧ step s = .next t

/-- R333: the placed clock advance adds `d` to the clock. Everything else stays, but for the capture
counters, which run freely (R170, R325, log entry 11), and the count of free values. -/
def Obligations.ClockAdvanceMovesOnlyTheClock : Prop :=
  ∀ (s : State) (d : Nat) (rest : List Event),
    configOk s.cfg = true → s.script = .clockAdvance d :: rest →
    ∃ t, step s = .next t ∧ State.countersRanTo { s with now := s.now + d, script := rest } t

/-- R33: the clock never decreases, and only the environment's step advances it; the configuration
and the ring's agents are fixed for a run (R6, R328). -/
def Obligations.ClockIsMonotonic : Prop :=
  (∀ s t : State, step s = .next t →
    s.now ≤ t.now ∧ t.cfg = s.cfg ∧ t.nodes.length = s.nodes.length) ∧
  ∀ (i : Instr) (s t : State), exec i s = .next t → t.now = s.now

/-- R328: the wires of `n` nodes form one ring. The downstream agent of the coordinator is node 0, or
itself when there is no node; that of a node is the next node, and that of the last node is the
coordinator. The upstream agent of an agent's downstream agent is the agent itself, and the other way
round. -/
def Obligations.UpstreamInvertsDownstream : Prop :=
  downstream 0 .coordinator = .coordinator ∧
  (∀ n, 0 < n → downstream n .coordinator = .node 0 ∧
    downstream n (.node (n - 1)) = .coordinator) ∧
  (∀ n i, i + 1 < n → downstream n (.node i) = .node (i + 1)) ∧
  ∀ (n : Nat) (a : AgentId), (a = .coordinator ∨ ∃ i < n, a = .node i) →
    upstream n (downstream n a) = a ∧ downstream n (upstream n a) = a ∧
    (downstream n a = .coordinator ∨ ∃ i < n, downstream n a = .node i)

/-! ### Admission and faults (R116, R316, R31) -/

/-- R116, R311, R312: a node operation is refused on the coordinator and a coordinator operation on a
node; an interrupt event is refused from the main line; every operation runs only in the context the
operation map gives it, TX_EXPIRY in TXI while armed and RX_CAPTURE in RXI while the upstream link
holds a pulse. Which refusal is named when several hold, whatever else the state is, is the model's
choice (log entry 13). -/
def Obligations.OperationsRunOnlyWhereListed : Prop :=
  (∀ (i : Instr) (s : State), agentKindOf i = .node → s.cur = .coordinator →
    exec i s = .refused .wrongAgent) ∧
  (∀ (i : Instr) (s : State) (j : Nat), agentKindOf i = .coordinator → s.cur = .node j →
    exec i s = .refused .wrongAgent) ∧
  (∀ (i : Instr) (s : State), contextOf i ≠ .main → s.ctx = .main →
    exec i s = .refused .wrongContext) ∧
  (∀ (i : Instr) (s t : State), exec i s = .next t → s.ctx = contextOf i) ∧
  (∀ s t : State, exec .txExpiry s = .next t →
    ∃ sh, s.shared? s.cur = some sh ∧ sh.tx.armed = true) ∧
  (∀ (v : Nat) (s t : State), exec (.rxCapture v) s = .next t →
    s.linkOf (s.upstreamOf s.cur) ≠ [])

/-- R316: an agent that has recorded one of the halting codes 3, 6 and 7 takes no further step of any
context; and recording another code does not halt it. -/
def Obligations.HaltedAgentTakesNoStep : Prop :=
  (∀ (i : Instr) (s t : State) (sh : Shared) (c : FaultCode),
    s.shared? s.cur = some sh → sh.faults.has c = true →
    c = .rxEmptyRead ∨ c = .unreachableState ∨ c = .nonmonotonicClock →
    exec i s ≠ .next t) ∧
  (∀ (f : FaultSet) (c : FaultCode), f.halted = false →
    c = .txOverflow ∨ c = .rxOverflow ∨ c = .bulkMisuse ∨ c = .badDuration →
    (f.add c).halted = false)

/-- R31: the fault record is empty at reset, and no step removes a code from any agent's record. -/
def Obligations.FaultsAreNeverRemoved : Prop :=
  (∀ (cfg : Config) (n clock : Nat), (State.powerOn cfg n clock).noFault) ∧
  ∀ (s t : State) (a : AgentId) (sh : Shared), step s = .next t → s.shared? a = some sh →
    ∃ sh', t.shared? a = some sh' ∧
      ∀ c : FaultCode, sh.faults.has c = true → sh'.faults.has c = true

/-- R20, R312, R329: an operation changes the record of its own agent alone. Of another agent it can
only take, from the link that leaves it, the oldest pulse, and only as RX_CAPTURE of the agent that
link leads to; or restart its capture counter at 0, and only as TX_EXPIRY of the agent it listens to
(R170, R328, log entry 11). -/
def Obligations.AgentsMeetOnlyOnLinks : Prop :=
  ∀ (i : Instr) (s t : State), exec i s = .next t →
    (∀ (a : AgentId) (sh : Shared), a ≠ s.cur → s.shared? a = some sh →
      t.shared? a = some sh ∨
        ((∃ v, i = .rxCapture v) ∧ a = s.upstreamOf s.cur ∧
          ∃ w rest, sh.link = w :: rest ∧ t.shared? a = some { sh with link := rest }) ∨
        (i = .txExpiry ∧ a = downstream s.nodes.length s.cur ∧
          t.shared? a = some { sh with rx := { sh.rx with cnt := 0 } })) ∧
    (s.cur ≠ .coordinator → t.coord = { s.coord with sh := t.coord.sh }) ∧
    (∀ (j : Nat) (n m : NodeRec), s.cur ≠ .node j → s.nodes[j]? = some n →
      t.nodes[j]? = some m → m = { n with sh := m.sh })

/-! ### The transmit codec (40_tx_codec.md) -/

/-- R140: TX_SCHEDULE checks, in this order, an open bulk, the duration, and a full ring, each of them
a recorded fault and nothing else; otherwise the pair goes to the tail and the timer is armed. -/
def Obligations.TxScheduleResult : Prop :=
  (∀ (level : Level) (dur : Nat),
    encode (.txSchedule level dur) = ⟨0x01, [if level = true then 1 else 0, dur]⟩) ∧
  ∀ (s : State) (sh : Shared) (level : Level) (dur : Nat), s.sharedReady .main sh →
    exec (.txSchedule level dur) s = .next (s.putShared s.cur
      (if sh.tx.bulkOpen = true then { sh with faults := sh.faults.add .bulkMisuse }
      else if dur = 0 ∨ dur > 2 ^ s.cfg.durBits - 1 then
        { sh with faults := sh.faults.add .badDuration }
      else if sh.tx.rb.size + sh.tx.pending = s.cfg.txCap then
        { sh with faults := sh.faults.add .txOverflow }
      else
        { sh with
          tx :=
            { sh.tx with
              rb :=
                { sh.tx.rb with
                  slots := sh.tx.rb.slots.set sh.tx.rb.tail ⟨level, dur⟩
                  tail := (sh.tx.rb.tail + 1) % s.cfg.txCap
                  size := sh.tx.rb.size + 1 }
              armed := true } }))

/-- R141: TX_BULK_BEGIN opens a bulk with no pending pair; nesting is refused with a recorded fault
and no other effect. -/
def Obligations.TxBulkBeginResult : Prop :=
  encode .txBulkBegin = ⟨0x02, []⟩ ∧
  ∀ (s : State) (sh : Shared), s.sharedReady .main sh →
    exec .txBulkBegin s = .next (s.putShared s.cur
      (if sh.tx.bulkOpen = true then { sh with faults := sh.faults.add .bulkMisuse }
      else { sh with tx := { sh.tx with bulkOpen := true, pending := 0 } }))

/-- R142: TX_BULK_SCHEDULE writes the pair at the tail and counts it as pending; `size` is not
changed, so TX_EXPIRY does not see it. Its faults have no other effect. -/
def Obligations.TxBulkScheduleResult : Prop :=
  (∀ (level : Level) (dur : Nat),
    encode (.txBulkSchedule level dur) = ⟨0x03, [if level = true then 1 else 0, dur]⟩) ∧
  ∀ (s : State) (sh : Shared) (level : Level) (dur : Nat), s.sharedReady .main sh →
    exec (.txBulkSchedule level dur) s = .next (s.putShared s.cur
      (if sh.tx.bulkOpen = false then { sh with faults := sh.faults.add .bulkMisuse }
      else if dur = 0 ∨ dur > 2 ^ s.cfg.durBits - 1 then
        { sh with faults := sh.faults.add .badDuration }
      else if sh.tx.rb.size + sh.tx.pending = s.cfg.txCap then
        { sh with faults := sh.faults.add .txOverflow }
      else
        { sh with
          tx :=
            { sh.tx with
              rb :=
                { sh.tx.rb with
                  slots := sh.tx.rb.slots.set sh.tx.rb.tail ⟨level, dur⟩
                  tail := (sh.tx.rb.tail + 1) % s.cfg.txCap }
              pending := sh.tx.pending + 1 } }))

/-- R143: TX_BULK_END adds the pending pairs to `size` in one update, closes the bulk, and arms the
timer when the ring then holds a pair. -/
def Obligations.TxBulkEndResult : Prop :=
  encode .txBulkEnd = ⟨0x04, []⟩ ∧
  ∀ (s : State) (sh : Shared), s.sharedReady .main sh →
    exec .txBulkEnd s = .next (s.putShared s.cur
      (if sh.tx.bulkOpen = false then { sh with faults := sh.faults.add .bulkMisuse }
      else
        { sh with
          tx :=
            { sh.tx with
              rb := { sh.tx.rb with size := sh.tx.rb.size + sh.tx.pending }
              pending := 0
              bulkOpen := false
              armed := sh.tx.armed || decide (sh.tx.rb.size + sh.tx.pending > 0) } }))

/-- R145: TX_EXPIRY of an armed agent. With a pair `p` at the head: it is popped and drives the pin and
the reload value; a falling edge emits the pulse, a rising edge starts one, two high pairs add up. A
rising edge also restarts the downstream agent's capture counter at 0 (R170, R328; that this happens
within TX_EXPIRY is log entry 11), and does nothing more. With an empty ring: the line falls and the
interrupt is disabled. Without an armed timer there is no such step. -/
def Obligations.TxExpiryResult : Prop :=
  encode .txExpiry = ⟨0x05, []⟩ ∧
  (∀ (s driven : State) (sh : Shared) (p : TxPair), s.sharedReady .txi sh → sh.tx.armed = true →
    0 < sh.tx.rb.size → sh.tx.rb.slots[sh.tx.rb.head]? = some p →
    driven = s.putShared s.cur
      { sh with
        tx :=
          { sh.tx with
            rb :=
              { sh.tx.rb with
                head := (sh.tx.rb.head + 1) % s.cfg.txCap, size := sh.tx.rb.size - 1 }
            pin := p.level
            reload := p.dur
            highAcc :=
              match sh.tx.pin, p.level with
              | true, false => 0
              | false, true => p.dur
              | true, true => sh.tx.highAcc + p.dur
              | false, false => sh.tx.highAcc }
        link :=
          match sh.tx.pin, p.level with
          | true, false => sh.link ++ [sh.tx.highAcc]
          | _, _ => sh.link } →
    if sh.tx.pin = false ∧ p.level = true then
      ∃ dsh, driven.shared? (downstream s.nodes.length s.cur) = some dsh ∧
        exec .txExpiry s = .next (driven.putShared (downstream s.nodes.length s.cur)
          { dsh with rx := { dsh.rx with cnt := 0 } })
    else exec .txExpiry s = .next driven) ∧
  (∀ (s : State) (sh : Shared), s.sharedReady .txi sh → sh.tx.armed = true →
    sh.tx.rb.size = 0 →
    exec .txExpiry s = .next (s.putShared s.cur
      { sh with
        tx :=
          { sh.tx with
            pin := false
            armed := false
            highAcc := if sh.tx.pin = true then 0 else sh.tx.highAcc }
        link := if sh.tx.pin = true then sh.link ++ [sh.tx.highAcc] else sh.link })) ∧
  (∀ (s : State) (sh : Shared), s.sharedReady .txi sh → sh.tx.armed = false →
    exec .txExpiry s = .refused .notEnabled)

/-- R125, R126: issuing the expansion of a bulk operation by operation, with nothing in between, leaves
the same state as the inline expansion inside one atomic step, but for the capture counters, which run
on between the steps (R170, log entry 11). -/
def Obligations.BulkProgramEqualsInlineBulk : Prop :=
  ∀ (s : State) (a : AgentId) (sh : Shared) (ps : List TxPair), configOk s.cfg = true →
    s.shared? a = some sh → sh.faults.halted = false →
    ∃ t, runScript (issue a (bulkProgram ps)) s = .next t ∧
      State.countersRanTo
        { s.putShared a (sendPairs s.cfg ps sh) with cur := a, ctx := .main, script := [] } t

/-- R147: from an idle TX, the bits of one SEND_BITS leave as exactly one pulse each, of width `T(b)H`
in order; after the k-th pulse the line is low with `T(b_k)L` as the reload value; TX_EXPIRY runs
2m+1 times before the TX is idle again. SEND_RESET leaves as one pulse of width T_RST_H. The ring
must have room and the low periods must fit the timer, so that no fault is recorded (m is at least 1:
an empty bulk arms nothing). -/
def Obligations.WaveformLaw : Prop :=
  ∀ (s : State) (a : AgentId) (sh : Shared) (bits : List Bit),
    configOk s.cfg = true → lowsFit s.cfg → s.shared? a = some sh → sh.faults.halted = false →
    sh.wf s.cfg → sh.tx.armed = false → sh.tx.bulkOpen = false → bits ≠ [] →
    2 * bits.length ≤ s.cfg.txCap →
    (∀ (k : Nat) (b : Bit), bits[k]? = some b → ∃ t sh',
      runScript (issue a (sendBitsProgram s.cfg bits) ++ expiries a (2 * k + 2)) s = .next t ∧
      t.shared? a = some sh' ∧ sh'.tx.armed = true ∧ sh'.tx.pin = false ∧
      sh'.tx.reload = lowTime s.cfg b ∧ sh'.faults = sh.faults ∧
      sh'.link = sh.link ++ (bits.take (k + 1)).map (highTime s.cfg)) ∧
    (∃ t sh',
      runScript (issue a (sendBitsProgram s.cfg bits) ++ expiries a (2 * bits.length + 1)) s =
        .next t ∧
      t.shared? a = some sh' ∧ sh'.tx.armed = false ∧ sh'.tx.pin = false ∧
      sh'.tx.rb.size = 0 ∧ sh'.faults = sh.faults ∧
      sh'.link = sh.link ++ bits.map (highTime s.cfg)) ∧
    (∃ t sh',
      runScript (issue a (sendResetProgram s.cfg) ++ expiries a 3) s = .next t ∧
      t.shared? a = some sh' ∧ sh'.tx.armed = false ∧ sh'.faults = sh.faults ∧
      sh'.link = sh.link ++ [s.cfg.tRstH])

/-- R148: no operation other than TX_EXPIRY removes a pair from a TX ring: the pairs to be sent stay, in
their order, and new ones come behind them; and so do all entries of the ring, the pending pairs of an
open bulk among them. -/
def Obligations.ScheduledPairsAreNeverCancelled : Prop :=
  ∀ (i : Instr) (s t : State) (a : AgentId) (sh : Shared), i ≠ .txExpiry →
    exec i s = .next t → s.shared? a = some sh → sh.wf s.cfg →
    ∃ sh' more more', t.shared? a = some sh' ∧
      sh'.txQueue s.cfg = sh.txQueue s.cfg ++ more ∧ sh'.txAll s.cfg = sh.txAll s.cfg ++ more'

/-! ### The receive codec (41_rx_codec.md) -/

/-- R172, R330, R314: RX_CAPTURE removes the oldest pulse `w` from the upstream link and pushes a value
within the jitter of `w` (any counter value, when the counter may have wrapped); on a full ring the
value is lost and RX_OVERFLOW recorded. With an empty link there is no such step; that a placed value
the pulse cannot give has no step either is the model's reading (log entry 19). -/
def Obligations.RxCaptureResult : Prop :=
  (∀ value : Nat, encode (.rxCapture value) = ⟨0x10, [value]⟩) ∧
  (∀ (s : State) (sh up own : Shared) (w value : Nat) (rest : List Nat),
    s.sharedReady .rxi sh → s.shared? (s.upstreamOf s.cur) = some up → up.link = w :: rest →
    own = (if s.upstreamOf s.cur = s.cur then { sh with link := rest } else sh) →
    (if w + s.cfg.jitter ≥ 2 ^ s.cfg.capBits then value ≤ 2 ^ s.cfg.capBits - 1
      else w - s.cfg.jitter ≤ value ∧ value ≤ w + s.cfg.jitter) →
    exec (.rxCapture value) s =
      .next ((s.putShared (s.upstreamOf s.cur) { up with link := rest }).putShared s.cur
        (if own.rx.rb.size = s.cfg.rxCap then
          { own with faults := own.faults.add .rxOverflow }
        else
          { own with
            rx :=
              { own.rx with
                rb :=
                  { own.rx.rb with
                    slots := own.rx.rb.slots.set own.rx.rb.tail value
                    tail := (own.rx.rb.tail + 1) % s.cfg.rxCap
                    size := own.rx.rb.size + 1 } } }))) ∧
  (∀ (s : State) (sh up : Shared) (w value : Nat) (rest : List Nat),
    s.sharedReady .rxi sh → s.shared? (s.upstreamOf s.cur) = some up → up.link = w :: rest →
    (if w + s.cfg.jitter ≥ 2 ^ s.cfg.capBits then value > 2 ^ s.cfg.capBits - 1
      else value < w - s.cfg.jitter ∨ w + s.cfg.jitter < value) →
    exec (.rxCapture value) s = .refused .captureOutOfRange) ∧
  (∀ (s : State) (sh : Shared) (value : Nat),
    s.sharedReady .rxi sh → s.linkOf (s.upstreamOf s.cur) = [] →
    exec (.rxCapture value) s = .refused .notEnabled)

/-- R173: the four bands of `classify`, each with its lower bound and without its upper one. -/
def Obligations.ClassifyBands : Prop :=
  ∀ (cfg : Config) (c : Nat), cfg.rxMin < cfg.rxSplit → cfg.rxSplit < cfg.rxMax →
    (classify cfg c = .error ↔ c < cfg.rxMin) ∧
    (classify cfg c = .zero ↔ cfg.rxMin ≤ c ∧ c < cfg.rxSplit) ∧
    (classify cfg c = .one ↔ cfg.rxSplit ≤ c ∧ c < cfg.rxMax) ∧
    (classify cfg c = .reset ↔ cfg.rxMax ≤ c)

/-- R174: RX_BITS_AVAILABLE returns whether the RX ring holds an entry, and changes nothing else. (A
returned value stands in the model's field `ret`, log entry 8; so in every statement below.) -/
def Obligations.RxBitsAvailableResult : Prop :=
  encode .rxBitsAvailable = ⟨0x11, []⟩ ∧
  ∀ (s : State) (sh : Shared), s.sharedReady .main sh →
    exec .rxBitsAvailable s =
      .next (s.putShared s.cur { sh with ret := .bit (decide (sh.rx.rb.size > 0)) })

/-- R175: RX_RECEIVE_BIT pops one entry and returns its class; on an empty ring it records the halting
fault RX_EMPTY_READ and returns nothing, and the agent takes no further step. -/
def Obligations.RxReceiveBitResult : Prop :=
  encode .rxReceiveBit = ⟨0x12, []⟩ ∧
  (∀ (s : State) (sh : Shared), s.sharedReady .main sh → sh.rx.rb.size = 0 →
    ∃ t, exec .rxReceiveBit s = .next t ∧
      t = s.putShared s.cur { sh with faults := sh.faults.add .rxEmptyRead } ∧
      ∀ (i : Instr) (ctx : Context) (u : State), exec i { t with ctx := ctx } ≠ .next u) ∧
  (∀ (s : State) (sh : Shared) (c : Nat), s.sharedReady .main sh → 0 < sh.rx.rb.size →
    sh.rx.rb.slots[sh.rx.rb.head]? = some c →
    exec .rxReceiveBit s =
      .next (s.putShared s.cur
        { sh with
          rx :=
            { sh.rx with
              rb :=
                { sh.rx.rb with
                  head := (sh.rx.rb.head + 1) % s.cfg.rxCap, size := sh.rx.rb.size - 1 } }
          ret := .sym (classify s.cfg c) }))

/-- R70: the RX ring is a first-in first-out queue between the capture interrupt and the main line: a
capture that is not dropped joins the end, and a receive takes the front and returns its class. -/
def Obligations.RxRingIsAQueue : Prop :=
  (∀ (s t : State) (sh sh' : Shared) (v : Nat), exec (.rxCapture v) s = .next t →
    s.shared? s.cur = some sh → sh.wf s.cfg → sh.rx.rb.size < s.cfg.rxCap →
    t.shared? s.cur = some sh' → sh'.rxQueue s.cfg = sh.rxQueue s.cfg ++ [v]) ∧
  (∀ (s t : State) (sh sh' : Shared) (v : Nat) (vs : List Nat),
    exec .rxReceiveBit s = .next t → s.shared? s.cur = some sh → sh.wf s.cfg →
    sh.rxQueue s.cfg = v :: vs → t.shared? s.cur = some sh' →
    sh'.rxQueue s.cfg = vs ∧ sh'.ret = .sym (classify s.cfg v))

/-- R10, R173, R330: under a well-formed configuration every value that can be captured from a bit's
pulse classifies as that bit, and every value captured from the reset pulse as RESET. -/
def Obligations.CapturesClassifyAsSent : Prop :=
  ∀ (cfg : Config) (v : Nat), configOk cfg = true →
    (∀ b : Bit, captureLow cfg (highTime cfg b) ≤ v → v ≤ captureHigh cfg (highTime cfg b) →
      classify cfg v = symOfBit b) ∧
    (captureLow cfg cfg.tRstH ≤ v → v ≤ captureHigh cfg cfg.tRstH → classify cfg v = .reset)

/-- R176, the round-trip law on the machine: a bit that an agent with an idle TX sends, whatever the
capture value drawn for its pulse, is the symbol that its downstream agent then receives; SEND_RESET
is received as RESET. -/
def Obligations.RoundTripLaw : Prop :=
  ∀ (s : State) (u : AgentId) (up down : Shared) (v : Nat),
    configOk s.cfg = true → lowsFit s.cfg →
    s.shared? u = some up → up.faults.halted = false → up.wf s.cfg →
    up.tx.armed = false → up.tx.bulkOpen = false → up.link = [] →
    s.shared? (downstream s.nodes.length u) = some down → down.faults.halted = false →
    down.wf s.cfg → down.rx.rb.size = 0 →
    (∀ b : Bit, captureLow s.cfg (highTime s.cfg b) ≤ v →
      v ≤ captureHigh s.cfg (highTime s.cfg b) →
      ∃ t sh, runScript (issue u (sendBitsProgram s.cfg [b]) ++ expiries u 3 ++
          capture (downstream s.nodes.length u) v ::
          issue (downstream s.nodes.length u) [.rxReceiveBit]) s = .next t ∧
        t.shared? (downstream s.nodes.length u) = some sh ∧ sh.ret = .sym (symOfBit b)) ∧
    (captureLow s.cfg s.cfg.tRstH ≤ v → v ≤ captureHigh s.cfg s.cfg.tRstH →
      ∃ t sh, runScript (issue u (sendResetProgram s.cfg) ++ expiries u 3 ++
          capture (downstream s.nodes.length u) v ::
          issue (downstream s.nodes.length u) [.rxReceiveBit]) s = .next t ∧
        t.shared? (downstream s.nodes.length u) = some sh ∧ sh.ret = .sym .reset)

/-! ### The node automaton (42_node_automaton.md) -/

/-- R200: NODE_RESET puts the automaton into REST with count 0, from every state; TX, RX and
`node_last_us` are unchanged; doing it twice is doing it once. -/
def Obligations.NodeResetResult : Prop :=
  encode .nodeReset = ⟨0x21, []⟩ ∧
  (∀ (s : State) (i : Nat) (n : NodeRec), s.nodeReady i n →
    exec .nodeReset s = .next (s.putNode i { n with state := .rest, count := 0 })) ∧
  ∀ s t : State, exec .nodeReset s = .next t → exec .nodeReset t = .next t

/-- R208: NODE_STEP with `node_state = HOWL` records UNREACHABLE_STATE and does nothing else; and no
operation leaves a node in HOWL, so that this arises from a state that already held it. -/
def Obligations.NodeStepInHowlFaults : Prop :=
  (∀ (s : State) (i : Nat) (n : NodeRec) (sym : Sym) (elapsed : Nat), s.nodeReady i n →
    n.state = .howl →
    exec (.nodeStep sym elapsed) s =
      .next (s.putNode i
        { n with sh := { n.sh with faults := n.sh.faults.add .unreachableState } })) ∧
  ∀ (i : Instr) (s t : State), exec i s = .next t → (∀ n ∈ s.nodes, n.state ≠ .howl) →
    ∀ m ∈ t.nodes, m.state ≠ .howl

/-- R201, the timeout: an `elapsed` above NODE_RESET_US first resets the automaton, and the symbol is
then read in REST; an `elapsed` at the threshold or below changes nothing about the step. -/
def Obligations.NodeStepTimeoutComesFirst : Prop :=
  (∀ (s : State) (i : Nat) (n : NodeRec) (sym : Sym) (elapsed : Nat), s.nodeReady i n →
    n.state ≠ .howl → elapsed > s.cfg.nodeResetUs →
    exec (.nodeStep sym elapsed) s =
      exec (.nodeStep sym 0) (s.putNode i { n with state := .rest, count := 0 })) ∧
  (∀ (s : State) (sym : Sym) (elapsed : Nat), elapsed ≤ s.cfg.nodeResetUs →
    exec (.nodeStep sym elapsed) s = exec (.nodeStep sym 0) s)

/-- R202, R203: on a RESET symbol the node sends the bus-reset waveform on; on an ERROR symbol it
forwards nothing. On both it returns to REST with count 0, whatever its state and the elapsed time. (A
node in HOWL faults instead: R208.) -/
def Obligations.NodeStepOnResetOrError : Prop :=
  ∀ (s : State) (i : Nat) (n : NodeRec) (elapsed : Nat), s.nodeReady i n → n.state ≠ .howl →
    exec (.nodeStep .reset elapsed) s =
      .next (s.putNode i
        { n with
          sh := sendPairs s.cfg [⟨true, s.cfg.tRstH⟩, ⟨false, s.cfg.tRstL⟩] n.sh
          state := .rest
          count := 0 }) ∧
    exec (.nodeStep .error elapsed) s =
      .next (s.putNode i { n with state := .rest, count := 0 })

/-- R204: in REST the bit G is forwarded and the node enters ALERT; the other bit is absorbed. (With an
elapsed time above the threshold R201 clears the count first; it is 0 in REST under the invariant.) -/
def Obligations.NodeStepInRest : Prop :=
  ∀ (s : State) (i : Nat) (n : NodeRec) (b : Bit) (elapsed : Nat), s.nodeReady i n →
    n.state = .rest → elapsed ≤ s.cfg.nodeResetUs ∨ n.count = 0 →
    exec (.nodeStep (symOfBit b) elapsed) s =
      .next (if b = s.cfg.growlBit then
          s.putNode i { n with sh := sendBits s.cfg [s.cfg.growlBit] n.sh, state := .alert }
        else s)

/-- R205: in ALERT on H the node queues, as one bulk, B, its payload sample most significant bit first,
G and H, and ends in REST; the sample is some K-bit value, drawn once. -/
def Obligations.NodeStepTerminalSequence : Prop :=
  ∀ (s : State) (i : Nat) (n : NodeRec) (elapsed : Nat), s.nodeReady i n → n.state = .alert →
    elapsed ≤ s.cfg.nodeResetUs →
    ∃ p < 2 ^ s.cfg.k,
      exec (.nodeStep (symOfBit (!s.cfg.growlBit)) elapsed) s =
        .next { s.putNode i
          { n with
            sh := sendBits s.cfg ([s.cfg.growlBit] ++
              (List.range s.cfg.k).map (fun j => p.testBit (s.cfg.k - 1 - j)) ++
              [s.cfg.growlBit, !s.cfg.growlBit]) n.sh
            state := .rest
            count := 0 } with draws := s.draws + 1 }

/-- R206: in ALERT on B the node forwards B and enters BARK with the counter K+1. -/
def Obligations.NodeStepHeader : Prop :=
  ∀ (s : State) (i : Nat) (n : NodeRec) (elapsed : Nat), s.nodeReady i n → n.state = .alert →
    elapsed ≤ s.cfg.nodeResetUs →
    exec (.nodeStep (symOfBit s.cfg.growlBit) elapsed) s =
      .next (s.putNode i
        { n with
          sh := sendBits s.cfg [s.cfg.growlBit] n.sh, state := .bark, count := s.cfg.k + 1 })

/-- R207: in BARK the node forwards the bit unchanged and decrements the counter, and enters ALERT
when it reaches 0. The counter is at least 1 in every state that meets the invariant. -/
def Obligations.NodeStepInBark : Prop :=
  ∀ (s : State) (i : Nat) (n : NodeRec) (b : Bit) (elapsed : Nat), s.nodeReady i n →
    n.state = .bark → 1 ≤ n.count → elapsed ≤ s.cfg.nodeResetUs →
    exec (.nodeStep (symOfBit b) elapsed) s =
      .next (s.putNode i
        { n with
          sh := sendBits s.cfg [b] n.sh
          count := n.count - 1
          state := if n.count = 1 then .alert else .bark })

/-- R209: NODE_POLL with a clock value below `node_last_us` records NONMONOTONIC_CLOCK and does nothing
else; with an empty RX ring it does nothing; else it pops one entry, notes the clock and is the
NODE_STEP of the entry's symbol with the elapsed time, and it always answers a next state. -/
def Obligations.NodePollResult : Prop :=
  (∀ now : Nat, encode (.nodePoll now) = ⟨0x22, [now]⟩) ∧
  (∀ (s : State) (i : Nat) (n : NodeRec) (now : Nat), s.nodeReady i n → now < n.lastUs →
    exec (.nodePoll now) s =
      .next (s.putNode i
        { n with sh := { n.sh with faults := n.sh.faults.add .nonmonotonicClock } })) ∧
  (∀ (s : State) (i : Nat) (n : NodeRec) (now : Nat), s.nodeReady i n → n.lastUs ≤ now →
    n.sh.rx.rb.size = 0 → exec (.nodePoll now) s = .next s) ∧
  (∀ (s : State) (i : Nat) (n : NodeRec) (now c : Nat), s.nodeReady i n → n.lastUs ≤ now →
    0 < n.sh.rx.rb.size → n.sh.rx.rb.slots[n.sh.rx.rb.head]? = some c →
    exec (.nodePoll now) s =
      exec (.nodeStep (classify s.cfg c) (now - n.lastUs)) (s.putNode i
        { n with
          sh :=
            { n.sh with
              rx :=
                { n.sh.rx with
                  rb :=
                    { n.sh.rx.rb with
                      head := (n.sh.rx.rb.head + 1) % s.cfg.rxCap
                      size := n.sh.rx.rb.size - 1 } } }
          lastUs := now }) ∧
    ∃ t m, exec (.nodePoll now) s = .next t ∧ t.nodes[i]? = some m ∧ m.lastUs = now ∧
      m.sh.rx.rb.size = n.sh.rx.rb.size - 1)

/-- R210, the frame law: a node in REST that reads the symbols of `frame(ps)`, with no gap above the
threshold, sends exactly `frame(ps ++ [p])` for the payload `p` it samples, and ends in REST. Each read
is a gap and the number of expiries of the node's TX timer that follow it, so that a frame of any
length may pass through the ring while it drains. The ring must have room for each burst and the low
periods must fit the timer, so that no fault is recorded. The pairs queued are those of that frame,
behind what was queued before; and on a line that ends low, the pulses that leave are one for each
bit of it, of width `T(b)H` (R147). -/
def Obligations.NodeFrameLaw : Prop :=
  ∀ (s : State) (i : Nat) (n : NodeRec) (ps : List Nat) (reads : List (Nat × Nat)),
    configOk s.cfg = true → lowsFit s.cfg → s.nodes[i]? = some n → n.sh.faults.halted = false →
    n.sh.wf s.cfg → n.sh.tx.bulkOpen = false → n.state = .rest →
    reads.length = (frameBits s.cfg ps).length → (∀ r ∈ reads, r.1 ≤ s.cfg.nodeResetUs) →
    hasRoom s.cfg.txCap n.sh.tx.rb.size
      (List.zip (List.replicate ((frameBits s.cfg ps).length - 1) 2 ++ [2 * (s.cfg.k + 3)])
        (reads.map Prod.snd)) = true →
    ∃ p < 2 ^ s.cfg.k, ∃ t m sent,
      runScript (nodeReads i (frameBits s.cfg ps) reads) s = .next t ∧
      t.nodes[i]? = some m ∧ m.state = .rest ∧ m.count = 0 ∧ m.sh.faults = n.sh.faults ∧
      n.sh.txQueue s.cfg ++ bitsPairs s.cfg (frameBits s.cfg (ps ++ [p])) =
        sent ++ m.sh.txQueue s.cfg ∧
      sent.length ≤ (reads.map Prod.snd).sum ∧
      (n.sh.endsLow s.cfg →
        m.sh.pulses s.cfg =
          n.sh.pulses s.cfg ++ (frameBits s.cfg (ps ++ [p])).map (highTime s.cfg))

/-! ### The coordinator automaton (43_coordinator.md) -/

/-- R230: COORD_RESET puts the automaton into REST with `wolf_id` -1 and count 0 and touches nothing
else; doing it twice is doing it once. -/
def Obligations.CoordResetResult : Prop :=
  encode .coordReset = ⟨0x31, []⟩ ∧
  (∀ s : State, s.coordReady →
    exec .coordReset s =
      .next (s.putCoord { s.coord with state := .rest, wolfId := -1, count := 0 })) ∧
  ∀ s t : State, exec .coordReset s = .next t → exec .coordReset t = .next t

/-- R231: COORD_RESEED is COORD_RESET and a cleared write-role buffer; the read-role buffer is
untouched. -/
def Obligations.CoordReseedResult : Prop :=
  encode .coordReseed = ⟨0x32, []⟩ ∧
  ∀ s : State, s.coordReady → ∃ c : CoordRec,
    exec .coordReseed s = .next (s.putCoord c) ∧
    c.writeBuf = List.replicate s.cfg.maxNodes 0 ∧ c.readBuf = s.coord.readBuf ∧
    c = { s.coord with state := .rest, wolfId := -1, count := 0, kb0 := c.kb0, kb1 := c.kb1 }

/-- R233: COORD_FEED in REST: G enters ALERT and returns CONTINUE; the other bit returns RESYNC_ERROR
and leaves the automaton reset (R238). -/
def Obligations.CoordFeedInRest : Prop :=
  ∀ (s : State) (bit : Bit), s.coordReady → s.coord.state = .rest →
    exec (.coordFeed bit) s =
      .next (s.putCoord
        (if bit = s.cfg.growlBit then
          { s.coord with
            state := .alert, sh := { s.coord.sh with ret := .feed .continuing } }
        else
          { s.coord with
            state := .rest, wolfId := -1, count := 0,
            sh := { s.coord.sh with ret := .feed .resyncError } }))

/-- R234: COORD_FEED in ALERT on H returns COMPLETE(n) with `n = wolf_id + 1` and resets the automaton;
the recorded payloads stay. -/
def Obligations.CoordFeedCompletes : Prop :=
  ∀ s : State, s.coordReady → s.coord.state = .alert → -1 ≤ s.coord.wolfId →
    ∃ n : Nat, (n : Int) = s.coord.wolfId + 1 ∧
      exec (.coordFeed (!s.cfg.growlBit)) s =
        .next (s.putCoord
          { s.coord with
            state := .rest, wolfId := -1, count := 0,
            sh := { s.coord.sh with ret := .feed (.complete n) } })

/-- R235: COORD_FEED in ALERT on B starts the next node's accumulator at 0 and enters READ_K_BITS with
the counter K+1, unless the snapshot can hold no more nodes: then RESYNC_ERROR and the automaton
reset. -/
def Obligations.CoordFeedHeader : Prop :=
  (∀ s : State, s.coordReady → s.coord.state = .alert → s.coord.wolfId + 1 ≥ s.cfg.maxNodes →
    exec (.coordFeed s.cfg.growlBit) s =
      .next (s.putCoord
        { s.coord with
          state := .rest, wolfId := -1, count := 0,
          sh := { s.coord.sh with ret := .feed .resyncError } })) ∧
  (∀ (s : State) (j : Nat), s.coordReady → s.coord.state = .alert →
    s.coord.wolfId + 1 = j → j < s.cfg.maxNodes → ∃ c : CoordRec,
    exec (.coordFeed s.cfg.growlBit) s = .next (s.putCoord c) ∧
    c.writeBuf = s.coord.writeBuf.set j 0 ∧ c.readBuf = s.coord.readBuf ∧
    c = { s.coord with
      state := .readKBits, wolfId := j, count := s.cfg.k + 1,
      kb0 := c.kb0, kb1 := c.kb1, sh := { s.coord.sh with ret := .feed .continuing } })

/-- R236: COORD_FEED in READ_K_BITS with more than one bit to read shifts the bit into the node's byte
from the right and decrements the counter. -/
def Obligations.CoordFeedPayloadBit : Prop :=
  ∀ (s : State) (bit : Bit) (j : Nat) (v : Byte), s.coordReady → s.coord.state = .readKBits →
    s.coord.count > 1 → s.coord.wolfId = j → s.coord.writeBuf[j]? = some v → ∃ c : CoordRec,
    exec (.coordFeed bit) s = .next (s.putCoord c) ∧
    c.writeBuf = s.coord.writeBuf.set j (BitVec.ofNat 8 (2 * v.toNat + bit.toNat)) ∧
    c.readBuf = s.coord.readBuf ∧
    c = { s.coord with
      count := s.coord.count - 1, kb0 := c.kb0, kb1 := c.kb1,
      sh := { s.coord.sh with ret := .feed .continuing } }

/-- R237: COORD_FEED in READ_K_BITS on the last bit, the separator: G enters ALERT with CONTINUE, the
other bit is a RESYNC_ERROR and resets the automaton. -/
def Obligations.CoordFeedSeparator : Prop :=
  ∀ (s : State) (bit : Bit), s.coordReady → s.coord.state = .readKBits → s.coord.count = 1 →
    exec (.coordFeed bit) s =
      .next (s.putCoord
        (if bit = s.cfg.growlBit then
          { s.coord with
            count := 0, state := .alert, sh := { s.coord.sh with ret := .feed .continuing } }
        else
          { s.coord with
            state := .rest, wolfId := -1, count := 0,
            sh := { s.coord.sh with ret := .feed .resyncError } }))

/-- R239, the decode law: after COORD_RESEED, feeding `frame(ps)` with at most MAX_NODES payloads
returns CONTINUE on every bit but the last and COMPLETE(N) on the last; the write buffer then holds
the payloads in chain order and 0 behind them, and the automaton is in REST with `wolf_id` -1. With
more payloads, the header of node MAX_NODES returns RESYNC_ERROR. -/
def Obligations.CoordDecodeLaw : Prop :=
  ∀ (s : State) (ps : List Nat), configOk s.cfg = true → s.coord.sh.faults.halted = false →
    s.coord.buffersWf s.cfg → (∀ p ∈ ps, p < 2 ^ s.cfg.k) →
    (∀ k, 1 ≤ k → k ≤ 1 + min ps.length s.cfg.maxNodes * (s.cfg.k + 2) → ∃ t,
      runScript (issue .coordinator (.coordReseed ::
        ((frameBits s.cfg ps).take k).map .coordFeed)) s = .next t ∧
      t.coord.sh.ret = .feed .continuing) ∧
    (ps.length ≤ s.cfg.maxNodes → ∃ t,
      runScript (issue .coordinator (.coordReseed ::
        (frameBits s.cfg ps).map .coordFeed)) s = .next t ∧
      t.coord.sh.ret = .feed (.complete ps.length) ∧ t.coord.state = .rest ∧
      t.coord.wolfId = -1 ∧
      t.coord.writeBuf = ps.map (BitVec.ofNat 8) ++
        List.replicate (s.cfg.maxNodes - ps.length) 0) ∧
    (s.cfg.maxNodes < ps.length → ∃ t,
      runScript (issue .coordinator (.coordReseed ::
        ((frameBits s.cfg ps).take (2 + s.cfg.maxNodes * (s.cfg.k + 2))).map .coordFeed)) s =
        .next t ∧
      t.coord.sh.ret = .feed .resyncError)

/-! ### The supervisor (44_supervisor.md) -/

/-- R260: WD_INIT resets the automaton and enters COOLDOWN with a deadline one patience interval
ahead. (`started`, the place in the boot sequence, is the model's own field, log entry 15.) -/
def Obligations.WdInitResult : Prop :=
  (∀ now : Nat, encode (.wdInit now) = ⟨0x40, [now]⟩) ∧
  ∀ (s : State) (now : Nat), s.coordReady → ∃ b : Bool,
    exec (.wdInit now) s =
      .next (s.putCoord
        { s.coord with
          state := .rest, wolfId := -1, count := 0, wdState := .cooldown,
          wdDeadline := now + s.cfg.patienceUs, started := b })

/-- R261, R265, R267, R270: WD_POLL with an empty RX ring. Before the deadline nothing happens; at the
deadline or after it the supervisor sends the reset waveform, from GOOD and COOLDOWN with the
automaton reset, and is in RESET with a new deadline. -/
def Obligations.WdPollTimeout : Prop :=
  ∀ (s : State) (now : Nat), s.coordReady → s.coord.sh.rx.rb.size = 0 →
    exec (.wdPoll now) s =
      .next (if now < s.coord.wdDeadline then s
        else if s.coord.wdState = .reset then
          s.putCoord
            { s.coord with
              sh := sendPairs s.cfg [⟨true, s.cfg.tRstH⟩, ⟨false, s.cfg.tRstL⟩] s.coord.sh
              wdDeadline := now + s.cfg.patienceUs }
        else
          s.putCoord
            { s.coord with
              sh := sendPairs s.cfg [⟨true, s.cfg.tRstH⟩, ⟨false, s.cfg.tRstL⟩] s.coord.sh
              state := .rest, wolfId := -1, count := 0, wdState := .reset
              wdDeadline := now + s.cfg.patienceUs })

/-- R261, R262, R266, R268, R269: WD_POLL with a waiting symbol in COOLDOWN or RESET, whatever the
deadline. COOLDOWN drops it. RESET on a RESET symbol re-seeds the automaton, sends the frame start
[G, H] and enters GOOD; RESET on another symbol falls back to COOLDOWN with the automaton reset. The
deadline is re-armed in every case. -/
def Obligations.WdPollSymbolOutsideGood : Prop :=
  ∀ (s : State) (now c : Nat) (popped : Shared), s.coordReady → 0 < s.coord.sh.rx.rb.size →
    s.coord.sh.rx.rb.slots[s.coord.sh.rx.rb.head]? = some c →
    popped =
      { s.coord.sh with
        rx :=
          { s.coord.sh.rx with
            rb :=
              { s.coord.sh.rx.rb with
                head := (s.coord.sh.rx.rb.head + 1) % s.cfg.rxCap
                size := s.coord.sh.rx.rb.size - 1 } } } →
    (s.coord.wdState = .cooldown →
      exec (.wdPoll now) s =
        .next (s.putCoord
          { s.coord with sh := popped, wdDeadline := now + s.cfg.patienceUs })) ∧
    (s.coord.wdState = .reset → classify s.cfg c = .reset → ∃ d : CoordRec,
      exec (.wdPoll now) s = .next (s.putCoord d) ∧
      d.writeBuf = List.replicate s.cfg.maxNodes 0 ∧ d.readBuf = s.coord.readBuf ∧
      d = { s.coord with
        sh := sendBits s.cfg [s.cfg.growlBit, !s.cfg.growlBit] popped
        state := .rest, wolfId := -1, count := 0, wdState := .good
        wdDeadline := now + s.cfg.patienceUs, kb0 := d.kb0, kb1 := d.kb1 }) ∧
    (s.coord.wdState = .reset → classify s.cfg c ≠ .reset →
      exec (.wdPoll now) s =
        .next (s.putCoord
          { s.coord with
            sh := popped, state := .rest, wolfId := -1, count := 0, wdState := .cooldown
            wdDeadline := now + s.cfg.patienceUs }))

/-- R263: WD_POLL with a waiting symbol in GOOD. RESET and ERROR fall back to COOLDOWN. A bit is fed to
the automaton: CONTINUE stays GOOD; RESYNC_ERROR sends the reset waveform and enters RESET. The
deadline is re-armed in every case. -/
def Obligations.WdPollSymbolInGood : Prop :=
  ∀ (s : State) (now c : Nat) (popped : Shared), s.coordReady → 0 < s.coord.sh.rx.rb.size →
    s.coord.sh.rx.rb.slots[s.coord.sh.rx.rb.head]? = some c →
    popped =
      { s.coord.sh with
        rx :=
          { s.coord.sh.rx with
            rb :=
              { s.coord.sh.rx.rb with
                head := (s.coord.sh.rx.rb.head + 1) % s.cfg.rxCap
                size := s.coord.sh.rx.rb.size - 1 } } } →
    s.coord.wdState = .good →
    (classify s.cfg c = .reset ∨ classify s.cfg c = .error →
      exec (.wdPoll now) s =
        .next (s.putCoord
          { s.coord with
            sh := popped, state := .rest, wolfId := -1, count := 0, wdState := .cooldown
            wdDeadline := now + s.cfg.patienceUs })) ∧
    (∀ (b : Bit) (fed : CoordRec), classify s.cfg c = symOfBit b →
      coordFeed s.cfg b { s.coord with sh := popped } = (.continuing, fed) →
      exec (.wdPoll now) s =
        .next (s.putCoord { fed with wdDeadline := now + s.cfg.patienceUs })) ∧
    (∀ (b : Bit) (fed : CoordRec), classify s.cfg c = symOfBit b →
      coordFeed s.cfg b { s.coord with sh := popped } = (.resyncError, fed) →
      exec (.wdPoll now) s =
        .next (s.putCoord
          { s.coord with
            sh := sendPairs s.cfg [⟨true, s.cfg.tRstH⟩, ⟨false, s.cfg.tRstL⟩] popped
            state := .rest, wolfId := -1, count := 0, wdState := .reset
            wdDeadline := now + s.cfg.patienceUs }))

/-- R264: WD_POLL in GOOD on the H that completes a cycle of n nodes publishes the snapshot; then, with
no further entry in the RX ring, it re-seeds and sends a frame start and stays GOOD; with one, it
sends the reset waveform and enters RESET. -/
def Obligations.WdPollCompletesACycle : Prop :=
  ∀ (s : State) (now c n : Nat) (popped : Shared), s.coordReady → s.coord.buffersWf s.cfg →
    0 < s.coord.sh.rx.rb.size → s.coord.sh.rx.rb.slots[s.coord.sh.rx.rb.head]? = some c →
    popped =
      { s.coord.sh with
        rx :=
          { s.coord.sh.rx with
            rb :=
              { s.coord.sh.rx.rb with
                head := (s.coord.sh.rx.rb.head + 1) % s.cfg.rxCap
                size := s.coord.sh.rx.rb.size - 1 } } } →
    s.coord.wdState = .good → s.coord.state = .alert → s.coord.wolfId + 1 = n →
    classify s.cfg c = symOfBit (!s.cfg.growlBit) → ∃ d : CoordRec,
    exec (.wdPoll now) s = .next (s.putCoord d) ∧
    d.readBuf = s.coord.writeBuf ∧ d.writeBuf = List.replicate s.cfg.maxNodes 0 ∧
    d = { s.coord with
      sh := if s.coord.sh.rx.rb.size = 1 then
          sendBits s.cfg [s.cfg.growlBit, !s.cfg.growlBit] popped
        else sendPairs s.cfg [⟨true, s.cfg.tRstH⟩, ⟨false, s.cfg.tRstL⟩] popped
      wdState := if s.coord.sh.rx.rb.size = 1 then .good else .reset
      state := .rest, wolfId := -1, count := 0, wdDeadline := now + s.cfg.patienceUs
      sel := !s.coord.sel, readCount := n, kb0 := d.kb0, kb1 := d.kb1
      edge := List.zipWith (· ^^^ ·) s.coord.writeBuf s.coord.readBuf }

/-- R274: in GOOD with no symbol waiting, a poll at or after the deadline enters RESET with the deadline
one patience interval later, and no further poll before that deadline does anything: one timeout for
one missed deadline. In RESET each missed deadline sends the reset waveform exactly once. -/
def Obligations.OneTimeoutPerMissedDeadline : Prop :=
  ∀ (s : State) (now : Nat), s.coordReady → s.coord.sh.rx.rb.size = 0 →
    s.coord.wdState = .good ∨ s.coord.wdState = .reset → s.coord.wdDeadline ≤ now →
    ∃ t, exec (.wdPoll now) s = .next t ∧ t.coord.wdState = .reset ∧
      t.coord.wdDeadline = now + s.cfg.patienceUs ∧
      t.coord.sh = sendPairs s.cfg [⟨true, s.cfg.tRstH⟩, ⟨false, s.cfg.tRstL⟩] s.coord.sh ∧
      ∀ later, now ≤ later → later < now + s.cfg.patienceUs → exec (.wdPoll later) t = .next t

/-- R275, R73: no operation but DB_PUBLISH and WD_POLL changes what a consumer can read. WD_POLL changes
it only when, in GOOD, the symbol it takes is the H on which the automaton in ALERT completes a cycle,
so on no timeout and on no RESET, ERROR or misplaced symbol; then a consumer reads the buffer that
cycle filled, its count and its edges. The operations that publish are exactly those after which the
buffers have changed roles (R356). -/
def Obligations.ConsumersSeeOnlyCompletedCycles : Prop :=
  (∀ (i : Instr) (s t : State), (∀ n, i ≠ .dbPublish n) → (∀ now, i ≠ .wdPoll now) →
    exec i s = .next t →
    t.coord.sel = s.coord.sel ∧ t.coord.readBuf = s.coord.readBuf ∧
    t.coord.readCount = s.coord.readCount ∧ t.coord.edge = s.coord.edge) ∧
  (∀ (now : Nat) (s t : State), exec (.wdPoll now) s = .next t →
    (t.coord.sel = s.coord.sel ∧ t.coord.readBuf = s.coord.readBuf ∧
      t.coord.readCount = s.coord.readCount ∧ t.coord.edge = s.coord.edge) ∨
    (s.coord.wdState = .good ∧ s.coord.state = .alert ∧ 0 < s.coord.sh.rx.rb.size ∧
      classify s.cfg (rxFront s.coord.sh.rx.rb) = symOfBit (!s.cfg.growlBit) ∧
      t.coord.sel = !s.coord.sel ∧ t.coord.readBuf = s.coord.writeBuf ∧
      t.coord.readCount = (s.coord.wolfId + 1).toNat ∧
      (s.coord.buffersWf s.cfg →
        t.coord.edge = List.zipWith (· ^^^ ·) s.coord.writeBuf s.coord.readBuf))) ∧
  ∀ (i : Instr) (s t : State), exec i s = .next t →
    (s.publishes i = true ↔ t.coord.sel = !s.coord.sel)

/-! ### The debounce buffers (45_debounce.md) -/

/-- R291: DB_PUBLISH computes the edge vector as the XOR of the two buffers byte by byte, swaps the
roles, records the count and zeroes the new write buffer; a count above MAX_NODES is refused. -/
def Obligations.DbPublishResult : Prop :=
  (∀ n : Nat, encode (.dbPublish n) = ⟨0x50, [n]⟩) ∧
  (∀ (s : State) (n : Nat), s.coordReady → s.coord.buffersWf s.cfg → n ≤ s.cfg.maxNodes →
    ∃ c : CoordRec,
    exec (.dbPublish n) s = .next (s.putCoord c) ∧
    c.readBuf = s.coord.writeBuf ∧ c.writeBuf = List.replicate s.cfg.maxNodes 0 ∧
    c = { s.coord with
      edge := List.zipWith (· ^^^ ·) s.coord.writeBuf s.coord.readBuf
      sel := !s.coord.sel, readCount := n, kb0 := c.kb0, kb1 := c.kb1 }) ∧
  (∀ (s : State) (n : Nat), s.coordReady → n > s.cfg.maxNodes →
    exec (.dbPublish n) s = .refused .countOutOfRange)

/-- R296, R297: DB_LATEST_SNAPSHOT returns the read-role buffer and its count, DB_EDGE_EVENTS the edge
vector of the last publish; neither changes anything else. -/
def Obligations.ConsumerQueriesResult : Prop :=
  encode .dbLatestSnapshot = ⟨0x51, []⟩ ∧ encode .dbEdgeEvents = ⟨0x52, []⟩ ∧
  ∀ s : State, s.coordReady → s.coord.buffersWf s.cfg →
    exec .dbLatestSnapshot s =
      .next (s.putCoord
        { s.coord with
          sh := { s.coord.sh with ret := .snapshot s.coord.readBuf s.coord.readCount } }) ∧
    exec .dbEdgeEvents s =
      .next (s.putCoord { s.coord with sh := { s.coord.sh with ret := .edges s.coord.edge } })

/-- R299: after a publish an entry of the edge vector is non-zero exactly where the completed snapshot
differs from the one before it; it is all zero when they are equal; the write buffer is all zero, and
the read buffer is the snapshot just completed. -/
def Obligations.DebounceLaws : Prop :=
  ∀ (s t : State) (n : Nat), exec (.dbPublish n) s = .next t → s.coord.buffersWf s.cfg →
    (s.coord.writeBuf = s.coord.readBuf → ∀ e ∈ t.coord.edge, e = 0) ∧
    (∀ (i : Nat) (x y : Byte), s.coord.writeBuf[i]? = some x → s.coord.readBuf[i]? = some y →
      ∃ e, t.coord.edge[i]? = some e ∧ (edgeFlag e = true ↔ x ≠ y)) ∧
    (∀ e ∈ t.coord.writeBuf, e = 0) ∧ t.coord.writeBuf.length = s.cfg.maxNodes ∧
    t.coord.readBuf = s.coord.writeBuf

/-! ### Reset and the invariant (70_reset_and_hazards.md) -/

/-- R350: the power-on values the spec gives, for every configuration, number of nodes and clock. The
slot contents, the capture counters and the deadline are open there and not stated here. -/
def Obligations.PowerOnValues : Prop :=
  ∀ (cfg : Config) (n clock : Nat),
    (State.powerOn cfg n clock).nodes.length = n ∧
    (∀ m ∈ (State.powerOn cfg n clock).nodes, m.fresh cfg) ∧
    (State.powerOn cfg n clock).coord.sh.fresh cfg ∧
    (State.powerOn cfg n clock).coord.state = .rest ∧
    (State.powerOn cfg n clock).coord.wolfId = -1 ∧
    (State.powerOn cfg n clock).coord.count = 0 ∧
    (State.powerOn cfg n clock).coord.wdState = .cooldown ∧
    (State.powerOn cfg n clock).coord.kb0 = List.replicate cfg.maxNodes 0 ∧
    (State.powerOn cfg n clock).coord.kb1 = List.replicate cfg.maxNodes 0 ∧
    (State.powerOn cfg n clock).coord.sel = false ∧
    (State.powerOn cfg n clock).coord.readCount = 0 ∧
    (State.powerOn cfg n clock).coord.edge = List.replicate cfg.maxNodes 0

/-- R352, R355: WD_INIT with the clock's current value, issued first after power-on, gives a clean
launch. -/
def Obligations.BootEndsInACleanLaunch : Prop :=
  ∀ (cfg : Config) (n clock : Nat), configOk cfg = true →
    ∃ t, runScript (issue .coordinator [.wdInit clock]) (State.powerOn cfg n clock) = .next t ∧
      t.cleanLaunch

/-- The machine's invariant (R24, R27, R61, R65 and the ranges of R21 to R30) holds at reset, and at
power-on under every well-formed configuration. -/
def Obligations.InvariantHoldsAtReset : Prop :=
  State.reset.Inv ∧
  ∀ (cfg : Config) (n clock : Nat), configOk cfg = true → (State.powerOn cfg n clock).Inv

/-- Every step keeps the machine's invariant, whatever is placed or scheduled: the ring invariant R65,
the ranges of R21 to R30, no HOWL at an operation boundary (R24), `wolf_id` in -1..MAX_NODES-1
(R27), the counters in 0..K+1, a disarmed TX idle and low, and every queued pair with a duration the
timer can time (R61). -/
def Obligations.EveryStepKeepsTheInvariant : Prop :=
  ∀ s t : State, s.Inv → step s = .next t → t.Inv
end

