-- ==== Sys2Proof/Tests/Slice0.lean ====
section
/-! SUPPORT. Tests: hand-written words of every operation, refused words, vectors of 95_test_vectors.md
(their ids stand in the docstrings), and for every obligation with hypotheses a state and operands
that meet them (`wit_…`). Every expected value is the spec's. -/

namespace Sys2Proof.Tests

open Sys2Proof Sys2Proof.Machine

/-! ### Helpers -/

/-- EX (R11). -/
abbrev ex : Config := Config.ex

/-- An agent's codecs at power-on. -/
def idle : Shared := Shared.powerOn ex

/-- A TX ring with the committed pairs `ps` from slot 0 on. -/
def txRing (ps : List TxPair) : Machine.Ring TxPair :=
  { slots := ps ++ List.replicate (16 - ps.length) ⟨false, 0⟩, head := 0, tail := ps.length % 16,
    size := ps.length }

/-- An RX ring with the values `vs` from slot 0 on. -/
def rxRing (vs : List Nat) : Machine.Ring Nat :=
  { slots := vs ++ List.replicate (16 - vs.length) 0, head := 0, tail := vs.length % 16,
    size := vs.length }

/-- An armed agent whose TX ring holds `ps`. -/
def sending (ps : List TxPair) : Shared :=
  { idle with tx := { idle.tx with rb := txRing ps, armed := true } }

/-- An armed agent with the line high and `ps` in its TX ring. -/
def high (ps : List TxPair) : Shared :=
  { sending ps with tx := { (sending ps).tx with pin := true, highAcc := 24 } }

/-- An agent whose RX ring holds `vs`. -/
def heard (vs : List Nat) : Shared := { idle with rx := { idle.rx with rb := rxRing vs } }

/-- An agent with an open bulk of no pairs. -/
def bulked : Shared := { idle with tx := { idle.tx with bulkOpen := true } }

/-- Reset, with the coordinator's codecs replaced. -/
def atCoord (sh : Shared) : State := State.reset.putShared .coordinator sh

/-- Reset, with the coordinator's record replaced. -/
def withC (c : CoordRec) : State := State.reset.putCoord c

/-- Reset, with the coordinator's codecs replaced and every capture counter at 7. -/
def counting (sh : Shared) : State :=
  (atCoord (sh.setCounter 7)).putShared (.node 0) (idle.setCounter 7)

/-- The coordinator at power-on, in supervisor state `w` with `vs` in its RX ring and deadline 1000. -/
def sup (w : WdState) (vs : List Nat) : CoordRec :=
  { CoordRec.powerOn ex with sh := heard vs, wdState := w, wdDeadline := 1000 }

/-- A node in a state, with a count and `vs` in its RX ring. -/
def nd (st : NodeState) (count : Nat) (vs : List Nat) : NodeRec :=
  { NodeRec.powerOn ex with sh := heard vs, state := st, count := count }

/-- Reset, with node 0 replaced, and the step taken by node 0. -/
def atNode (n : NodeRec) : State := { State.reset.putNode 0 n with cur := .node 0 }

/-- Reset, with the pulse `w` on its way from the coordinator to node 0, and the step taken by RXI of
node 0. -/
def arriving (w : Nat) : State :=
  { State.reset.putLink .coordinator [w] with cur := .node 0, ctx := .rxi }

/-- Whether a step answers a next state that has the property. -/
def after (o : Host.Outcome State Fault Refusal) (p : State → Bool) : Bool :=
  match o with
  | .next t => p t
  | .fault _ => false
  | .refused _ => false

/-- Whether there is no step, for the reason `r`. -/
def refusedFor (o : Host.Outcome State Fault Refusal) (r : Refusal) : Bool :=
  match o with
  | .next _ => false
  | .fault _ => false
  | .refused q => decide (q = r)

/-- Node 0 after a step. -/
def node0 (t : State) : NodeRec := (t.nodes[0]?).getD (NodeRec.powerOn ex)

/-- The pairs in a TX ring from its head. -/
def queued (sh : Shared) : List TxPair := sh.txQueue ex

/-! ### Well-formedness (R112) -/

theorem test_wellFormed_refuses :
    Instr.wellFormed ex (.rxCapture 65536) = false ∧ Instr.wellFormed ex (.dbPublish 9) = false := by
  decide

theorem test_wellFormed_accepts :
    Instr.wellFormed ex (.rxCapture 65535) = true ∧ Instr.wellFormed ex (.dbPublish 8) = true ∧
    Instr.wellFormed ex (.txSchedule true 65536) = true := by
  decide

/-! ### Decoding: a word of every operation, written out from R114 and R112 -/

theorem test_decode_tx :
    decode ⟨0b00000001#8, [1, 24]⟩ = .ok (.txSchedule true 24) ∧
    decode ⟨0b00000010#8, []⟩ = .ok .txBulkBegin ∧
    decode ⟨0b00000011#8, [0, 8]⟩ = .ok (.txBulkSchedule false 8) ∧
    decode ⟨0b00000100#8, []⟩ = .ok .txBulkEnd ∧
    decode ⟨0b00000101#8, []⟩ = .ok .txExpiry := by
  exact ⟨rfl, rfl, rfl, rfl, rfl⟩

theorem test_decode_rx :
    decode ⟨0b00010000#8, [23]⟩ = .ok (.rxCapture 23) ∧
    decode ⟨0b00010001#8, []⟩ = .ok .rxBitsAvailable ∧
    decode ⟨0b00010010#8, []⟩ = .ok .rxReceiveBit := by
  exact ⟨rfl, rfl, rfl⟩

theorem test_decode_node :
    decode ⟨0b00100000#8, [2, 40]⟩ = .ok (.nodeStep .reset 40) ∧
    decode ⟨0b00100000#8, [0, 1]⟩ = .ok (.nodeStep .zero 1) ∧
    decode ⟨0b00100000#8, [1, 1]⟩ = .ok (.nodeStep .one 1) ∧
    decode ⟨0b00100000#8, [3, 1]⟩ = .ok (.nodeStep .error 1) ∧
    decode ⟨0b00100001#8, []⟩ = .ok .nodeReset ∧
    decode ⟨0b00100010#8, [1200]⟩ = .ok (.nodePoll 1200) := by
  exact ⟨rfl, rfl, rfl, rfl, rfl, rfl⟩

theorem test_decode_coord :
    decode ⟨0b00110000#8, [1]⟩ = .ok (.coordFeed true) ∧
    decode ⟨0b00110001#8, []⟩ = .ok .coordReset ∧
    decode ⟨0b00110010#8, []⟩ = .ok .coordReseed := by
  exact ⟨rfl, rfl, rfl⟩

theorem test_decode_wd :
    decode ⟨0b01000000#8, [7]⟩ = .ok (.wdInit 7) ∧
    decode ⟨0b01000001#8, [999]⟩ = .ok (.wdPoll 999) := by
  exact ⟨rfl, rfl⟩

theorem test_decode_db :
    decode ⟨0b01010000#8, [3]⟩ = .ok (.dbPublish 3) ∧
    decode ⟨0b01010001#8, []⟩ = .ok .dbLatestSnapshot ∧
    decode ⟨0b01010010#8, []⟩ = .ok .dbEdgeEvents := by
  exact ⟨rfl, rfl, rfl⟩

/-- DE-1. -/
theorem test_decode_reserved :
    decode ⟨0x00, []⟩ = .error (.reservedSelector 0x00) ∧
    decode ⟨0x06, []⟩ = .error (.reservedSelector 0x06) ∧
    decode ⟨0x13, []⟩ = .error (.reservedSelector 0x13) ∧
    decode ⟨0xFF, []⟩ = .error (.reservedSelector 0xFF) := by
  exact ⟨rfl, rfl, rfl, rfl⟩

theorem test_decode_illArgument :
    decode ⟨0x01, [2, 24]⟩ = .error .levelRange ∧ decode ⟨0x20, [4, 0]⟩ = .error .symRange ∧
    decode ⟨0x30, [2]⟩ = .error .bitRange ∧ decode ⟨0x22, []⟩ = .error .argumentCount ∧
    decode ⟨0x05, [0]⟩ = .error .argumentCount := by
  exact ⟨rfl, rfl, rfl, rfl, rfl⟩

theorem test_tableWords :
    decodeTableWord 8 0x01 = some (.txSchedule false 0) ∧ decodeTableWord 8 0x05 = some .txExpiry ∧
    decodeTableWord 8 0x20 = some (.nodeStep .zero 0) ∧ decodeTableWord 8 0x52 = some .dbEdgeEvents ∧
    decodeTableWord 32 0x3101 = some (.txSchedule true 24) ∧
    decodeTableWord 32 0xA220 = some (.nodeStep .reset 40) ∧ decodeTableWord 8 0x06 = none := by
  decide

/-- R120. -/
theorem test_assembler :
    assembler (.txSchedule true 24) = "TX_SCHEDULE 1, 24" ∧
    assembler (.nodeStep .one 40) = "NODE_STEP ONE, 40" ∧
    assembler .coordReset = "COORD_RESET" := by
  decide

/-! ### Configuration (CF-1 to CF-7) -/

theorem test_config :
    configOk ex = true ∧ configOk { ex with txCap := 4 } = false ∧
    configOk { ex with txCap := 12 } = false ∧ configOk { ex with rxSplit := 10 } = false ∧
    configOk { ex with tRstH := 41 } = false ∧ configOk { ex with k := 9 } = false ∧
    configOk { ex with t1l := 10 } = false := by
  decide

/-! ### The transmit codec -/

/-- TX-1, TX-4. -/
theorem test_txSchedule_accepts :
    after (exec (.txSchedule true 24) (atCoord idle)) (fun t =>
      decide (t.coord.sh = sending [⟨true, 24⟩])) = true ∧
    after (exec (.txSchedule true 65535) (atCoord idle)) (fun t =>
      decide (t.coord.sh = sending [⟨true, 65535⟩])) = true := by
  decide

/-- TX-2, TX-3, TX-5, TX-11. -/
theorem test_txSchedule_faults :
    after (exec (.txSchedule true 0) (atCoord idle)) (fun t =>
      decide (t.coord.sh = { idle with faults := { badDuration := true } })) = true ∧
    after (exec (.txSchedule true 65536) (atCoord idle)) (fun t =>
      decide (t.coord.sh = { idle with faults := { badDuration := true } })) = true ∧
    after (exec (.txSchedule false 8) (atCoord (sending (List.replicate 16 ⟨true, 8⟩)))) (fun t =>
      decide (t.coord.sh =
        { sending (List.replicate 16 ⟨true, 8⟩) with faults := { txOverflow := true } })) = true ∧
    after (exec (.txSchedule true 24) (atCoord bulked)) (fun t =>
      decide (t.coord.sh = { bulked with faults := { bulkMisuse := true } })) = true := by
  decide

/-- TX-6, TX-9. -/
theorem test_txBulkBegin :
    after (exec .txBulkBegin (atCoord idle)) (fun t => decide (t.coord.sh = bulked)) = true ∧
    after (exec .txBulkBegin (atCoord bulked)) (fun t =>
      decide (t.coord.sh = { bulked with faults := { bulkMisuse := true } })) = true := by
  decide

/-- TX-6, TX-10. -/
theorem test_txBulkSchedule :
    after (exec (.txBulkSchedule true 24) (atCoord bulked)) (fun t =>
      decide (t.coord.sh.tx.rb.tail = 1 ∧ t.coord.sh.tx.rb.size = 0 ∧ t.coord.sh.tx.pending = 1 ∧
        t.coord.sh.tx.armed = false)) = true ∧
    after (exec (.txBulkSchedule true 24) (atCoord idle)) (fun t =>
      decide (t.coord.sh = { idle with faults := { bulkMisuse := true } })) = true := by
  decide

/-- TX-12: the third pair of the bulk is dropped, the bulk is committed. -/
theorem test_bulk_overflow :
    let sh := sendPairs ex [⟨true, 24⟩, ⟨false, 8⟩, ⟨true, 8⟩] (sending (List.replicate 14 ⟨true, 8⟩))
    sh.faults = { txOverflow := true } ∧ sh.tx.rb.head = 0 ∧ sh.tx.rb.tail = 0 ∧
      sh.tx.rb.size = 16 := by
  decide

/-- TX-7, TX-8. -/
theorem test_txBulkEnd :
    after (exec .txBulkEnd (atCoord (txBulkSchedule ex true 24 bulked))) (fun t =>
      decide (t.coord.sh = sending [⟨true, 24⟩])) = true ∧
    after (exec .txBulkEnd (atCoord idle)) (fun t =>
      decide (t.coord.sh = { idle with faults := { bulkMisuse := true } })) = true := by
  decide

/-- TX-13. -/
theorem test_sendBits :
    sendBits ex [true, false] idle = sending [⟨true, 24⟩, ⟨false, 8⟩, ⟨true, 8⟩, ⟨false, 24⟩] := by
  decide

/-- The example of R145: rising edge, falling edge; TX-15's summed high periods. -/
theorem test_txExpiry_pops :
    let one := txExpiry ex (sending [⟨true, 24⟩, ⟨false, 8⟩])
    let two := txExpiry ex one
    let long := txExpiry ex (txExpiry ex (sending [⟨true, 10⟩, ⟨true, 14⟩]))
    one.tx.pin = true ∧ one.tx.highAcc = 24 ∧ one.tx.reload = 24 ∧ one.link = [] ∧
    two.tx.pin = false ∧ two.tx.highAcc = 0 ∧ two.tx.reload = 8 ∧ two.link = [24] ∧
    long.tx.highAcc = 24 ∧ long.link = [] := by
  decide

/-- TX-16 and TX-19: the empty ring disarms; a disarmed timer has no expiry. R170: a rising edge restarts
the downstream agent's capture counter, that of the next node or, alone in its ring, its own; a
falling edge does not. -/
theorem test_txExpiry_ends :
    after (exec .txExpiry { counting (sending [⟨true, 24⟩]) with ctx := .txi }) (fun t =>
      decide ((node0 t).sh.rx.cnt = 0 ∧ t.coord.sh.rx.cnt = 7)) = true ∧
    after (exec .txExpiry { counting (high [⟨false, 8⟩]) with ctx := .txi }) (fun t =>
      decide ((node0 t).sh.rx.cnt = 7)) = true ∧
    after (exec .txExpiry { counting (sending [⟨true, 24⟩]) with ctx := .txi, nodes := [] }) (fun t =>
      decide (t.coord.sh.rx.cnt = 0 ∧ t.coord.sh.tx.pin = true)) = true ∧
    after (exec .txExpiry { atCoord (sending []) with ctx := .txi }) (fun t =>
      decide (t.coord.sh = idle)) = true ∧
    refusedFor (exec .txExpiry { atCoord bulked with ctx := .txi }) .notEnabled = true := by
  decide

/-- TX-14's expiry times: ARM_DELAY, then each reload. -/
theorem test_expiryTimes : expiryTimes 1 [24, 8, 8, 24] = [1, 25, 33, 41, 65] := by decide

/-! ### The receive codec -/

/-- RX-1, RX-7. -/
theorem test_rxCapture :
    after (exec (.rxCapture 23) (arriving 24)) (fun t =>
      decide ((node0 t).sh.rx.rb = rxRing [23] ∧ t.coord.sh.link = [])) = true ∧
    (rxCapture ex 24 (heard (List.replicate 16 8))).faults = { rxOverflow := true } ∧
    (rxCapture ex 24 (heard (List.replicate 16 8))).rx.rb = rxRing (List.replicate 16 8) := by
  decide

/-- RX-9, RX-10, RX-11: the values a pulse can give. -/
theorem test_captureRange :
    captureLow ex 8 = 6 ∧ captureHigh ex 8 = 10 ∧ captureLow ex 65533 = 65531 ∧
    captureHigh ex 65533 = 65535 ∧ captureLow ex 65534 = 0 ∧ captureHigh ex 65534 = 65535 ∧
    refusedFor (exec (.rxCapture 5) (arriving 8)) .captureOutOfRange = true ∧
    refusedFor (exec (.rxCapture 11) (arriving 8)) .captureOutOfRange = true := by
  decide

/-- RX-2, RX-4. -/
theorem test_rxBitsAvailable :
    after (exec .rxBitsAvailable (atCoord (heard [23]))) (fun t =>
      decide (t.coord.sh = { heard [23] with ret := .bit true })) = true ∧
    after (exec .rxBitsAvailable (atCoord (heard []))) (fun t =>
      decide (t.coord.sh = { heard [] with ret := .bit false })) = true := by
  decide

/-- RX-3, RX-6. -/
theorem test_rxReceiveBit :
    after (exec .rxReceiveBit (atCoord (heard [23]))) (fun t =>
      decide (t.coord.sh.ret = .sym .one ∧ t.coord.sh.rx.rb.head = 1 ∧
        t.coord.sh.rx.rb.size = 0)) = true ∧
    (let last := { heard [] with rx := { cnt := 0, rb := { rxRing [] with head := 15, tail := 15 } } }
     let got := rxReceiveBit ex (rxCapture ex 8 last)
     got.ret = .sym .zero ∧ got.rx.rb.head = 0 ∧ got.rx.rb.tail = 0 ∧ got.rx.rb.size = 0) := by
  decide

/-- RX-5: the fault halts the agent. -/
theorem test_rxReceiveBit_empty :
    after (exec .rxReceiveBit (atCoord idle)) (fun t =>
      decide (t.coord.sh.faults = { rxEmptyRead := true }) &&
        !after (exec .rxBitsAvailable t) (fun _ => true)) = true := by
  decide

/-- Section 1.4. -/
theorem test_classify :
    [0, 3, 4, 15, 16, 39, 40, 65535].map (classify ex) =
      [.error, .error, .zero, .zero, .one, .one, .reset, .reset] := by
  decide

/-! ### The node automaton -/

/-- ND-1, ND-3, ND-6, ND-7, ND-9. -/
theorem test_nodeStep_sends :
    after (exec (.nodeStep .one 10) (atNode (nd .rest 0 []))) (fun t =>
      decide ((node0 t).state = .alert ∧ queued (node0 t).sh = bitsPairs ex [true])) = true ∧
    after (exec (.nodeStep .one 40) (atNode (nd .alert 0 []))) (fun t =>
      decide ((node0 t).state = .bark ∧ (node0 t).count = 2)) = true ∧
    after (exec (.nodeStep .zero 40) (atNode (nd .bark 2 []))) (fun t =>
      decide ((node0 t).state = .bark ∧ (node0 t).count = 1 ∧
        queued (node0 t).sh = bitsPairs ex [false])) = true ∧
    after (exec (.nodeStep .one 40) (atNode (nd .bark 1 []))) (fun t =>
      decide ((node0 t).state = .alert ∧ (node0 t).count = 0)) = true ∧
    after (exec (.nodeStep .reset 40) (atNode (nd .bark 2 []))) (fun t =>
      decide ((node0 t).state = .rest ∧ queued (node0 t).sh = [⟨true, 80⟩, ⟨false, 32⟩])) = true := by
  decide

/-- ND-2, ND-10, ND-11, ND-12, ND-14. -/
theorem test_nodeStep_corners :
    after (exec (.nodeStep .zero 10) (atNode (nd .rest 0 []))) (fun t =>
      decide (node0 t = nd .rest 0 [])) = true ∧
    after (exec (.nodeStep .error 40) (atNode (nd .alert 0 []))) (fun t =>
      decide (node0 t = nd .rest 0 [])) = true ∧
    after (exec (.nodeStep .one 501) (atNode (nd .bark 2 []))) (fun t =>
      decide ((node0 t).state = .alert)) = true ∧
    after (exec (.nodeStep .one 500) (atNode (nd .bark 2 []))) (fun t =>
      decide ((node0 t).state = .bark ∧ (node0 t).count = 1)) = true ∧
    after (exec (.nodeStep .one 10) (atNode (nd .howl 0 []))) (fun t =>
      decide ((node0 t).sh.faults = { unreachableState := true } ∧ queued (node0 t).sh = [])) =
        true := by
  decide

/-- ND-4 and ND-5: the terminal sequence for each payload; ND-18: its overflow. -/
theorem test_terminalSequence :
    sendBits ex (terminalBits ex 1) idle = sending (bitsPairs ex [true, true, true, false]) ∧
    sendBits ex (terminalBits ex 0) idle = sending (bitsPairs ex [true, false, true, false]) ∧
    (sendBits ex (terminalBits ex 1) (sending (List.replicate 10 ⟨true, 8⟩))).faults =
      { txOverflow := true } := by
  decide

/-- FR-3 and FR-4: the frames. -/
theorem test_frames :
    frameBits ex [1, 0, 1] =
      [true, true, true, true, true, false, true, true, true, true, false] ∧
    frameBits { ex with k := 2 } [2, 1] =
      [true, true, true, false, true, true, false, true, true, false] := by
  decide

/-- Section 1.3. -/
theorem test_nodeReset :
    after (exec .nodeReset (atNode (nd .bark 2 [24]))) (fun t =>
      decide (node0 t = nd .rest 0 [24])) = true := by
  decide

/-- ND-15, ND-16, ND-17. -/
theorem test_nodePoll :
    after (exec (.nodePoll 150) (atNode { nd .rest 0 [] with lastUs := 100 })) (fun t =>
      decide (node0 t = { nd .rest 0 [] with lastUs := 100 })) = true ∧
    after (exec (.nodePoll 99) (atNode { nd .rest 0 [24] with lastUs := 100 })) (fun t =>
      decide ((node0 t).sh.faults = { nonmonotonicClock := true })) = true ∧
    after (exec (.nodePoll 100) (atNode (nd .rest 0 [24]))) (fun t =>
      decide ((node0 t).state = .alert ∧ (node0 t).lastUs = 100 ∧
        (node0 t).sh.rx.rb.size = 0)) = true := by
  decide

/-! ### The coordinator automaton -/

/-- Rows 1, 5 and 9 of the trace of section 1.2, and CO-9. -/
theorem test_coordFeed :
    after (exec (.coordFeed true) (withC (sup .good []))) (fun t =>
      decide (t.coord.state = .alert ∧ t.coord.sh.ret = .feed .continuing)) = true ∧
    (coordFeed ex true { sup .good [] with state := .alert, wolfId := 0 }).2.wolfId = 1 ∧
    (coordFeed ex true { sup .good [] with state := .readKBits, wolfId := 2, count := 2 }).2.kb0 =
      [0, 0, 1, 0, 0, 0, 0, 0] ∧
    (coordFeed ex false { sup .good [] with state := .alert, wolfId := 2 }).1 = .complete 3 := by
  decide

/-- CO-2, CO-3 (the bad separator), CO-6 (the ninth header), CO-5 (K = 2, most significant bit first). -/
theorem test_coordFeed_corners :
    (coordFeed ex false (sup .good [])).1 = .resyncError ∧
    coordFeed ex false { sup .good [] with state := .readKBits, wolfId := 0, count := 1 } =
      (.resyncError, sup .good []) ∧
    (coordFeed ex true { sup .good [] with state := .alert, wolfId := 7 }).1 = .resyncError ∧
    (let c := { sup .good [] with state := .readKBits, wolfId := 0, count := 3 }
     (feedPayload false (feedPayload true c).2).2.kb0 = [2, 0, 0, 0, 0, 0, 0, 0]) := by
  decide

/-- Section 1.3. -/
theorem test_coordReset :
    after (exec .coordReset (withC { sup .good [] with
      state := .readKBits, wolfId := 2, count := 1, kb0 := [1, 0, 1] })) (fun t =>
      decide (t.coord = { sup .good [] with kb0 := [1, 0, 1] })) = true := by
  decide

/-- The example of R231, on both roles. -/
theorem test_coordReseed :
    after (exec .coordReseed (withC { sup .good [] with kb0 := [1, 0, 0, 0, 0, 0, 0, 0] })) (fun t =>
      decide (t.coord = sup .good [])) = true ∧
    (coordReseed ex { sup .good [] with kb0 := [1], sel := true }).kb0 = [1] := by
  decide

/-! ### The supervisor -/

/-- WD-0. -/
theorem test_wdInit :
    after (exec (.wdInit 0) (withC { sup .reset [] with state := .alert })) (fun t =>
      decide (t.coord.wdState = .cooldown ∧ t.coord.wdDeadline = 1000 ∧
        t.coord.state = .rest)) = true := by
  decide

/-- WD-1, WD-2, WD-4, WD-5, WD-6. -/
theorem test_wdPoll_outsideGood :
    after (exec (.wdPoll 999) (withC (sup .cooldown []))) (fun t =>
      decide (t.coord = sup .cooldown [])) = true ∧
    after (exec (.wdPoll 1000) (withC (sup .cooldown []))) (fun t =>
      decide (t.coord.wdState = .reset ∧ t.coord.wdDeadline = 2000 ∧
        queued t.coord.sh = [⟨true, 80⟩, ⟨false, 32⟩])) = true ∧
    after (exec (.wdPoll 1200) (withC (sup .cooldown [24]))) (fun t =>
      decide (t.coord.wdState = .cooldown ∧ t.coord.wdDeadline = 2200)) = true ∧
    after (exec (.wdPoll 1010) (withC (sup .reset [80]))) (fun t =>
      decide (t.coord.wdState = .good ∧ t.coord.wdDeadline = 2010 ∧
        queued t.coord.sh = bitsPairs ex [true, false])) = true ∧
    after (exec (.wdPoll 1010) (withC (sup .reset [24]))) (fun t =>
      decide (t.coord.wdState = .cooldown ∧ t.coord.wdDeadline = 2010)) = true := by
  decide

/-- WD-12, WD-13, WD-11, WD-9. -/
theorem test_wdPoll_good :
    let c := { sup .good [8] with state := .alert, wolfId := 2, kb0 := [1, 0, 1, 0, 0, 0, 0, 0] }
    after (exec (.wdPoll 1036) (withC c)) (fun t =>
      decide (t.coord.wdState = .good ∧ t.coord.sel = true ∧ t.coord.readCount = 3 ∧
        t.coord.edge = [1, 0, 1, 0, 0, 0, 0, 0] ∧ t.coord.wdDeadline = 2036 ∧
        queued t.coord.sh = bitsPairs ex [true, false])) = true ∧
    after (exec (.wdPoll 1036) (withC { c with sh := heard [8, 24] })) (fun t =>
      decide (t.coord.wdState = .reset ∧ t.coord.readCount = 3 ∧
        queued t.coord.sh = [⟨true, 80⟩, ⟨false, 32⟩])) = true ∧
    after (exec (.wdPoll 1010) (withC (sup .good [8]))) (fun t =>
      decide (t.coord.wdState = .reset)) = true ∧
    after (exec (.wdPoll 1010) (withC { sup .good [80] with state := .alert })) (fun t =>
      decide (t.coord.wdState = .cooldown ∧ t.coord.state = .rest)) = true := by
  decide

/-! ### The debounce buffers -/

/-- DB-3, DB-7. -/
theorem test_dbPublish :
    after (exec (.dbPublish 3) (withC { sup .good [] with
      kb0 := [1, 0, 1, 0, 0, 0, 0, 0], kb1 := [1, 1, 1, 0, 0, 0, 0, 0] })) (fun t =>
      decide (t.coord.edge = [0, 1, 0, 0, 0, 0, 0, 0] ∧ t.coord.sel = true ∧ t.coord.readCount = 3 ∧
        t.coord.kb0 = [1, 0, 1, 0, 0, 0, 0, 0] ∧ t.coord.kb1 = List.replicate 8 0)) = true ∧
    refusedFor (exec (.dbPublish 9) State.reset) .countOutOfRange = true := by
  decide

/-- DB-1, DB-4. -/
theorem test_dbLatestSnapshot :
    after (exec .dbLatestSnapshot State.reset) (fun t =>
      decide (t.coord.sh.ret = .snapshot (List.replicate 8 0) 0)) = true ∧
    after (exec .dbLatestSnapshot (withC { sup .good [] with
      kb0 := [1, 0, 1, 0, 0, 0, 0, 0], sel := true, readCount := 3 })) (fun t =>
      decide (t.coord.sh.ret = .snapshot [1, 0, 1, 0, 0, 0, 0, 0] 3)) = true := by
  decide

/-- DB-2, and the end of R297's example. -/
theorem test_dbEdgeEvents :
    after (exec .dbEdgeEvents State.reset) (fun t =>
      decide (t.coord.sh.ret = .edges (List.replicate 8 0))) = true ∧
    after (exec .dbEdgeEvents (withC { sup .good [] with edge := [0, 1, 0, 0, 0, 0, 0, 0] })) (fun t =>
      decide (t.coord.sh.ret = .edges [0, 1, 0, 0, 0, 0, 0, 0])) = true := by
  decide

/-! ### Admission and steps -/

/-- DE-2, DE-3, DE-4. -/
theorem test_admission :
    refusedFor (exec (.nodeStep .one 0) State.reset) .wrongAgent = true ∧
    refusedFor (exec (.wdPoll 0) (atNode (nd .rest 0 []))) .wrongAgent = true ∧
    refusedFor (exec .txExpiry (atCoord (sending [⟨true, 8⟩]))) .wrongContext = true := by
  decide

/-- A placed word is what the next step runs (R64, R321). -/
theorem test_withFetchWord :
    after (step (State.reset.withFetchWord 8 0x41)) (fun t => decide (t.script = [])) = true ∧
    after (step (State.reset.withFetchWord 8 0x05)) (fun t =>
      decide (t.coord.sh.tx.armed = false)) = true ∧
    after (step (State.reset.withFetchWord 8 0x10)) (fun t =>
      decide (t.coord.sh.rx.rb.size = 1)) = true ∧
    refusedFor (step (State.reset.withFetchWord 8 0x06)) (.undecodable (.reservedSelector 0x06)) =
      true := by
  decide

/-! ### Ends of a run and hazards -/

/-- R356: a program of one operation reaches its quiescent end at that operation, and not before. -/
theorem test_quiescentEnd :
    ∃ t, quiescentEnd { State.reset with script := [.op .coordinator .main ⟨0x31, []⟩] } 1 t := by
  refine ⟨_, Nat.le_refl 1, rfl, by decide, by decide, ?_⟩
  intro j hj u hu h
  cases Nat.lt_one_iff.mp hj
  cases hu
  exact absurd (h.1 _ List.mem_cons_self) (by decide)

/-- R356: WD-12 ends a cycle, and what is observed there is its snapshot and its edges. -/
theorem test_cycleEnd :
    ∃ t, cycleEnd (withC { sup .good [8] with
        state := .alert, wolfId := 2, kb0 := [1, 0, 1, 0, 0, 0, 0, 0] }) (.wdPoll 1036) t ∧
      cycleObservation ex t.coord =
        (.snapshot [1, 0, 1, 0, 0, 0, 0, 0] 3, .edges [1, 0, 1, 0, 0, 0, 0, 0]) := by
  exact ⟨_, ⟨rfl, by decide, by decide⟩, by decide⟩

/-- R321: the step a state takes, for a placed operation of each context and a placed clock advance. -/
theorem test_taken :
    ({ State.reset with script := [.op (.node 0) .main ⟨0x22, [5]⟩] } : State).taken =
      .mainLine (.node 0) ∧
    ({ State.reset with script := [.op (.node 0) .rxi ⟨0x10, [5]⟩] } : State).taken =
      .rxCapture (.node 0) ∧
    ({ State.reset with script := [.op .coordinator .txi ⟨0x05, []⟩] } : State).taken =
      .txExpiry .coordinator ∧
    ({ State.reset with script := [.clockAdvance 5] } : State).taken = .clock := by
  decide

/-- A lone coordinator in COOLDOWN with nothing heard, before its deadline; the counter stands at `x`. -/
def waiting (x draws : Nat) (ctx : Context) : State :=
  { State.powerOn ex 0 0 with
    coord := { sup .cooldown [] with sh := (heard []).setCounter x }, ctx := ctx, draws := draws }

/-- The poll of the waiting coordinator changes nothing but the free counter. -/
theorem test_waiting_polls (x d : Nat) (c : Context) :
    step ((waiting x d c).placing (some (.op .coordinator .main ⟨0x41, [0]⟩))) =
      .next (waiting (Config.draw d % 2 ^ 16) (d + 1) .main) := by
  have hd : decode ⟨0x41, [0]⟩ = .ok (.wdPoll 0) := rfl
  rw [step_placed (rest := []) (show configOk ex = true by decide) rfl]
  simp only [runEvent, hd, runInstr, exec, execWdPoll]
  rw [onCoord_ready _ ⟨rfl, rfl, rfl⟩]
  rfl

/-- So does a clock advance by 0. -/
theorem test_waiting_advances (x d : Nat) (c : Context) :
    step ((waiting x d c).placing (some (.clockAdvance 0))) =
      .next (waiting (Config.draw d % 2 ^ 16) (d + 1) c) := by
  rw [step_placed (rest := []) (show configOk ex = true by decide) rfl]
  rfl

/-- R336: there is a fair run, that of a waiting coordinator whose polls and clock advances alternate. -/
theorem test_fairRun_exists : ∃ place run, fairRun place run := by
  let place : Nat → Option Event := fun k =>
    some (if k % 2 = 0 then .op .coordinator .main ⟨0x41, [0]⟩ else .clockAdvance 0)
  have next : ∀ k (q : { s : State // ∃ x d c, s = waiting x d c }),
      ∃ r : { s : State // ∃ x d c, s = waiting x d c },
        step (q.1.placing (place k)) = .next r.1 := by
    rintro k ⟨_, x, d, c, rfl⟩
    by_cases hk : k % 2 = 0
    · exact ⟨⟨_, _, _, _, rfl⟩, by simpa [place, hk] using test_waiting_polls x d c⟩
    · exact ⟨⟨_, _, _, _, rfl⟩, by simpa [place, hk] using test_waiting_advances x d c⟩
  let run : Nat → { s : State // ∃ x d c, s = waiting x d c } := fun k =>
    k.rec ⟨_, 0, 0, .main, rfl⟩ fun k q => (next k q).choose
  have polls : ∀ k, ((run (2 * k)).1.placing (place (2 * k))).takenOp =
      some (.coordinator, .wdPoll 0) := by
    intro k
    rw [show place (2 * k) = some (.op .coordinator .main ⟨0x41, [0]⟩) by simp [place]]
    rfl
  refine ⟨place, fun k => (run k).1, fun k => (next k (run k)).choose_spec, ?_, ?_⟩
  · intro p k hp
    obtain ⟨x, d, c, e⟩ := (run k).2
    have hm : p ∈ enabledPicks (run k).1 := hp k (Nat.le_refl k)
    rw [e, show enabledPicks (waiting x d c) = [.clock, .mainLine .coordinator] from rfl] at hm
    simp only [List.mem_cons, List.not_mem_nil, or_false] at hm
    obtain rfl | rfl := hm
    · refine ⟨2 * k + 1, by omega, ?_⟩
      simp [State.taken, State.takenOp, place, Nat.add_mod, pickOf]
    · exact ⟨2 * k, by omega, by simp only [State.taken, polls]; rfl⟩
  · intro a ha _ k
    have : a = .coordinator := by
      have e : (run 0).1.agents = [.coordinator] := rfl
      simpa [e] using ha
    exact ⟨2 * k, by omega, _, ⟨0, .inr rfl⟩, by rw [this]; exact polls k⟩

/-- R363: the patience of EX (1000 ticks) covers the echo of a ring of 8 nodes (904 ticks), not that of
9 (1017). -/
theorem test_patience : hazardPatience ex 8 ∧ ¬ hazardEcho ex 9 := by decide

/-! ### Witnesses: for each statement with hypotheses, a state and operands that meet them together -/

/-- Reset, with one placed step. -/
def placed (e : Event) : State := { State.reset with script := [e] }

/-- Power-on with `n` nodes, the step taken by agent `a` in context `ctx`. -/
def ringOf (n : Nat) (a : AgentId) (ctx : Context) : State :=
  { State.powerOn ex n 0 with cur := a, ctx := ctx }

/-- An agent that has recorded the faults `f`. -/
def faulty (f : FaultSet) : Shared := { idle with faults := f }

/-- A TX ring filled to its capacity. -/
def full : Shared := sending (List.replicate 16 ⟨true, 8⟩)

theorem wit_DecodeAndEncodeAgree : decode ⟨0x22, [1200]⟩ = .ok (.nodePoll 1200) := rfl

theorem wit_ReservedSelectorsSpellNoOperation :
    rowOf 0x06 = none ∧ configOk (placed (.op .coordinator .main ⟨0x06, []⟩)).cfg = true ∧
    (placed (.op .coordinator .main ⟨0x06, []⟩)).script = .op .coordinator .main ⟨0x06, []⟩ :: [] ∧
    decode ⟨0x52, []⟩ = .ok .dbEdgeEvents := by
  exact ⟨rfl, by decide, rfl, rfl⟩

theorem wit_StepRunsThePlacedOperation :
    configOk (placed (.op (.node 0) .main ⟨0x21, []⟩)).cfg = true ∧
    (placed (.op (.node 0) .main ⟨0x21, []⟩)).script = .op (.node 0) .main ⟨0x21, []⟩ :: [] ∧
    decode ⟨0x21, []⟩ = .ok .nodeReset := by
  exact ⟨by decide, rfl, rfl⟩

theorem wit_BadConfigurationHasNoStep :
    configOk { ex with txCap := 12 } = false ∧
    configOk { State.reset with cfg := { ex with txCap := 4 } }.cfg = false := by
  decide

/-- A ring with nothing to do, and one with an armed agent, a pulse on its way and a halted agent. -/
theorem wit_FreeStepTakesAnEnabledStep :
    configOk State.reset.cfg = true ∧ State.reset.script = [] ∧
    enabledPicks State.reset = [.clock, .mainLine .coordinator, .mainLine (.node 0)] ∧
    enabledPicks (atCoord { sending [⟨true, 24⟩] with link := [24] }) =
      [.clock, .mainLine .coordinator, .txExpiry .coordinator, .mainLine (.node 0),
        .rxCapture (.node 0)] ∧
    enabledPicks (atCoord { idle with faults := { rxEmptyRead := true } }) =
      [.clock, .mainLine (.node 0)] := by
  decide

theorem wit_ClockAdvanceMovesOnlyTheClock :
    configOk (placed (.clockAdvance 0)).cfg = true ∧
    (placed (.clockAdvance 0)).script = .clockAdvance 0 :: [] ∧
    (placed (.clockAdvance 0)).nodes[0]? = some (NodeRec.powerOn ex) := by
  decide

theorem wit_ClockIsMonotonic :
    (∃ t, step (placed (.clockAdvance 5)) = .next t) ∧ ∃ t, exec .coordReset State.reset = .next t := by
  exact ⟨⟨_, rfl⟩, ⟨_, rfl⟩⟩

theorem wit_UpstreamInvertsDownstream :
    (∃ n : Nat, n = 0 ∧ (AgentId.coordinator = .coordinator ∨ ∃ i < n, AgentId.coordinator = .node i)) ∧
    (∃ i < 2, AgentId.node 1 = .node i) ∧ 0 < 1 ∧ 0 + 1 < 2 := by
  exact ⟨⟨0, rfl, .inl rfl⟩, ⟨1, by decide, rfl⟩, by decide, by decide⟩

theorem wit_OperationsRunOnlyWhereListed :
    (agentKindOf .nodeReset = .node ∧ State.reset.cur = .coordinator) ∧
    (agentKindOf (.wdInit 0) = .coordinator ∧ (ringOf 1 (.node 0) .main).cur = .node 0) ∧
    (contextOf .txExpiry ≠ .main ∧ State.reset.ctx = .main) ∧
    (∃ t, exec .coordReset State.reset = .next t) ∧
    (∃ t, exec .txExpiry { atCoord (sending [⟨true, 8⟩]) with ctx := .txi } = .next t) ∧
    (∃ t, exec (.rxCapture 24) (arriving 24) = .next t) := by
  exact ⟨by decide, by decide, by decide, ⟨_, rfl⟩, ⟨_, rfl⟩, ⟨_, rfl⟩⟩

theorem wit_HaltedAgentTakesNoStep :
    ((atCoord (faulty { rxEmptyRead := true })).shared? .coordinator =
        some (faulty { rxEmptyRead := true }) ∧
      (faulty { rxEmptyRead := true }).faults.has .rxEmptyRead = true) ∧
    ((atCoord (faulty { unreachableState := true })).shared? .coordinator =
        some (faulty { unreachableState := true }) ∧
      (faulty { unreachableState := true }).faults.has .unreachableState = true) ∧
    ((atCoord (faulty { nonmonotonicClock := true })).shared? .coordinator =
        some (faulty { nonmonotonicClock := true }) ∧
      (faulty { nonmonotonicClock := true }).faults.has .nonmonotonicClock = true) ∧
    ({ txOverflow := true } : FaultSet).halted = false := by
  decide

theorem wit_FaultsAreNeverRemoved :
    (∃ t, step ((placed (.clockAdvance 5)).putShared .coordinator (faulty { badDuration := true })) =
      .next t) ∧
    ((placed (.clockAdvance 5)).putShared .coordinator (faulty { badDuration := true })).shared?
      .coordinator = some (faulty { badDuration := true }) := by
  exact ⟨⟨_, rfl⟩, by decide⟩

theorem wit_AgentsMeetOnlyOnLinks :
    (∃ t, exec (.rxCapture 24) (arriving 24) = .next t ∧ AgentId.coordinator ≠ (arriving 24).cur ∧
      (arriving 24).shared? .coordinator = some { idle with link := [24] }) ∧
    (∃ s t, exec .txExpiry s = .next t ∧ AgentId.node 0 ≠ s.cur ∧
      s.shared? (.node 0) = some (idle.setCounter 7) ∧ t.shared? (.node 0) = some idle) ∧
    (∃ t n m, exec .nodeReset (ringOf 2 (.node 0) .main) = .next t ∧
      (ringOf 2 (.node 0) .main).cur ≠ .node 1 ∧
      (ringOf 2 (.node 0) .main).nodes[1]? = some n ∧ t.nodes[1]? = some m) := by
  exact ⟨⟨_, rfl, by decide, by decide⟩,
    ⟨{ counting (sending [⟨true, 24⟩]) with ctx := .txi }, _, rfl, by decide, by decide, by decide⟩,
    ⟨_, _, _, rfl, by decide, rfl, rfl⟩⟩

/-- An open bulk, the two durations just outside the range and the two just inside, a full ring, an
idle and an armed one. -/
theorem wit_TxScheduleResult :
    ((atCoord bulked).sharedReady .main bulked ∧ bulked.tx.bulkOpen = true) ∧
    ((atCoord idle).sharedReady .main idle ∧ idle.tx.bulkOpen = false ∧
      65536 > 2 ^ (atCoord idle).cfg.durBits - 1 ∧ ¬ 65535 > 2 ^ (atCoord idle).cfg.durBits - 1 ∧
      idle.tx.rb.size + idle.tx.pending ≠ (atCoord idle).cfg.txCap) ∧
    ((atCoord full).sharedReady .main full ∧ full.tx.bulkOpen = false ∧
      full.tx.rb.size + full.tx.pending = (atCoord full).cfg.txCap) := by
  decide

theorem wit_TxBulkBeginResult :
    (atCoord idle).sharedReady .main idle ∧ idle.tx.bulkOpen = false ∧
    (atCoord bulked).sharedReady .main bulked ∧ bulked.tx.bulkOpen = true := by
  decide

/-- The open bulk on an empty ring, on a full one, and no bulk. -/
theorem wit_TxBulkScheduleResult :
    (atCoord idle).sharedReady .main idle ∧ (atCoord bulked).sharedReady .main bulked ∧
    (∃ sh : Shared, (atCoord sh).sharedReady .main sh ∧ sh.tx.bulkOpen = true ∧
      sh.tx.rb.size + sh.tx.pending = (atCoord sh).cfg.txCap) := by
  exact ⟨by decide, by decide, ⟨{ full with tx := { full.tx with bulkOpen := true } }, by decide⟩⟩

theorem wit_TxBulkEndResult :
    (atCoord idle).sharedReady .main idle ∧ (atCoord bulked).sharedReady .main bulked ∧
    bulked.tx.rb.size + bulked.tx.pending = 0 ∧
    (∃ sh : Shared, sh = txBulkSchedule ex true 24 bulked ∧ (atCoord sh).sharedReady .main sh ∧
      sh.tx.rb.size + sh.tx.pending = 1) := by
  exact ⟨by decide, by decide, by decide, ⟨_, rfl, by decide⟩⟩

/-- A pair at the head with the line low and high, the last pair, no pair, and no armed timer. -/
theorem wit_TxExpiryResult :
    ({ atCoord (sending [⟨true, 24⟩]) with ctx := .txi }.sharedReady .txi (sending [⟨true, 24⟩]) ∧
      (sending [⟨true, 24⟩]).tx.armed = true ∧ 0 < (sending [⟨true, 24⟩]).tx.rb.size ∧
      (sending [⟨true, 24⟩]).tx.rb.slots[(sending [⟨true, 24⟩]).tx.rb.head]? = some ⟨true, 24⟩) ∧
    ({ atCoord (high [⟨false, 8⟩]) with ctx := .txi }.sharedReady .txi (high [⟨false, 8⟩]) ∧
      (high [⟨false, 8⟩]).tx.armed = true ∧ 0 < (high [⟨false, 8⟩]).tx.rb.size ∧
      (high [⟨false, 8⟩]).tx.rb.slots[(high [⟨false, 8⟩]).tx.rb.head]? = some ⟨false, 8⟩) ∧
    ({ atCoord (high []) with ctx := .txi }.sharedReady .txi (high []) ∧
      (high []).tx.armed = true ∧ (high []).tx.rb.size = 0) ∧
    ({ atCoord idle with ctx := .txi }.sharedReady .txi idle ∧ idle.tx.armed = false) := by
  decide

theorem wit_BulkProgramEqualsInlineBulk :
    configOk State.reset.cfg = true ∧ State.reset.shared? (.node 0) = some idle ∧
    idle.faults.halted = false := by
  decide

/-- One bit, and as many bits as the ring of EX can hold. -/
theorem wit_WaveformLaw :
    configOk State.reset.cfg = true ∧ lowsFit State.reset.cfg ∧
    State.reset.shared? .coordinator = some idle ∧ idle.faults.halted = false ∧
    idle.wf State.reset.cfg ∧ idle.tx.armed = false ∧ idle.tx.bulkOpen = false ∧
    ([true] ≠ [] ∧ 2 * [true].length ≤ State.reset.cfg.txCap ∧ [true][0]? = some true) ∧
    (List.replicate 8 false ≠ [] ∧ 2 * (List.replicate 8 false).length ≤ State.reset.cfg.txCap ∧
      (List.replicate 8 false)[7]? = some false) := by
  decide

/-- Queued pairs, and pending ones that a node's own bulk finds open. -/
theorem wit_ScheduledPairsAreNeverCancelled :
    Instr.coordReset ≠ .txExpiry ∧
    (∃ t, exec .coordReset (atCoord (sending [⟨true, 24⟩])) = .next t) ∧
    (atCoord (sending [⟨true, 24⟩])).shared? .coordinator = some (sending [⟨true, 24⟩]) ∧
    (sending [⟨true, 24⟩]).wf (atCoord (sending [⟨true, 24⟩])).cfg ∧
    (∃ s t sh, exec (.wdPoll 1000) s = .next t ∧ s.shared? .coordinator = some sh ∧ sh.wf s.cfg ∧
      sh.txAll s.cfg = [⟨true, 24⟩] ∧ sh.txQueue s.cfg = []) := by
  exact ⟨by decide, ⟨_, rfl⟩, by decide, by decide,
    ⟨withC { sup .cooldown [] with sh := txBulkSchedule ex true 24 bulked }, _, _, rfl, rfl,
      by decide, by decide, by decide⟩⟩

/-- The two ends of each range, the pulse that may wrap and the widest one that may not, the values
just outside, an empty link, and the coordinator alone in its ring. -/
theorem wit_RxCaptureResult :
    (∀ w ∈ [8, 65533, 65534],
      (arriving w).sharedReady .rxi idle ∧
      (arriving w).shared? ((arriving w).upstreamOf (arriving w).cur) =
        some { idle with link := [w] } ∧
      (arriving w).upstreamOf (arriving w).cur ≠ (arriving w).cur) ∧
    (¬ 65533 + (arriving 65533).cfg.jitter ≥ 2 ^ (arriving 65533).cfg.capBits ∧
      65533 - (arriving 65533).cfg.jitter ≤ 65531 ∧ 65535 ≤ 65533 + (arriving 65533).cfg.jitter) ∧
    (65534 + (arriving 65534).cfg.jitter ≥ 2 ^ (arriving 65534).cfg.capBits ∧
      65535 ≤ 2 ^ (arriving 65534).cfg.capBits - 1 ∧
      65536 > 2 ^ (arriving 65534).cfg.capBits - 1) ∧
    (5 < 8 - (arriving 8).cfg.jitter ∧ 8 + (arriving 8).cfg.jitter < 11) ∧
    ((ringOf 1 .coordinator .rxi).sharedReady .rxi idle ∧
      (ringOf 1 .coordinator .rxi).linkOf
        ((ringOf 1 .coordinator .rxi).upstreamOf (ringOf 1 .coordinator .rxi).cur) = []) ∧
    (∃ s : State, s = (ringOf 0 .coordinator .rxi).putLink .coordinator [8] ∧
      s.sharedReady .rxi { idle with link := [8] } ∧ s.upstreamOf s.cur = s.cur ∧
      s.shared? (s.upstreamOf s.cur) = some { idle with link := [8] }) := by
  exact ⟨by decide, by decide, by decide, by decide, by decide, ⟨_, rfl, by decide⟩⟩

theorem wit_ClassifyBands : ex.rxMin < ex.rxSplit ∧ ex.rxSplit < ex.rxMax := by decide

theorem wit_RxBitsAvailableResult :
    (atCoord (heard [])).sharedReady .main (heard []) ∧
    (atCoord (heard [23])).sharedReady .main (heard [23]) := by
  decide

theorem wit_RxReceiveBitResult :
    ((atCoord (heard [])).sharedReady .main (heard []) ∧ (heard []).rx.rb.size = 0) ∧
    ((atCoord (heard [23])).sharedReady .main (heard [23]) ∧ 0 < (heard [23]).rx.rb.size ∧
      (heard [23]).rx.rb.slots[(heard [23]).rx.rb.head]? = some 23) := by
  decide

/-- A capture into the last free slot, and a receive of the only entry. -/
theorem wit_RxRingIsAQueue :
    (∃ (s t : State) (sh sh' : Shared), exec (.rxCapture 24) s = .next t ∧
      s.shared? s.cur = some sh ∧ sh.wf s.cfg ∧ sh.rx.rb.size + 1 = s.cfg.rxCap ∧
      t.shared? s.cur = some sh') ∧
    (∃ (s t : State) (sh sh' : Shared), exec .rxReceiveBit s = .next t ∧
      s.shared? s.cur = some sh ∧ sh.wf s.cfg ∧ sh.rxQueue s.cfg = 23 :: [] ∧
      t.shared? s.cur = some sh') := by
  exact ⟨⟨(arriving 24).putShared (.node 0) (heard (List.replicate 15 8)), _, _, _, rfl, rfl,
      by decide, by decide, rfl⟩,
    ⟨atCoord (heard [23]), _, _, _, rfl, rfl, by decide, by decide, rfl⟩⟩

theorem wit_CapturesClassifyAsSent :
    configOk ex = true ∧
    (captureLow ex (highTime ex true) ≤ 22 ∧ 26 ≤ captureHigh ex (highTime ex true)) ∧
    (captureLow ex (highTime ex false) ≤ 6 ∧ 10 ≤ captureHigh ex (highTime ex false)) ∧
    (captureLow ex ex.tRstH ≤ 78 ∧ 82 ≤ captureHigh ex ex.tRstH) := by
  decide

/-- From the coordinator to node 0, and from a lone coordinator to itself. -/
theorem wit_RoundTripLaw :
    (∀ s ∈ [State.powerOn ex 1 0, State.powerOn ex 0 0],
      configOk s.cfg = true ∧ lowsFit s.cfg ∧ s.shared? .coordinator = some idle ∧
      s.shared? (downstream s.nodes.length .coordinator) = some idle) ∧
    idle.faults.halted = false ∧ idle.wf ex ∧ idle.tx.armed = false ∧ idle.tx.bulkOpen = false ∧
    idle.link = [] ∧ idle.rx.rb.size = 0 ∧
    captureLow ex (highTime ex true) ≤ 26 ∧ 26 ≤ captureHigh ex (highTime ex true) ∧
    captureLow ex (highTime ex false) ≤ 6 ∧ 6 ≤ captureHigh ex (highTime ex false) ∧
    captureLow ex ex.tRstH ≤ 78 ∧ 78 ≤ captureHigh ex ex.tRstH := by
  decide

theorem wit_NodeResetResult :
    (atNode (nd .bark 2 [])).nodeReady 0 (nd .bark 2 []) ∧
    ∃ t, exec .nodeReset (atNode (nd .bark 2 [])) = .next t := by
  exact ⟨by decide, ⟨_, rfl⟩⟩

theorem wit_NodeStepInHowlFaults :
    (atNode (nd .howl 0 [])).nodeReady 0 (nd .howl 0 []) ∧ (nd .howl 0 []).state = .howl ∧
    (∃ t, exec (.nodeStep .zero 0) (atNode (nd .alert 0 [])) = .next t) ∧
    (∀ n ∈ (atNode (nd .alert 0 [])).nodes, n.state ≠ .howl) := by
  exact ⟨by decide, by decide, ⟨_, rfl⟩, by decide⟩

theorem wit_NodeStepTimeoutComesFirst :
    (atNode (nd .bark 2 [])).nodeReady 0 (nd .bark 2 []) ∧ (nd .bark 2 []).state ≠ .howl ∧
    501 > (atNode (nd .bark 2 [])).cfg.nodeResetUs ∧
    500 ≤ (atNode (nd .bark 2 [])).cfg.nodeResetUs := by
  decide

theorem wit_NodeStepOnResetOrError :
    (atNode (nd .alert 0 [])).nodeReady 0 (nd .alert 0 []) ∧ (nd .alert 0 []).state ≠ .howl := by
  decide

theorem wit_NodeStepInRest :
    (atNode (nd .rest 0 [])).nodeReady 0 (nd .rest 0 []) ∧ (nd .rest 0 []).state = .rest ∧
    500 ≤ (atNode (nd .rest 0 [])).cfg.nodeResetUs ∧ (nd .rest 0 []).count = 0 := by
  decide

theorem wit_NodeStepTerminalSequence :
    (atNode (nd .alert 0 [])).nodeReady 0 (nd .alert 0 []) ∧ (nd .alert 0 []).state = .alert ∧
    500 ≤ (atNode (nd .alert 0 [])).cfg.nodeResetUs := by
  decide

theorem wit_NodeStepHeader :
    (atNode (nd .alert 0 [])).nodeReady 0 (nd .alert 0 []) ∧ (nd .alert 0 []).state = .alert ∧
    0 ≤ (atNode (nd .alert 0 [])).cfg.nodeResetUs := by
  decide

/-- The last bit of a group, and one before it. -/
theorem wit_NodeStepInBark :
    ((atNode (nd .bark 1 [])).nodeReady 0 (nd .bark 1 []) ∧ (nd .bark 1 []).state = .bark ∧
      1 ≤ (nd .bark 1 []).count ∧ 500 ≤ (atNode (nd .bark 1 [])).cfg.nodeResetUs) ∧
    ((atNode (nd .bark 2 [])).nodeReady 0 (nd .bark 2 []) ∧ (nd .bark 2 []).state = .bark ∧
      1 ≤ (nd .bark 2 []).count ∧ 500 ≤ (atNode (nd .bark 2 [])).cfg.nodeResetUs) := by
  decide

/-- A clock one below the last reading, and one equal to it on an empty and on a filled ring. -/
theorem wit_NodePollResult :
    (∃ n : NodeRec, (atNode n).nodeReady 0 n ∧ 99 < n.lastUs ∧ n.lastUs ≤ 100 ∧
      n.sh.rx.rb.size = 0) ∧
    (∃ n : NodeRec, (atNode n).nodeReady 0 n ∧ n.lastUs ≤ 100 ∧ 0 < n.sh.rx.rb.size ∧
      n.sh.rx.rb.slots[n.sh.rx.rb.head]? = some 24) := by
  exact ⟨⟨{ nd .rest 0 [] with lastUs := 100 }, by decide⟩,
    ⟨{ nd .rest 0 [24] with lastUs := 100 }, by decide⟩⟩

/-- The empty frame, and one payload, in one piece; three payloads that drain bit by bit; and the empty
frame with an expiry that finds the ring empty, and with all the room in the ring filled. -/
theorem wit_NodeFrameLaw :
    configOk State.reset.cfg = true ∧ lowsFit State.reset.cfg ∧
    State.reset.nodes[0]? = some (nd .rest 0 []) ∧ (nd .rest 0 []).sh.faults.halted = false ∧
    (nd .rest 0 []).sh.wf State.reset.cfg ∧ (nd .rest 0 []).sh.tx.bulkOpen = false ∧
    (nd .rest 0 []).state = .rest ∧ (nd .rest 0 []).sh.endsLow ex ∧
    ∀ x ∈ [([], [(500, 0), (500, 0)]), ([1], List.replicate 5 (40, 0)),
        ([1, 0, 1], List.replicate 11 (500, 2)), ([], [(0, 3), (0, 9)]), ([], [(0, 0), (0, 11)])],
      x.2.length = (frameBits State.reset.cfg x.1).length ∧
      (∀ r ∈ x.2, r.1 ≤ State.reset.cfg.nodeResetUs) ∧
      hasRoom State.reset.cfg.txCap (nd .rest 0 []).sh.tx.rb.size
        (List.zip (List.replicate ((frameBits State.reset.cfg x.1).length - 1) 2 ++
          [2 * (State.reset.cfg.k + 3)]) (x.2.map Prod.snd)) = true := by
  decide

theorem wit_CoordResetResult :
    State.reset.coordReady ∧ ∃ t, exec .coordReset State.reset = .next t := by
  exact ⟨by decide, ⟨_, rfl⟩⟩

theorem wit_CoordReseedResult : State.reset.coordReady := by decide

theorem wit_CoordFeedInRest : State.reset.coordReady ∧ State.reset.coord.state = .rest := by decide

/-- A ring with no node, and the last one a frame can hold. -/
theorem wit_CoordFeedCompletes :
    ∀ id ∈ [(-1 : Int), 7],
      (withC { sup .good [] with state := .alert, wolfId := id }).coordReady ∧
      (withC { sup .good [] with state := .alert, wolfId := id }).coord.state = .alert ∧
      -1 ≤ (withC { sup .good [] with state := .alert, wolfId := id }).coord.wolfId := by
  decide

theorem wit_CoordFeedHeader :
    (∃ s : State, s.coordReady ∧ s.coord.state = .alert ∧ s.coord.wolfId + 1 ≥ s.cfg.maxNodes) ∧
    (∃ s : State, s.coordReady ∧ s.coord.state = .alert ∧ s.coord.wolfId + 1 = (7 : Nat) ∧
      7 < s.cfg.maxNodes) := by
  exact ⟨⟨withC { sup .good [] with state := .alert, wolfId := 7 }, by decide⟩,
    ⟨withC { sup .good [] with state := .alert, wolfId := 6 }, by decide⟩⟩

theorem wit_CoordFeedPayloadBit :
    ∃ s : State, s.coordReady ∧ s.coord.state = .readKBits ∧ s.coord.count > 1 ∧
      s.coord.wolfId = (7 : Nat) ∧ s.coord.writeBuf[7]? = some 0 := by
  exact ⟨withC { sup .good [] with state := .readKBits, wolfId := 7, count := 2 }, by decide⟩

theorem wit_CoordFeedSeparator :
    ∃ s : State, s.coordReady ∧ s.coord.state = .readKBits ∧ s.coord.count = 1 := by
  exact ⟨withC { sup .good [] with state := .readKBits, wolfId := 0, count := 1 }, by decide⟩

/-- A full chain and one node too many; the first and the last bit that returns CONTINUE. -/
theorem wit_CoordDecodeLaw :
    configOk State.reset.cfg = true ∧ State.reset.coord.sh.faults.halted = false ∧
    State.reset.coord.buffersWf State.reset.cfg ∧
    ((∀ p ∈ List.replicate 8 1, p < 2 ^ State.reset.cfg.k) ∧
      (List.replicate 8 1).length ≤ State.reset.cfg.maxNodes ∧
      25 = 1 + min (List.replicate 8 1).length State.reset.cfg.maxNodes * (State.reset.cfg.k + 2)) ∧
    ((∀ p ∈ List.replicate 9 1, p < 2 ^ State.reset.cfg.k) ∧
      State.reset.cfg.maxNodes < (List.replicate 9 1).length) := by
  decide

theorem wit_WdInitResult : State.reset.coordReady := by decide

/-- Just before the deadline and on it, in every state. -/
theorem wit_WdPollTimeout :
    ∀ w ∈ [WdState.good, .cooldown, .reset],
      (withC (sup w [])).coordReady ∧ (withC (sup w [])).coord.sh.rx.rb.size = 0 ∧
      999 < (withC (sup w [])).coord.wdDeadline ∧ ¬ 1000 < (withC (sup w [])).coord.wdDeadline := by
  decide

theorem wit_WdPollSymbolOutsideGood :
    ∃ popped : Shared,
      (∀ w ∈ [WdState.cooldown, .reset], ∀ c ∈ [39, 40],
        (withC (sup w [c])).coordReady ∧ 0 < (withC (sup w [c])).coord.sh.rx.rb.size ∧
        (withC (sup w [c])).coord.sh.rx.rb.slots[(withC (sup w [c])).coord.sh.rx.rb.head]? = some c ∧
        (withC (sup w [c])).coord.wdState = w) ∧
      popped =
        { (withC (sup .reset [40])).coord.sh with
          rx :=
            { (withC (sup .reset [40])).coord.sh.rx with
              rb :=
                { (withC (sup .reset [40])).coord.sh.rx.rb with
                  head := ((withC (sup .reset [40])).coord.sh.rx.rb.head + 1) %
                    (withC (sup .reset [40])).cfg.rxCap
                  size := (withC (sup .reset [40])).coord.sh.rx.rb.size - 1 } } } ∧
      classify ex 40 = .reset ∧ classify ex 39 ≠ .reset := by
  exact ⟨_, by decide, rfl, by decide, by decide⟩

/-- GOOD with a capture just below the lowest band (ERROR), one just inside the highest (RESET), a bit
that goes on and one that is out of place. -/
theorem wit_WdPollSymbolInGood :
    (∀ c ∈ [3, 40, 24, 8],
      (withC (sup .good [c])).coordReady ∧ 0 < (withC (sup .good [c])).coord.sh.rx.rb.size ∧
      (withC (sup .good [c])).coord.sh.rx.rb.slots[(withC (sup .good [c])).coord.sh.rx.rb.head]? =
        some c ∧
      (withC (sup .good [c])).coord.wdState = .good) ∧
    classify ex 3 = .error ∧ classify ex 40 = .reset ∧ classify ex 24 = symOfBit true ∧
    classify ex 8 = symOfBit false ∧
    (∃ popped fed, popped =
      { (withC (sup .good [24])).coord.sh with
        rx :=
          { (withC (sup .good [24])).coord.sh.rx with
            rb :=
              { (withC (sup .good [24])).coord.sh.rx.rb with
                head := ((withC (sup .good [24])).coord.sh.rx.rb.head + 1) %
                  (withC (sup .good [24])).cfg.rxCap
                size := (withC (sup .good [24])).coord.sh.rx.rb.size - 1 } } } ∧
      coordFeed ex true { (withC (sup .good [24])).coord with sh := popped } = (.continuing, fed)) ∧
    (∃ popped fed, popped =
      { (withC (sup .good [8])).coord.sh with
        rx :=
          { (withC (sup .good [8])).coord.sh.rx with
            rb :=
              { (withC (sup .good [8])).coord.sh.rx.rb with
                head := ((withC (sup .good [8])).coord.sh.rx.rb.head + 1) %
                  (withC (sup .good [8])).cfg.rxCap
                size := (withC (sup .good [8])).coord.sh.rx.rb.size - 1 } } } ∧
      coordFeed ex false { (withC (sup .good [8])).coord with sh := popped } =
        (.resyncError, fed)) := by
  exact ⟨by decide, by decide, by decide, by decide, by decide, ⟨_, _, rfl, rfl⟩, ⟨_, _, rfl, rfl⟩⟩

/-- With the HOWL alone in the ring, and with an entry behind it. -/
theorem wit_WdPollCompletesACycle :
    ∀ vs ∈ [[8], [8, 24]],
      (withC { sup .good vs with state := .alert, wolfId := 2 }).coordReady ∧
      (withC { sup .good vs with state := .alert, wolfId := 2 }).coord.buffersWf ex ∧
      0 < (withC { sup .good vs with state := .alert, wolfId := 2 }).coord.sh.rx.rb.size ∧
      (withC { sup .good vs with state := .alert, wolfId := 2 }).coord.sh.rx.rb.slots[
        (withC { sup .good vs with state := .alert, wolfId := 2 }).coord.sh.rx.rb.head]? = some 8 ∧
      (withC { sup .good vs with state := .alert, wolfId := 2 }).coord.wdState = .good ∧
      (withC { sup .good vs with state := .alert, wolfId := 2 }).coord.state = .alert ∧
      (withC { sup .good vs with state := .alert, wolfId := 2 }).coord.wolfId + 1 = (3 : Nat) ∧
      classify (withC { sup .good vs with state := .alert, wolfId := 2 }).cfg 8 =
        symOfBit (!(withC { sup .good vs with state := .alert, wolfId := 2 }).cfg.growlBit) := by
  decide

theorem wit_OneTimeoutPerMissedDeadline :
    ∀ w ∈ [WdState.good, .reset],
      (withC (sup w [])).coordReady ∧ (withC (sup w [])).coord.sh.rx.rb.size = 0 ∧
      ((withC (sup w [])).coord.wdState = .good ∨ (withC (sup w [])).coord.wdState = .reset) ∧
      (withC (sup w [])).coord.wdDeadline ≤ 1000 ∧
      1000 ≤ 1999 ∧ 1999 < 1000 + (withC (sup w [])).cfg.patienceUs := by
  decide

/-- An operation that is neither; a poll that publishes nothing; and one that publishes. -/
theorem wit_ConsumersSeeOnlyCompletedCycles :
    (∀ n, Instr.coordReset ≠ .dbPublish n) ∧ (∀ now, Instr.coordReset ≠ .wdPoll now) ∧
    (∃ t, exec .coordReset State.reset = .next t) ∧
    (∃ t, exec (.wdPoll 1010) (withC (sup .cooldown [])) = .next t) ∧
    (∃ t, exec (.wdPoll 1010) (withC { sup .good [8] with state := .alert }) = .next t) ∧
    (withC { sup .good [8] with state := .alert }).coord.buffersWf ex ∧
    (withC { sup .good [8] with state := .alert }).publishes (.wdPoll 1010) = true ∧
    (withC { sup .good [24] with state := .alert }).publishes (.wdPoll 1010) = false := by
  exact ⟨fun _ h => (nomatch h), fun _ h => (nomatch h), ⟨_, rfl⟩, ⟨_, rfl⟩, ⟨_, rfl⟩, by decide,
    by decide, by decide⟩

theorem wit_DbPublishResult :
    State.reset.coordReady ∧ State.reset.coord.buffersWf State.reset.cfg ∧
    8 ≤ State.reset.cfg.maxNodes ∧ 9 > State.reset.cfg.maxNodes := by
  decide

theorem wit_ConsumerQueriesResult :
    State.reset.coordReady ∧ State.reset.coord.buffersWf State.reset.cfg := by
  decide

/-- Equal snapshots, and snapshots that differ in the last byte. -/
theorem wit_DebounceLaws :
    (∃ t, exec (.dbPublish 8) State.reset = .next t) ∧
    State.reset.coord.buffersWf State.reset.cfg ∧
    State.reset.coord.writeBuf = State.reset.coord.readBuf ∧
    (∃ s t : State, exec (.dbPublish 8) s = .next t ∧ s.coord.buffersWf s.cfg ∧
      s.coord.writeBuf[7]? = some 1 ∧ s.coord.readBuf[7]? = some 0) := by
  exact ⟨⟨_, rfl⟩, by decide, by decide,
    ⟨withC { sup .good [] with kb0 := [0, 0, 0, 0, 0, 0, 0, 1] }, _, rfl, by decide, by decide,
      by decide⟩⟩

theorem wit_BootEndsInACleanLaunch : configOk ex = true ∧ configOk { ex with k := 8, txCap := 32 } = true := by
  decide

theorem wit_InvariantHoldsAtReset : configOk ex = true := by decide

theorem wit_EveryStepKeepsTheInvariant :
    (placed (.clockAdvance 5)).Inv ∧ ∃ t, step (placed (.clockAdvance 5)) = .next t := by
  exact ⟨⟨by decide, ⟨by decide, by decide, by decide⟩, by decide⟩, ⟨_, rfl⟩⟩

end Sys2Proof.Tests
end

section
/-! PROOFS. Captured values and their bands (00_scope.md R10, 41_rx_codec.md R173, 60_exceptions.md
R330): a pulse that lies `JITTER` inside its band is captured as a value of that band. -/

namespace Sys2Proof.Machine

variable {cfg : Config} {w v lo hi : Nat}

/-- The thresholds of R10 stand in a well-formed configuration (R6). -/
theorem configThresholds_of_configOk (h : configOk cfg = true) : ConfigThresholds cfg := by
  obtain ⟨-, -, -, hthr⟩ := of_decide_eq_true h
  exact hthr

/-! ### The values of a capture that cannot wrap (R331) -/

theorem captureLow_of_lt (h : w + cfg.jitter < 2 ^ cfg.capBits) :
    captureLow cfg w = w - cfg.jitter :=
  if_neg (Nat.not_le.mpr h)

theorem captureHigh_of_lt (h : w + cfg.jitter < 2 ^ cfg.capBits) :
    captureHigh cfg w = w + cfg.jitter :=
  if_neg (Nat.not_le.mpr h)

/-- A pulse at least `JITTER` away from both ends of the band `[lo, hi)` is captured inside the band:
since the band lies within the counter's range, the capture does not wrap. -/
theorem captured_mem_band (hlo : lo + cfg.jitter ≤ w) (hhi : w + cfg.jitter < hi)
    (hcap : hi ≤ 2 ^ cfg.capBits) (hl : captureLow cfg w ≤ v) (hh : v ≤ captureHigh cfg w) :
    lo ≤ v ∧ v < hi := by
  have hfit : w + cfg.jitter < 2 ^ cfg.capBits := Nat.lt_of_lt_of_le hhi hcap
  rw [captureLow_of_lt hfit] at hl
  rw [captureHigh_of_lt hfit] at hh
  omega

/-! ### The bands of `classify` (R173) -/

theorem classify_eq_zero (hlo : cfg.rxMin ≤ v) (hhi : v < cfg.rxSplit) :
    classify cfg v = .zero := by
  rw [classify, if_neg (by omega), if_pos hhi]

theorem classify_eq_one (hms : cfg.rxMin < cfg.rxSplit) (hlo : cfg.rxSplit ≤ v)
    (hhi : v < cfg.rxMax) : classify cfg v = .one := by
  rw [classify, if_neg (by omega), if_neg (by omega), if_pos hhi]

theorem classify_eq_reset (hms : cfg.rxMin < cfg.rxSplit) (hsm : cfg.rxSplit < cfg.rxMax)
    (hlo : cfg.rxMax ≤ v) : classify cfg v = .reset := by
  rw [classify, if_neg (by omega), if_neg (by omega), if_neg (by omega)]

/-! ### Each pulse lies inside its band -/

/-- R10 puts each bit's high period `JITTER` inside the bit's band. -/
theorem classify_of_bit_capture (hthr : ConfigThresholds cfg) (b : Bit)
    (hl : captureLow cfg (highTime cfg b) ≤ v) (hh : v ≤ captureHigh cfg (highTime cfg b)) :
    classify cfg v = symOfBit b := by
  obtain ⟨hms, hsm, h0lo, h0hi, h1lo, h1hi, hrlo, hrcap, -⟩ := hthr
  cases b with
  | false =>
    obtain ⟨hlo, hhi⟩ := captured_mem_band (w := cfg.t0h) h0lo h0hi (by omega) hl hh
    exact classify_eq_zero hlo hhi
  | true =>
    obtain ⟨hlo, hhi⟩ := captured_mem_band (w := cfg.t1h) h1lo h1hi (by omega) hl hh
    exact classify_eq_one hms hlo hhi

/-- The reset band has no upper threshold: it ends with the counter's range. -/
theorem classify_of_reset_capture (hthr : ConfigThresholds cfg)
    (hl : captureLow cfg cfg.tRstH ≤ v) (hh : v ≤ captureHigh cfg cfg.tRstH) :
    classify cfg v = .reset := by
  obtain ⟨hms, hsm, -, -, -, -, hrlo, hrcap, -⟩ := hthr
  obtain ⟨hlo, -⟩ := captured_mem_band hrlo hrcap le_rfl hl hh
  exact classify_eq_reset hms hsm hlo

end Sys2Proof.Machine

open Sys2Proof.Machine

/-- Settles O27: R10 puts each pulse `JITTER` inside its band, and a capture differs from its pulse
by at most `JITTER`. -/
theorem capturesClassifyAsSent : Obligations.CapturesClassifyAsSent := by
  intro cfg v hok
  have hthr := configThresholds_of_configOk hok
  exact ⟨fun b => classify_of_bit_capture hthr b, classify_of_reset_capture hthr⟩

end

section
/-! PROOFS. What an operation can do to the agents' records (R20, R312, R329), said once over all
operations as `RecordChange`; from it the clock (R33), the fault record (R31) and the meeting of
agents on the links alone. -/

namespace Sys2Proof.Machine

/-! ### Recorded faults stay recorded (R31) -/

/-- Every code recorded in `a` is recorded in `b`. -/
structure FaultsKept (a b : Shared) : Prop where
  has_of_has : ∀ c : FaultCode, a.faults.has c = true → b.faults.has c = true

theorem FaultsKept.of_eq {a b : Shared} (h : b.faults = a.faults) : FaultsKept a b := by
  refine ⟨fun c hc => ?_⟩
  rwa [h]

theorem FaultsKept.refl (a : Shared) : FaultsKept a a := .of_eq rfl

theorem FaultsKept.trans {a b c : Shared} (h : FaultsKept a b) (k : FaultsKept b c) :
    FaultsKept a c := ⟨fun x hx => k.has_of_has x (h.has_of_has x hx)⟩

theorem raise_faultsKept (sh : Shared) (c : FaultCode) : FaultsKept sh (sh.raise c) := by
  refine ⟨fun d hd => ?_⟩
  simp [hd]

/-! ### The codecs -/

section Codecs

variable (cfg : Config) (sh : Shared)

theorem txSchedule_faultsKept (level : Level) (dur : Nat) :
    FaultsKept sh (txSchedule cfg level dur sh) := by
  obtain ⟨-, e⟩ | ⟨-, -, e⟩ | ⟨-, -, -, e⟩ | ⟨-, -, rb, -, e⟩ := txSchedule_cases cfg level dur sh
  · rw [e]; exact raise_faultsKept ..
  · rw [e]; exact raise_faultsKept ..
  · rw [e]; exact raise_faultsKept ..
  · rw [e]; exact .of_eq rfl

theorem txBulkBegin_faultsKept : FaultsKept sh (txBulkBegin sh) := by
  unfold txBulkBegin
  split
  · exact raise_faultsKept ..
  · exact .of_eq rfl

theorem txBulkSchedule_faultsKept (level : Level) (dur : Nat) :
    FaultsKept sh (txBulkSchedule cfg level dur sh) := by
  obtain ⟨-, e⟩ | ⟨-, -, e⟩ | ⟨-, -, -, e⟩ | ⟨-, -, -, e⟩ := txBulkSchedule_cases cfg level dur sh
  · rw [e]; exact raise_faultsKept ..
  · rw [e]; exact raise_faultsKept ..
  · rw [e]; exact raise_faultsKept ..
  · rw [e]; exact .of_eq rfl

theorem txBulkEnd_faultsKept : FaultsKept sh (txBulkEnd sh) := by
  cases h : sh.tx.bulkOpen with
  | false => simp only [txBulkEnd, h, Bool.not_false, ↓reduceIte]; exact raise_faultsKept ..
  | true => rw [txBulkEnd_open h]; exact .of_eq rfl

theorem foldl_txBulkSchedule_faultsKept (ps : List TxPair) :
    FaultsKept sh (ps.foldl (fun x p => txBulkSchedule cfg p.level p.dur x) sh) := by
  induction ps generalizing sh with
  | nil => exact .refl sh
  | cons p ps ih => exact (txBulkSchedule_faultsKept cfg sh _ _).trans (ih _)

theorem sendPairs_faultsKept (ps : List TxPair) : FaultsKept sh (sendPairs cfg ps sh) :=
  (txBulkBegin_faultsKept sh).trans
    ((foldl_txBulkSchedule_faultsKept cfg _ ps).trans (txBulkEnd_faultsKept _))

theorem sendBits_faultsKept (bits : List Bit) : FaultsKept sh (sendBits cfg bits sh) :=
  sendPairs_faultsKept ..

theorem sendReset_faultsKept : FaultsKept sh (sendReset cfg sh) := sendPairs_faultsKept ..

theorem sendFrameStart_faultsKept : FaultsKept sh (sendFrameStart cfg sh) :=
  sendPairs_faultsKept ..

@[simp] theorem txExpiry_faults : (txExpiry cfg sh).faults = sh.faults := by
  obtain h | h := Nat.eq_zero_or_pos sh.tx.rb.size
  · rw [txExpiry_idle cfg h]
  · rw [txExpiry_pop cfg h]

theorem rxCapture_faultsKept (value : Nat) : FaultsKept sh (rxCapture cfg value sh) := by
  obtain ⟨-, e⟩ | ⟨rb, -, e⟩ := rxCapture_cases cfg value sh
  · rw [e]; exact raise_faultsKept ..
  · rw [e]; exact .of_eq rfl

@[simp] theorem rxTake_faults : (rxTake cfg sh).2.faults = sh.faults := rfl

theorem rxReceiveBit_faultsKept : FaultsKept sh (rxReceiveBit cfg sh) := by
  unfold rxReceiveBit
  split
  · exact raise_faultsKept ..
  · exact .of_eq rfl

end Codecs

/-! ### The node automaton -/

section Node

variable (cfg : Config) (n : NodeRec) (draws : Nat)

theorem nodeBit_faultsKept (b : Bit) : FaultsKept n.sh (nodeBit cfg b n draws).1.sh := by
  unfold nodeBit
  split
  case h_1 =>
    split
    · exact sendBits_faultsKept ..
    · exact .refl _
  case h_2 =>
    split
    · exact sendBits_faultsKept ..
    · exact sendBits_faultsKept ..
  case h_3 => exact sendBits_faultsKept ..
  case h_4 => exact .refl _

theorem nodeStep_faultsKept (sym : Sym) (elapsed : Nat) :
    FaultsKept n.sh (nodeStep cfg sym elapsed n draws).1.sh := by
  unfold nodeStep
  split
  case isTrue => exact raise_faultsKept ..
  case isFalse =>
    have hm : (if elapsed > cfg.nodeResetUs then nodeReset n else n).sh = n.sh := by
      split <;> rfl
    rw [← hm]
    cases sym with
    | reset => exact sendReset_faultsKept ..
    | error => exact .refl _
    | zero => exact nodeBit_faultsKept ..
    | one => exact nodeBit_faultsKept ..

theorem nodePoll_faultsKept (now : Nat) :
    FaultsKept n.sh (nodePoll cfg now n draws).1.sh := by
  unfold nodePoll
  split
  · exact raise_faultsKept ..
  · split
    · exact (FaultsKept.of_eq (rxTake_faults cfg n.sh)).trans
        (nodeStep_faultsKept cfg { n with sh := (rxTake cfg n.sh).2, lastUs := now } draws _ _)
    · exact .refl _

end Node

/-! ### The coordinator automaton and the supervisor -/

section Coordinator

variable (cfg : Config) (c : CoordRec)

@[simp] theorem coordReseed_sh : (coordReseed cfg c).sh = c.sh := by
  simp [coordReseed]

@[simp] theorem dbPublish_sh (n : Nat) : (dbPublish cfg n c).sh = c.sh := by
  simp [dbPublish]

/-- COORD_FEED leaves the coordinator's codecs, link and fault record alone (R232). -/
@[simp] theorem coordFeed_sh (bit : Bit) : (coordFeed cfg bit c).2.sh = c.sh := by
  unfold coordFeed
  split
  case h_1 => unfold feedRest; split <;> rfl
  case h_2 =>
    split
    · rfl
    · unfold feedHeader; split <;> simp [feedResync]
  case h_3 =>
    split
    · simp [feedPayload]
    · unfold feedSeparator; split <;> rfl

theorem enterReset_faultsKept : FaultsKept c.sh (enterReset cfg c).sh := sendReset_faultsKept ..

theorem startCycle_faultsKept : FaultsKept c.sh (startCycle cfg c).sh := by
  rw [← coordReseed_sh cfg c]
  exact sendFrameStart_faultsKept ..

theorem wdComplete_faultsKept (n : Nat) : FaultsKept c.sh (wdComplete cfg n c).sh := by
  rw [← dbPublish_sh cfg c n]
  unfold wdComplete
  dsimp only
  split
  · exact enterReset_faultsKept ..
  · exact startCycle_faultsKept ..

theorem wdFeed_faultsKept (bit : Bit) : FaultsKept c.sh (wdFeed cfg bit c).sh := by
  rw [← coordFeed_sh cfg c bit]
  unfold wdFeed
  dsimp only
  split
  · exact .refl _
  · exact enterReset_faultsKept ..
  · exact wdComplete_faultsKept ..

theorem wdGood_faultsKept (sym : Sym) : FaultsKept c.sh (wdGood cfg sym c).sh := by
  cases sym with
  | reset => exact .refl _
  | error => exact .refl _
  | zero => exact wdFeed_faultsKept ..
  | one => exact wdFeed_faultsKept ..

theorem wdSymbol_faultsKept (sym : Sym) : FaultsKept c.sh (wdSymbol cfg sym c).sh := by
  unfold wdSymbol
  split
  case h_1 => exact wdGood_faultsKept ..
  case h_2 => exact .refl _
  case h_3 =>
    split
    · exact startCycle_faultsKept ..
    · exact .refl _

theorem wdTimeout_faultsKept : FaultsKept c.sh (wdTimeout cfg c).sh := by
  unfold wdTimeout
  split
  · exact enterReset_faultsKept ..
  · exact enterReset_faultsKept ..
  · exact sendReset_faultsKept ..

theorem wdPoll_faultsKept (now : Nat) : FaultsKept c.sh (wdPoll cfg now c).sh := by
  unfold wdPoll
  split
  · exact (FaultsKept.of_eq (rxTake_faults cfg c.sh)).trans
      (wdSymbol_faultsKept cfg { c with sh := (rxTake cfg c.sh).2 } _)
  · split
    · exact wdTimeout_faultsKept ..
    · exact .refl _

end Coordinator

/-! ### What an operation can do to the agents' records -/

/-- All the ways an operation `i` taken in `s` changes the records of the agents: it writes its own
agent's codec part, or its own agent's whole record; a TX_EXPIRY that makes the line rise also
restarts the downstream agent's capture counter (R170); an RX_CAPTURE also takes the oldest pulse of
the link it listens to (R172, R330). Its own agent keeps its recorded faults in each of them. -/
inductive RecordChange (s : State) : Instr → State → Prop
  | codec {i : Instr} {sh sh' : Shared} (ha : s.shared? s.cur = some sh) (hf : FaultsKept sh sh') :
      RecordChange s i (s.putShared s.cur sh')
  | node {i : Instr} {j draws : Nat} {n m : NodeRec} (hc : s.cur = .node j)
      (hn : s.nodes[j]? = some n) (hf : FaultsKept n.sh m.sh) :
      RecordChange s i { s.putNode j m with draws := draws }
  | coordinator {i : Instr} {c : CoordRec} (hc : s.cur = .coordinator)
      (hf : FaultsKept s.coord.sh c.sh) : RecordChange s i (s.putCoord c)
  | risingEdge {sh sh' d : Shared} (ha : s.shared? s.cur = some sh) (hf : FaultsKept sh sh')
      (hd : (s.putShared s.cur sh').shared? (downstream s.nodes.length s.cur) = some d) :
      RecordChange s .txExpiry
        ((s.putShared s.cur sh').putShared (downstream s.nodes.length s.cur) (d.setCounter 0))
  | capture {value w : Nat} {rest : List Nat} {up sh sh' : Shared}
      (hu : s.shared? (s.upstreamOf s.cur) = some up) (hl : up.link = w :: rest)
      (hs : (s.putShared (s.upstreamOf s.cur) { up with link := rest }).shared? s.cur = some sh)
      (hf : FaultsKept sh sh') :
      RecordChange s (.rxCapture value)
        ((s.putShared (s.upstreamOf s.cur) { up with link := rest }).putShared s.cur sh')

section Exec

variable {s t : State} {i : Instr}

theorem onShared_recordChange {f : Shared → Shared} (h : onShared s f = .next t)
    (hf : ∀ sh, FaultsKept sh (f sh)) : RecordChange s i t := by
  obtain ⟨sh, ⟨-, ha, -⟩, rfl⟩ := onShared_next h
  exact .codec ha (hf sh)

theorem onNode_recordChange {f : NodeRec → Nat → NodeRec × Nat} (h : onNode s f = .next t)
    (hf : ∀ n draws, FaultsKept n.sh (f n draws).1.sh) :
    RecordChange s i t := by
  obtain ⟨j, n, ⟨-, hc, hn, -⟩, rfl⟩ := onNode_next h
  exact .node hc hn (hf n s.draws)

theorem onCoord_recordChange {f : CoordRec → CoordRec} (h : onCoord s f = .next t)
    (hf : ∀ c, FaultsKept c.sh (f c).sh) : RecordChange s i t := by
  obtain ⟨⟨-, hc, -⟩, rfl⟩ := onCoord_next h
  exact .coordinator hc (hf s.coord)

theorem execTxExpiry_recordChange (h : execTxExpiry s = .next t) : RecordChange s .txExpiry t := by
  obtain ⟨sh, ⟨-, ha, -⟩, -, ⟨-, rfl⟩ | ⟨-, d, hd, rfl⟩⟩ := execTxExpiry_next h
  · exact .codec ha (.of_eq (txExpiry_faults s.cfg sh))
  · exact .risingEdge ha (.of_eq (txExpiry_faults s.cfg sh)) hd

theorem execRxCapture_recordChange {value : Nat} (h : execRxCapture value s = .next t) :
    RecordChange s (.rxCapture value) t := by
  obtain ⟨-, up, w, rest, sh, -, hu, hl, -, -, hs, rfl⟩ := execRxCapture_next h
  exact .capture hu hl hs (rxCapture_faultsKept ..)

theorem execDbPublish_recordChange {n : Nat} (h : execDbPublish n s = .next t) :
    RecordChange s i t := by
  obtain ⟨⟨-, hc, -⟩, hk⟩ := withCoord_next h
  split at hk
  case isTrue => cases hk
  case isFalse =>
    cases hk
    exact .coordinator hc (.of_eq (by simp))

theorem exec_recordChange (h : exec i s = .next t) : RecordChange s i t := by
  cases i with
  | txSchedule level dur => exact onShared_recordChange h fun _ => txSchedule_faultsKept ..
  | txBulkBegin => exact onShared_recordChange h txBulkBegin_faultsKept
  | txBulkSchedule level dur =>
    exact onShared_recordChange h fun _ => txBulkSchedule_faultsKept ..
  | txBulkEnd => exact onShared_recordChange h txBulkEnd_faultsKept
  | txExpiry => exact execTxExpiry_recordChange h
  | rxCapture value => exact execRxCapture_recordChange h
  | rxBitsAvailable => exact onShared_recordChange h fun _ => .of_eq rfl
  | rxReceiveBit => exact onShared_recordChange h (rxReceiveBit_faultsKept s.cfg)
  | nodeStep sym elapsed => exact onNode_recordChange h fun _ _ => nodeStep_faultsKept ..
  | nodeReset => exact onNode_recordChange h fun _ _ => .of_eq rfl
  | nodePoll now => exact onNode_recordChange h fun _ _ => nodePoll_faultsKept ..
  | coordFeed bit =>
    have hx : execCoordFeed bit s = .next t := h
    exact onCoord_recordChange hx fun _ => .of_eq (by simp)
  | coordReset => exact onCoord_recordChange h fun _ => .of_eq rfl
  | coordReseed => exact onCoord_recordChange h fun _ => .of_eq (by simp)
  | wdInit now => exact onCoord_recordChange h fun _ => .of_eq rfl
  | wdPoll now => exact onCoord_recordChange h fun _ => wdPoll_faultsKept ..
  | dbPublish n => exact execDbPublish_recordChange h
  | dbLatestSnapshot =>
    have hx : execDbLatestSnapshot s = .next t := h
    exact onCoord_recordChange hx fun _ => .of_eq rfl
  | dbEdgeEvents =>
    have hx : execDbEdgeEvents s = .next t := h
    exact onCoord_recordChange hx fun _ => .of_eq rfl

end Exec

/-! ### The clock, the configuration and the ring (R33, R6, R328) -/

section Fixed

variable {s t : State} {i : Instr}

theorem RecordChange.now_eq (h : RecordChange s i t) : t.now = s.now := by
  cases h <;> simp

theorem RecordChange.cfg_eq (h : RecordChange s i t) : t.cfg = s.cfg := by
  cases h <;> simp

theorem RecordChange.nodes_length_eq (h : RecordChange s i t) :
    t.nodes.length = s.nodes.length := by
  cases h <;> simp

theorem runCounters_nodes_length (s : State) :
    (runCounters s).nodes.length = s.nodes.length := freeNodeCounters_length ..

end Fixed

/-! ### The fault records of all agents (R31) -/

/-- Every agent of `s` is one of `t`, with every code it has recorded in `s`. -/
def AllFaultsKept (s t : State) : Prop :=
  ∀ (a : AgentId) (sh : Shared), s.shared? a = some sh →
    ∃ sh', t.shared? a = some sh' ∧ FaultsKept sh sh'

section AllFaults

variable {s t r : State} {i : Instr}

theorem AllFaultsKept.trans (h : AllFaultsKept s t) (k : AllFaultsKept t r) :
    AllFaultsKept s r := by
  intro a sh ha
  obtain ⟨sh', ha', hf⟩ := h a sh ha
  obtain ⟨sh'', ha'', hf'⟩ := k a sh' ha'
  exact ⟨sh'', ha'', hf.trans hf'⟩

theorem putShared_allFaultsKept {a : AgentId} {sh sh' : Shared} (ha : s.shared? a = some sh)
    (hf : FaultsKept sh sh') : AllFaultsKept s (s.putShared a sh') := by
  intro b x hb
  rw [State.shared?_putShared]
  split
  case isTrue e =>
    subst e
    rw [ha] at hb
    cases hb
    exact ⟨sh', by simp [ha], hf⟩
  case isFalse => exact ⟨x, hb, .refl x⟩

theorem putNode_allFaultsKept {j : Nat} {n m : NodeRec} (hn : s.nodes[j]? = some n)
    (hf : FaultsKept n.sh m.sh) : AllFaultsKept s (s.putNode j m) := by
  intro b x hb
  cases b with
  | coordinator => exact ⟨x, hb, .refl x⟩
  | node k =>
    by_cases e : j = k
    · subst e
      obtain ⟨hlt, -⟩ := List.getElem?_eq_some_iff.mp hn
      simp only [State.shared?_node, hn, Option.map_some, Option.some.injEq] at hb
      subst hb
      exact ⟨m.sh, by simp [hlt], hf⟩
    · exact ⟨x, by simpa [e] using hb, .refl x⟩

theorem putCoord_allFaultsKept {c : CoordRec} (hf : FaultsKept s.coord.sh c.sh) :
    AllFaultsKept s (s.putCoord c) := by
  intro b x hb
  cases b with
  | coordinator =>
    cases hb
    exact ⟨c.sh, rfl, hf⟩
  | node k => exact ⟨x, hb, .refl x⟩

theorem runCounters_allFaultsKept (s : State) : AllFaultsKept s (runCounters s) := by
  intro a sh ha
  obtain ⟨y, -, hr⟩ := (runCounters_ranTo s).shared? ha
  exact ⟨_, hr, .of_eq (Shared.setCounter_faults ..)⟩

theorem RecordChange.allFaultsKept (h : RecordChange s i t) : AllFaultsKept s t := by
  cases h with
  | codec ha hf => exact putShared_allFaultsKept ha hf
  | node hc hn hf => exact putNode_allFaultsKept hn hf
  | coordinator hc hf => exact putCoord_allFaultsKept hf
  | risingEdge ha hf hd =>
    exact (putShared_allFaultsKept ha hf).trans
      (putShared_allFaultsKept hd (.of_eq (Shared.setCounter_faults ..)))
  | capture hu hl hs hf =>
    refine (putShared_allFaultsKept hu ?_).trans (putShared_allFaultsKept hs hf)
    exact .of_eq rfl

theorem step_allFaultsKept (h : step s = .next t) : AllFaultsKept s t := by
  obtain ⟨-, d, x, es, rfl⟩ | ⟨a, i, ctx, x, es, -, hx⟩ := step_taken h
  · exact runCounters_allFaultsKept s
  · exact (runCounters_allFaultsKept s).trans (exec_recordChange hx).allFaultsKept

theorem powerOn_noFault (cfg : Config) (n clock : Nat) : (State.powerOn cfg n clock).noFault := by
  refine ⟨rfl, fun m hm => ?_⟩
  rw [List.eq_of_mem_replicate hm]
  rfl

end AllFaults

/-! ### The codec parts of the other agents (R20, R329) -/

section Frames

variable {s t r : State} {i : Instr} {a : AgentId}

theorem State.shared?_putShared_ne {b : AgentId} (sh : Shared) (h : a ≠ b) :
    (s.putShared b sh).shared? a = s.shared? a := by
  rw [State.shared?_putShared, if_neg h.symm]

theorem State.shared?_putNode_ne {j : Nat} (m : NodeRec) (h : a ≠ .node j) :
    (s.putNode j m).shared? a = s.shared? a := by
  cases a with
  | coordinator => rfl
  | node k =>
    have e : j ≠ k := fun e => h (by rw [e])
    simp [e]

theorem State.shared?_putCoord_ne (c : CoordRec) (h : a ≠ .coordinator) :
    (s.putCoord c).shared? a = s.shared? a := by
  cases a with
  | coordinator => exact absurd rfl h
  | node k => rfl

/-- Of another agent an operation changes the link it captures from or the counter it restarts, and
nothing else. -/
theorem RecordChange.shared?_other {sh : Shared} (h : RecordChange s i t) (hne : a ≠ s.cur)
    (ha : s.shared? a = some sh) :
    t.shared? a = some sh ∨
      ((∃ v, i = .rxCapture v) ∧ a = s.upstreamOf s.cur ∧
        ∃ w rest, sh.link = w :: rest ∧ t.shared? a = some { sh with link := rest }) ∨
      (i = .txExpiry ∧ a = downstream s.nodes.length s.cur ∧
        t.shared? a = some (sh.setCounter 0)) := by
  cases h with
  | codec hs hf => exact .inl (by rw [State.shared?_putShared_ne _ hne, ha])
  | node hc hn hf => exact .inl ((State.shared?_putNode_ne _ (hc ▸ hne)).trans ha)
  | coordinator hc hf => exact .inl (by rw [State.shared?_putCoord_ne _ (hc ▸ hne), ha])
  | @risingEdge _ sh' d hs hf hd =>
    by_cases e : a = downstream s.nodes.length s.cur
    · rw [← e] at hd ⊢
      have hx := hd
      rw [State.shared?_putShared_ne _ hne, ha] at hx
      cases hx
      exact .inr (.inr ⟨rfl, rfl, State.shared?_putShared_self _ hd⟩)
    · exact .inl (by rw [State.shared?_putShared_ne _ e, State.shared?_putShared_ne _ hne, ha])
  | @capture v w rest up _ _ hu hl hs hf =>
    rw [State.shared?_putShared_ne _ hne]
    by_cases e : a = s.upstreamOf s.cur
    · rw [← e] at hu ⊢
      rw [ha] at hu
      cases hu
      exact .inr (.inl ⟨⟨v, rfl⟩, rfl, w, rest, hl, State.shared?_putShared_self _ ha⟩)
    · exact .inl (by rw [State.shared?_putShared_ne _ e, ha])

/-! ### The automata of the other agents (R20, R312) -/

/-- `t` differs from `s` in the agents' codec parts alone, as far as the agents' records go. -/
def CodecsOnly (s t : State) : Prop :=
  t.coord = { s.coord with sh := t.coord.sh } ∧
  ∀ (j : Nat) (n : NodeRec), s.nodes[j]? = some n → ∃ sh, t.nodes[j]? = some { n with sh := sh }

theorem CodecsOnly.trans (h : CodecsOnly s t) (k : CodecsOnly t r) : CodecsOnly s r := by
  obtain ⟨hc, hn⟩ := h
  obtain ⟨kc, kn⟩ := k
  refine ⟨by rw [kc, hc], fun j n hj => ?_⟩
  obtain ⟨sh, ht⟩ := hn j n hj
  exact kn j { n with sh := sh } ht

theorem putShared_codecsOnly (s : State) (a : AgentId) (sh : Shared) :
    CodecsOnly s (s.putShared a sh) := by
  cases a with
  | coordinator => exact ⟨rfl, fun j n hj => ⟨n.sh, hj⟩⟩
  | node k =>
    refine ⟨rfl, fun j n hj => ?_⟩
    by_cases e : k = j
    · exact ⟨sh, by simp [State.putShared, e, hj]⟩
    · exact ⟨n.sh, by simp [State.putShared, e, hj]⟩

/-- An operation that writes more of a record than the codec part writes its own agent's. -/
theorem RecordChange.codecsOnly_or_own (h : RecordChange s i t) :
    CodecsOnly s t ∨ (∃ j m, s.cur = .node j ∧ t.coord = s.coord ∧ t.nodes = s.nodes.set j m) ∨
      (s.cur = .coordinator ∧ t.nodes = s.nodes) := by
  cases h with
  | codec ha hf => exact .inl (putShared_codecsOnly ..)
  | node hc hn hf => exact .inr (.inl ⟨_, _, hc, rfl, rfl⟩)
  | coordinator hc hf => exact .inr (.inr ⟨hc, rfl⟩)
  | risingEdge ha hf hd => exact .inl ((putShared_codecsOnly ..).trans (putShared_codecsOnly ..))
  | capture hu hl hs hf => exact .inl ((putShared_codecsOnly ..).trans (putShared_codecsOnly ..))

theorem RecordChange.coord_other (h : RecordChange s i t) (hne : s.cur ≠ .coordinator) :
    t.coord = { s.coord with sh := t.coord.sh } := by
  obtain ⟨hc, -⟩ | ⟨j, m, -, hc, -⟩ | ⟨hc, -⟩ := h.codecsOnly_or_own
  · exact hc
  · rw [hc]
  · exact absurd hc hne

theorem RecordChange.node_other {j : Nat} {n m : NodeRec} (h : RecordChange s i t)
    (hne : s.cur ≠ .node j) (hn : s.nodes[j]? = some n) (hm : t.nodes[j]? = some m) :
    m = { n with sh := m.sh } := by
  obtain ⟨-, hk⟩ | ⟨k, x, hc, -, hk⟩ | ⟨-, hk⟩ := h.codecsOnly_or_own
  · obtain ⟨sh, ht⟩ := hk j n hn
    rw [ht] at hm
    cases hm
    rfl
  · have e : k ≠ j := fun e => hne (by rw [hc, e])
    rw [hk, List.getElem?_set_ne e, hn] at hm
    cases hm
    rfl
  · rw [hk, hn] at hm
    cases hm
    rfl

end Frames

end Sys2Proof.Machine

open Sys2Proof.Machine

/-- Settles O8: an operation changes records alone, and before it the counters alone have run on; a
clock advance adds to the clock. -/
theorem clockIsMonotonic : Obligations.ClockIsMonotonic := by
  refine ⟨fun s t h => ?_, fun i s t h => (exec_recordChange h).now_eq⟩
  obtain ⟨-, d, x, es, rfl⟩ | ⟨a, i, ctx, x, es, -, hx⟩ := step_taken h
  · exact ⟨Nat.le_add_right .., rfl, runCounters_nodes_length s⟩
  · have hr := exec_recordChange hx
    exact ⟨hr.now_eq.ge, hr.cfg_eq, hr.nodes_length_eq.trans (runCounters_nodes_length s)⟩

/-- Settles O12: every code written to a fault record is added to it, in the operation's own agent;
the other agents' fault records stay. -/
theorem faultsAreNeverRemoved : Obligations.FaultsAreNeverRemoved := by
  refine ⟨powerOn_noFault, fun s t a sh h ha => ?_⟩
  obtain ⟨sh', ha', hf⟩ := step_allFaultsKept h a sh ha
  exact ⟨sh', ha', hf.has_of_has⟩

/-- Settles O13, from the five ways in which an operation changes records. -/
theorem agentsMeetOnlyOnLinks : Obligations.AgentsMeetOnlyOnLinks := by
  intro i s t h
  have hr := exec_recordChange h
  exact ⟨fun _ _ hne ha => hr.shared?_other hne ha, hr.coord_other,
    fun _ _ _ hne hn hm => hr.node_other hne hn hm⟩

end

section
/-! PROOFS. The machine's invariant (R65, R61, R24, R27): the automata and the supervisor keep their
records well formed, every operation keeps the invariant, and so does every step. The codecs' part
stands in the laws of the invariant. -/

namespace Sys2Proof.Machine

/-! ### The node automaton (R23, R24) -/

section Node

variable {cfg : Config} {n : NodeRec}

/-- A node's codec part and its last clock may be replaced without a look at its automaton. -/
theorem NodeRec.wf_withShared {sh : Shared} (now : Nat) (hsh : sh.wf cfg) (h : n.wf cfg) :
    NodeRec.wf cfg { n with sh := sh, lastUs := now } := ⟨hsh, h.2⟩

theorem NodeRec.count_eq_zero (h : n.wf cfg) (hb : n.state ≠ .bark) : n.count = 0 := by
  obtain ⟨-, -, -, hiff⟩ := h
  have : ¬ 1 ≤ n.count := fun hc => hb (hiff.mpr hc)
  omega

theorem nodeReset_wf (h : n.wf cfg) : (nodeReset n).wf cfg := by
  obtain ⟨hsh, -⟩ := h
  exact ⟨hsh, by simp, by simp, by simp⟩

/-- The terminal sequence passes through HOWL and leaves it (R24, R205). -/
theorem nodeTerminal_wf (x : Nat) (h : n.wf cfg) : (nodeTerminal cfg x n).wf cfg :=
  nodeReset_wf (NodeRec.wf_withShared n.lastUs (sendBits_wf _ h.1) h)

/-- A bit moves the automaton between REST, ALERT and BARK; the count is `K + 1` on entering BARK
and BARK is left when it reaches 0 (R204 to R207). -/
theorem nodeBit_wf (b : Bit) (draws : Nat) (h : n.wf cfg) : (nodeBit cfg b n draws).1.wf cfg := by
  have ⟨hsh, hhowl, hle, _⟩ := h
  cases hs : n.state with
  | rest =>
    have h0 : n.count = 0 := n.count_eq_zero h (by simp [hs])
    simp only [nodeBit, hs]
    split
    · exact ⟨sendBits_wf _ hsh, by simp, hle, by simp [h0]⟩
    · exact h
  | alert =>
    simp only [nodeBit, hs]
    split
    · exact nodeTerminal_wf _ h
    · exact ⟨sendBits_wf _ hsh, by simp, le_rfl, by simp⟩
  | howl => exact absurd hs hhowl
  | bark =>
    simp only [nodeBit, hs]
    refine ⟨sendBits_wf _ hsh, ?_, ?_, ?_⟩
    · dsimp only; split <;> simp
    · dsimp only; omega
    · by_cases hl : n.count - 1 = 0
      · simp [hl]
      · simp only [hl, ↓reduceIte, true_iff]; omega

theorem nodeStep_wf (sym : Sym) (elapsed draws : Nat) (h : n.wf cfg) :
    (nodeStep cfg sym elapsed n draws).1.wf cfg := by
  unfold nodeStep
  split
  case isTrue hs => exact absurd hs h.2.1
  case isFalse =>
    have hm : (if elapsed > cfg.nodeResetUs then nodeReset n else n).wf cfg := by
      split
      · exact nodeReset_wf h
      · exact h
    cases sym with
    | reset => exact nodeReset_wf (NodeRec.wf_withShared _ (sendReset_wf hm.1) hm)
    | error => exact nodeReset_wf hm
    | zero => exact nodeBit_wf _ _ hm
    | one => exact nodeBit_wf _ _ hm

theorem nodePoll_wf (now draws : Nat) (h : n.wf cfg) : (nodePoll cfg now n draws).1.wf cfg := by
  unfold nodePoll
  split
  · exact NodeRec.wf_withShared _ (Shared.wf_raise _ h.1) h
  · split
    case isTrue ha =>
      have hpos : 0 < n.sh.rx.rb.size := by simpa [Ring.avail] using ha
      exact nodeStep_wf _ _ _ (NodeRec.wf_withShared now (rxTake_wf hpos h.1) h)
    case isFalse => exact h

end Node

/-! ### The coordinator automaton and the debounce buffers (R25, R27, R30) -/

section Coordinator

variable {cfg : Config} {c : CoordRec}

@[simp] theorem memWrite_length (buf : List Byte) (i : Int) (v : Byte) :
    (memWrite buf i v).length = buf.length := by
  unfold memWrite
  split <;> simp

theorem CoordRec.writeBuf_length (h : c.buffersWf cfg) : c.writeBuf.length = cfg.maxNodes := by
  obtain ⟨h0, h1, -⟩ := h
  cases hs : c.sel <;> simpa [CoordRec.writeBuf, hs]

theorem CoordRec.putKb_buffersWf {buf : List Byte} (b : Bit) (hl : buf.length = cfg.maxNodes)
    (h : c.buffersWf cfg) : (c.putKb b buf).buffersWf cfg := by
  obtain ⟨h0, h1, he, hr⟩ := h
  cases b with
  | false => exact ⟨hl, h1, he, hr⟩
  | true => exact ⟨h0, hl, he, hr⟩

theorem CoordRec.putKb_wf {buf : List Byte} (b : Bit) (hl : buf.length = cfg.maxNodes)
    (h : c.wf cfg) : (c.putKb b buf).wf cfg := by
  obtain ⟨hsh, hau, hbuf⟩ := h
  exact ⟨by simpa using hsh, by simpa [CoordRec.automatonWf] using hau,
    CoordRec.putKb_buffersWf b hl hbuf⟩

/-- A byte written to the write-role buffer keeps the record well formed (R72). -/
theorem CoordRec.wf_writeByte (i : Int) (v : Byte) (h : c.wf cfg) :
    (c.putKb c.sel (memWrite c.writeBuf i v)).wf cfg :=
  CoordRec.putKb_wf _ (by rw [memWrite_length, CoordRec.writeBuf_length h.2.2]) h

/-- The coordinator's codec part may be replaced without a look at the rest of its record. -/
theorem CoordRec.wf_withShared {sh : Shared} (hsh : sh.wf cfg) (h : c.wf cfg) :
    CoordRec.wf cfg { c with sh := sh } := ⟨hsh, h.2⟩

theorem CoordRec.count_eq_zero (h : c.automatonWf cfg) (hk : c.state ≠ .readKBits) :
    c.count = 0 := by
  obtain ⟨-, -, -, -, -, hiff⟩ := h
  have : ¬ 1 ≤ c.count := fun hc => hk (hiff.mpr hc)
  omega

theorem coordReset_wf (h : c.wf cfg) : (coordReset c).wf cfg := by
  obtain ⟨hsh, -, hbuf⟩ := h
  refine ⟨hsh, ?_, hbuf⟩
  simp only [CoordRec.automatonWf, coordReset_state, coordReset_wolfId, coordReset_count]
  exact ⟨le_rfl, by omega, by omega, by simp, by simp, by simp⟩

theorem coordReseed_wf (h : c.wf cfg) : (coordReseed cfg c).wf cfg :=
  CoordRec.putKb_wf _ List.length_replicate (coordReset_wf h)

theorem dbPublish_wf {k : Nat} (hk : k ≤ cfg.maxNodes) (h : c.wf cfg) :
    (dbPublish cfg k c).wf cfg := by
  obtain ⟨hsh, hau, h0, h1, -, -⟩ := CoordRec.putKb_wf (!c.sel) List.length_replicate h
  exact ⟨hsh, hau, h0, h1, by simp [dbPublish, edgeVector], hk⟩

/-- What COORD_FEED answers: a well-formed record, and with COMPLETE a count in `0..MAX_NODES`
(R109, R234). -/
structure FedWf (cfg : Config) (fed : FeedResult × CoordRec) : Prop where
  count_le : ∀ k, fed.1 = .complete k → k ≤ cfg.maxNodes
  record_wf : fed.2.wf cfg

theorem FedWf.continuing (h : c.wf cfg) : FedWf cfg (.continuing, c) :=
  ⟨fun _ hk => (nomatch hk), h⟩

theorem feedResync_fedWf (h : c.wf cfg) : FedWf cfg (feedResync c) :=
  ⟨fun _ hk => (nomatch hk), coordReset_wf h⟩

theorem feedRest_fedWf (bit : Bit) (h : c.wf cfg) (hs : c.state = .rest) :
    FedWf cfg (feedRest cfg bit c) := by
  unfold feedRest
  split
  · obtain ⟨hsh, hau, hbuf⟩ := h
    have h0 : c.count = 0 := CoordRec.count_eq_zero hau (by simp [hs])
    obtain ⟨hlo, hhi, hle, -⟩ := hau
    exact .continuing ⟨hsh, ⟨hlo, hhi, hle, by simp, by simp, by simp [h0]⟩, hbuf⟩
  · exact feedResync_fedWf h

theorem feedHowl_fedWf (h : c.wf cfg) : FedWf cfg (feedHowl c) := by
  refine ⟨fun k hk => ?_, coordReset_wf h⟩
  obtain ⟨-, ⟨-, hhi, -⟩, -⟩ := h
  cases hk
  omega

/-- A header within the range opens the next byte: the guard keeps `wolf_id` below MAX_NODES
(R235). -/
theorem feedHeader_fedWf (h : c.wf cfg) : FedWf cfg (feedHeader cfg c) := by
  unfold feedHeader
  split
  case isTrue => exact feedResync_fedWf h
  case isFalse hlt =>
    have ⟨_, ⟨hlo, _⟩, _⟩ := h
    obtain ⟨hsh, -, hbuf⟩ := CoordRec.wf_writeByte (c.wolfId + 1) 0 h
    refine .continuing ⟨hsh, ⟨?_, ?_, le_rfl, by simp, fun _ => ?_, by simp⟩, hbuf⟩ <;>
      dsimp only <;> omega

/-- A payload bit leaves a count of at least 1 (R236). -/
theorem feedPayload_fedWf (bit : Bit) (h : c.wf cfg) (hs : c.state = .readKBits)
    (hc : 1 < c.count) : FedWf cfg (feedPayload bit c) := by
  have ⟨_, ⟨hlo, hhi, hle, _, hid, _⟩, _⟩ := h
  obtain ⟨hsh, -, hbuf⟩ := CoordRec.wf_writeByte c.wolfId
    ((memRead c.writeBuf c.wolfId <<< 1) ||| BitVec.ofNat 8 bit.toNat) h
  refine .continuing ⟨hsh, ?_, hbuf⟩
  simp only [CoordRec.automatonWf, CoordRec.putKb_wolfId, CoordRec.putKb_state, hs]
  exact ⟨hlo, hhi, by omega, by simp, fun _ => hid hs, by simp only [true_iff]; omega⟩

theorem feedSeparator_fedWf (bit : Bit) (h : c.wf cfg) : FedWf cfg (feedSeparator cfg bit c) := by
  unfold feedSeparator
  split
  · obtain ⟨hsh, ⟨hlo, hhi, -⟩, hbuf⟩ := h
    exact .continuing ⟨hsh, ⟨hlo, hhi, by simp, by simp, by simp, by simp⟩, hbuf⟩
  · exact feedResync_fedWf h

theorem coordFeed_fedWf (bit : Bit) (h : c.wf cfg) : FedWf cfg (coordFeed cfg bit c) := by
  unfold coordFeed
  split
  case h_1 hs => exact feedRest_fedWf bit h hs
  case h_2 =>
    split
    · exact feedHowl_fedWf h
    · exact feedHeader_fedWf h
  case h_3 hs =>
    split
    case isTrue hc => exact feedPayload_fedWf bit h hs hc
    case isFalse => exact feedSeparator_fedWf bit h

/-! ### The supervisor (44_supervisor.md) -/

theorem wdInit_wf (now : Nat) (h : c.wf cfg) : (wdInit cfg now c).wf cfg :=
  coordReset_wf (c := c) h

theorem fallBack_wf (h : c.wf cfg) : (fallBack c).wf cfg := coordReset_wf (c := c) h

theorem enterReset_wf (h : c.wf cfg) : (enterReset cfg c).wf cfg :=
  CoordRec.wf_withShared (sendReset_wf h.1) (coordReset_wf h)

theorem startCycle_wf (h : c.wf cfg) : (startCycle cfg c).wf cfg :=
  have hr := coordReseed_wf h
  CoordRec.wf_withShared (sendFrameStart_wf hr.1) hr

theorem wdComplete_wf {k : Nat} (hk : k ≤ cfg.maxNodes) (h : c.wf cfg) :
    (wdComplete cfg k c).wf cfg := by
  have hp := dbPublish_wf hk h
  unfold wdComplete
  dsimp only
  split
  · exact enterReset_wf hp
  · exact startCycle_wf hp

theorem wdFeed_wf (bit : Bit) (h : c.wf cfg) : (wdFeed cfg bit c).wf cfg := by
  obtain ⟨hcount, hfed⟩ := coordFeed_fedWf bit h
  unfold wdFeed
  dsimp only
  split
  case h_1 => exact hfed
  case h_2 => exact enterReset_wf hfed
  case h_3 k hk => exact wdComplete_wf (hcount k hk) hfed

theorem wdGood_wf (sym : Sym) (h : c.wf cfg) : (wdGood cfg sym c).wf cfg := by
  cases sym with
  | reset => exact fallBack_wf h
  | error => exact fallBack_wf h
  | zero => exact wdFeed_wf _ h
  | one => exact wdFeed_wf _ h

theorem wdSymbol_wf (sym : Sym) (h : c.wf cfg) : (wdSymbol cfg sym c).wf cfg := by
  unfold wdSymbol
  split
  case h_1 => exact wdGood_wf sym h
  case h_2 => exact h
  case h_3 =>
    split
    · exact startCycle_wf h
    · exact fallBack_wf h

theorem wdTimeout_wf (h : c.wf cfg) : (wdTimeout cfg c).wf cfg := by
  unfold wdTimeout
  split
  case h_1 => exact enterReset_wf h
  case h_2 => exact enterReset_wf h
  case h_3 => exact CoordRec.wf_withShared (sendReset_wf h.1) h

theorem rearm_wf (now : Nat) (h : c.wf cfg) : (rearm cfg now c).wf cfg := h

theorem wdPoll_wf (now : Nat) (h : c.wf cfg) : (wdPoll cfg now c).wf cfg := by
  unfold wdPoll
  split
  case isTrue ha =>
    have hpos : 0 < c.sh.rx.rb.size := by simpa [Ring.avail] using ha
    exact rearm_wf now (wdSymbol_wf _ (CoordRec.wf_withShared (rxTake_wf hpos h.1) h))
  case isFalse =>
    split
    · exact rearm_wf now (wdTimeout_wf h)
    · exact h

end Coordinator

/-! ### The records in the state (R20, R328) -/

section System

variable {s t : State} {a : AgentId}

theorem State.Inv.coord_wf (h : s.Inv) : s.coord.wf s.cfg := h.2.1

theorem State.Inv.node_wf {i : Nat} {n : NodeRec} (h : s.Inv) (hn : s.nodes[i]? = some n) :
    n.wf s.cfg := h.2.2 n (List.mem_of_getElem? hn)

theorem State.Inv.shared_wf {sh : Shared} (h : s.Inv) (ha : s.shared? a = some sh) :
    sh.wf s.cfg := by
  cases a with
  | coordinator => cases ha; exact h.coord_wf.1
  | node i =>
    simp only [State.shared?_node, Option.map_eq_some_iff] at ha
    obtain ⟨n, hn, rfl⟩ := ha
    exact (h.node_wf hn).1

theorem State.Inv.putNode {i : Nat} {n : NodeRec} (h : s.Inv) (hn : n.wf s.cfg) :
    (s.putNode i n).Inv := by
  obtain ⟨hc, hcoord, hnodes⟩ := h
  refine ⟨hc, hcoord, fun m hm => ?_⟩
  obtain hm | rfl := List.mem_or_eq_of_mem_set hm
  · exact hnodes m hm
  · exact hn

theorem State.Inv.putCoord {c : CoordRec} (h : s.Inv) (hw : c.wf s.cfg) : (s.putCoord c).Inv :=
  ⟨h.1, hw, h.2.2⟩

theorem State.Inv.putShared {sh : Shared} (h : s.Inv) (hsh : sh.wf s.cfg) :
    (s.putShared a sh).Inv := by
  obtain ⟨hc, hcoord, hnodes⟩ := h
  cases a with
  | coordinator => exact ⟨hc, CoordRec.wf_withShared hsh hcoord, hnodes⟩
  | node i =>
    refine ⟨hc, hcoord, fun m hm => ?_⟩
    obtain ⟨j, hj⟩ := List.mem_iff_getElem?.mp hm
    simp only [State.putShared, List.getElem?_modify, Option.map_eq_map,
      Option.map_eq_some_iff] at hj
    obtain ⟨n, hn, rfl⟩ := hj
    have hwf := hnodes n (List.mem_of_getElem? hn)
    split
    · exact NodeRec.wf_withShared n.lastUs hsh hwf
    · exact hwf

/-! ### Every operation keeps the invariant -/

theorem onShared_inv {f : Shared → Shared} (h : onShared s f = .next t) (hi : s.Inv)
    (hf : ∀ {sh : Shared}, sh.wf s.cfg → (f sh).wf s.cfg) : t.Inv := by
  obtain ⟨sh, ⟨-, ha, -⟩, rfl⟩ := onShared_next h
  exact hi.putShared (hf (hi.shared_wf ha))

theorem onNode_inv {f : NodeRec → Nat → NodeRec × Nat} (h : onNode s f = .next t) (hi : s.Inv)
    (hf : ∀ {n : NodeRec} {draws : Nat}, n.wf s.cfg → (f n draws).1.wf s.cfg) : t.Inv := by
  obtain ⟨i, n, ⟨-, -, hn, -⟩, rfl⟩ := onNode_next h
  exact hi.putNode (hf (hi.node_wf hn))

theorem onCoord_inv {f : CoordRec → CoordRec} (h : onCoord s f = .next t) (hi : s.Inv)
    (hf : ∀ {c : CoordRec}, c.wf s.cfg → (f c).wf s.cfg) : t.Inv := by
  obtain ⟨-, rfl⟩ := onCoord_next h
  exact hi.putCoord (hf hi.coord_wf)

theorem execTxExpiry_inv (h : execTxExpiry s = .next t) (hi : s.Inv) : t.Inv := by
  obtain ⟨sh, ⟨-, ha, -⟩, -, ⟨-, rfl⟩ | ⟨-, d, hd, rfl⟩⟩ := execTxExpiry_next h
  · exact hi.putShared (txExpiry_wf (hi.shared_wf ha))
  · have hdriven := hi.putShared (a := s.cur) (txExpiry_wf (hi.shared_wf ha))
    exact hdriven.putShared (Shared.wf_setCounter (Nat.two_pow_pos _) (hdriven.shared_wf hd))

/-- Every value that a capture can give has CAP_BITS bits (R330). -/
theorem captureHigh_lt (cfg : Config) (w : Nat) : captureHigh cfg w < 2 ^ cfg.capBits := by
  have : 0 < 2 ^ cfg.capBits := Nat.two_pow_pos _
  unfold captureHigh
  split <;> omega

theorem execRxCapture_inv {value : Nat} (h : execRxCapture value s = .next t) (hi : s.Inv) :
    t.Inv := by
  obtain ⟨-, up, w, rest, sh, -, hu, -, -, hhi, hs, rfl⟩ := execRxCapture_next h
  have hdrained := hi.putShared (a := s.upstreamOf s.cur) (Shared.wf_link rest (hi.shared_wf hu))
  refine hdrained.putShared ?_
  rw [State.putShared_cfg]
  refine rxCapture_wf (Nat.lt_of_le_of_lt hhi (captureHigh_lt ..)) ?_
  simpa using hdrained.shared_wf hs

theorem execDbPublish_inv {k : Nat} (h : execDbPublish k s = .next t) (hi : s.Inv) : t.Inv := by
  obtain ⟨-, hk⟩ := withCoord_next h
  split at hk
  case isTrue => cases hk
  case isFalse hle =>
    cases hk
    exact hi.putCoord (dbPublish_wf (Nat.le_of_not_gt hle) hi.coord_wf)

theorem exec_inv {i : Instr} (h : exec i s = .next t) (hi : s.Inv) : t.Inv := by
  cases i with
  | txSchedule level dur => exact onShared_inv h hi (txSchedule_wf level dur)
  | txBulkBegin => exact onShared_inv h hi txBulkBegin_wf
  | txBulkSchedule level dur => exact onShared_inv h hi (txBulkSchedule_wf level dur)
  | txBulkEnd => exact onShared_inv h hi txBulkEnd_wf
  | txExpiry => exact execTxExpiry_inv h hi
  | rxCapture value => exact execRxCapture_inv h hi
  | rxBitsAvailable => exact onShared_inv h hi (Shared.wf_answer _)
  | rxReceiveBit => exact onShared_inv h hi rxReceiveBit_wf
  | nodeStep sym elapsed => exact onNode_inv h hi (nodeStep_wf sym elapsed _)
  | nodeReset => exact onNode_inv h hi nodeReset_wf
  | nodePoll now => exact onNode_inv h hi (nodePoll_wf now _)
  | coordFeed bit =>
    have hx : execCoordFeed bit s = .next t := h
    exact onCoord_inv hx hi fun hc => (coordFeed_fedWf bit hc).record_wf
  | coordReset => exact onCoord_inv h hi coordReset_wf
  | coordReseed => exact onCoord_inv h hi coordReseed_wf
  | wdInit now => exact onCoord_inv h hi (wdInit_wf now)
  | wdPoll now => exact onCoord_inv h hi (wdPoll_wf now)
  | dbPublish k => exact execDbPublish_inv h hi
  | dbLatestSnapshot =>
    have hx : execDbLatestSnapshot s = .next t := h
    exact onCoord_inv hx hi id
  | dbEdgeEvents =>
    have hx : execDbEdgeEvents s = .next t := h
    exact onCoord_inv hx hi id

end System

end Sys2Proof.Machine

open Sys2Proof.Machine

/-- Settles O60: the capture counters run on within their range, a clock advance touches no record,
and every operation keeps the invariant. -/
theorem everyStepKeepsTheInvariant : Obligations.EveryStepKeepsTheInvariant := by
  intro s t hi h
  have hran := State.Inv_runCounters hi
  obtain ⟨-, d, x, es, rfl⟩ | ⟨a, i, ctx, x, es, -, hx⟩ := step_taken h
  · exact hran
  · exact exec_inv hx hran

end

section
/-! PROOFS. The RX ring as a first-in first-out queue (R70): what a capture and a receive do to
`Shared.rxQueue`. -/

namespace Sys2Proof.Machine

variable {cfg : Config} {sh : Shared}

/-- A capture that finds room joins the end of the queue (R66, R172). -/
theorem rxCapture_rxQueue (v : Nat) (h : sh.rx.wf cfg) (hroom : sh.rx.rb.size < cfg.rxCap) :
    (rxCapture cfg v sh).rxQueue cfg = sh.rxQueue cfg ++ [v] := by
  obtain ⟨hfull, -⟩ | ⟨rb, hp, e⟩ := rxCapture_cases cfg v sh
  · omega
  · rw [e]
    exact Ring.entries_push 0 h.1 hp

/-- The front of the ring is the first entry of the queue, and a pop leaves the others (R67). -/
theorem rxQueue_eq_front_cons (h : sh.rx.wf cfg) (hpos : 0 < sh.rx.rb.size) :
    sh.rxQueue cfg = rxFront sh.rx.rb :: (rxTake cfg sh).2.rxQueue cfg := by
  obtain ⟨m, hm⟩ : ∃ m, sh.rx.rb.size = m + 1 := ⟨sh.rx.rb.size - 1, by omega⟩
  have hpop : (sh.rx.rb.pop cfg.rxCap).size = m := by simp only [Ring.pop]; omega
  change sh.rx.rb.entries cfg.rxCap sh.rx.rb.size 0 = rxFront sh.rx.rb ::
    (sh.rx.rb.pop cfg.rxCap).entries cfg.rxCap (sh.rx.rb.pop cfg.rxCap).size 0
  rw [hpop, hm, Ring.entries_pop, rxFront, Ring.front_eq h.1 _ 0]

/-- A receive takes the first entry and returns its class (R175). -/
theorem rxReceiveBit_of_rxQueue {v : Nat} {vs : List Nat} (h : sh.rx.wf cfg)
    (hq : sh.rxQueue cfg = v :: vs) :
    (rxReceiveBit cfg sh).rxQueue cfg = vs ∧
      (rxReceiveBit cfg sh).ret = .sym (classify cfg v) := by
  have hsize : sh.rx.rb.size = vs.length + 1 := by
    simpa only [Ring.entries_length, List.length_cons] using congrArg List.length hq
  have hcons := rxQueue_eq_front_cons h (by omega)
  rw [hq, List.cons.injEq] at hcons
  obtain ⟨rfl, rfl⟩ := hcons
  rw [rxReceiveBit, if_neg (by omega)]
  exact ⟨rfl, rfl⟩

/-- Taking a pulse off a link leaves every agent's RX codec alone, also where the agent listens to
its own link (R328, R330). -/
theorem State.shared?_putShared_link_rx {s : State} {a u : AgentId} {sh up sh' : Shared}
    {l : List Nat} (ha : s.shared? a = some sh) (hu : s.shared? u = some up)
    (h : (s.putShared u { up with link := l }).shared? a = some sh') : sh'.rx = sh.rx := by
  rw [State.shared?_putShared] at h
  split at h
  case isTrue e =>
    subst e
    rw [hu] at ha h
    cases ha
    cases h
    rfl
  case isFalse =>
    rw [ha] at h
    cases h
    rfl

end Sys2Proof.Machine

open Sys2Proof.Machine

/-- Settles O26, by what one push and one pop do to the entries of a well-formed ring. -/
theorem rxRingIsAQueue : Obligations.RxRingIsAQueue := by
  refine ⟨fun s t sh sh' v h ha hw hroom ht => ?_, fun s t sh sh' v vs h ha hw hq ht => ?_⟩
  · obtain ⟨-, up, w, rest, x, -, hu, -, -, -, hx, rfl⟩ := execRxCapture_next h
    have hrx : x.rx = sh.rx := State.shared?_putShared_link_rx ha hu hx
    rw [State.shared?_putShared_self _ hx] at ht
    cases ht
    rw [rxCapture_rxQueue v (hrx ▸ hw.2) (hrx ▸ hroom), Shared.rxQueue, hrx]
  · obtain ⟨x, ⟨-, hx, -⟩, rfl⟩ := onShared_next h
    rw [ha] at hx
    cases hx
    rw [State.shared?_putShared_self _ ha] at ht
    cases ht
    exact rxReceiveBit_of_rxQueue hw.2 hq

end

section
/-! PROOFS. The written form of an operation (30_encoding.md R112 to R115): which reader `decode`
gives each selector, said once as `ReadBy`; from it the agreement of `decode` and `encode` and the
reserved selectors. -/

namespace Sys2Proof

/-! ### Arguments of one and two bits (R112, R108) -/

@[simp] theorem bitOfArg_toNat (b : Bit) : bitOfArg b.toNat = some b := by
  cases b <;> rfl

@[simp] theorem symOfArg_symNumber (y : Sym) : symOfArg (symNumber y) = some y := by
  cases y <;> rfl

theorem eq_toNat_of_bitOfArg {x : Nat} {b : Bit} (h : bitOfArg x = some b) : x = b.toNat := by
  unfold bitOfArg at h
  split at h <;> cases h <;> rfl

theorem eq_symNumber_of_symOfArg {x : Nat} {y : Sym} (h : symOfArg x = some y) :
    x = symNumber y := by
  unfold symOfArg at h
  split at h <;> cases h <;> rfl

/-! ### The readers of the formats (R112): what each accepts -/

section Readers

variable {args : List Nat} {j : Instr}

theorem decodeN_eq_ok {i : Instr} (h : decodeN args i = .ok j) : args = [] ∧ j = i := by
  unfold decodeN at h
  split at h
  case h_1 => cases h; exact ⟨rfl, rfl⟩
  case h_2 => cases h

theorem decodeLD_eq_ok {mk : Level → Nat → Instr} (h : decodeLD args mk = .ok j) :
    ∃ level dur, args = [level.toNat, dur] ∧ j = mk level dur := by
  unfold decodeLD at h
  split at h
  case h_1 l d =>
    split at h
    case h_1 level hl => cases h; exact ⟨level, d, by rw [eq_toNat_of_bitOfArg hl], rfl⟩
    case h_2 => cases h
  case h_2 => cases h

theorem decodeNumber_eq_ok {mk : Nat → Instr} (h : decodeNumber args mk = .ok j) :
    ∃ x, args = [x] ∧ j = mk x := by
  unfold decodeNumber at h
  split at h
  case h_1 x => cases h; exact ⟨x, rfl, rfl⟩
  case h_2 => cases h

theorem decodeSE_eq_ok {mk : Sym → Nat → Instr} (h : decodeSE args mk = .ok j) :
    ∃ sym elapsed, args = [symNumber sym, elapsed] ∧ j = mk sym elapsed := by
  unfold decodeSE at h
  split at h
  case h_1 y e =>
    split at h
    case h_1 sym hy => cases h; exact ⟨sym, e, by rw [eq_symNumber_of_symOfArg hy], rfl⟩
    case h_2 => cases h
  case h_2 => cases h

theorem decodeB_eq_ok {mk : Bit → Instr} (h : decodeB args mk = .ok j) :
    ∃ bit, args = [Bool.toNat bit] ∧ j = mk bit := by
  unfold decodeB at h
  split at h
  case h_1 x =>
    split at h
    case h_1 bit hb => cases h; exact ⟨bit, by rw [eq_toNat_of_bitOfArg hb], rfl⟩
    case h_2 => cases h
  case h_2 => cases h

end Readers

/-! ### What `decode` can do -/

/-- All the ways a word is read: the reader of a format, applied to the operation whose written form
has the word's selector and that format's arguments; or the refusal of the selector (R115). -/
inductive ReadBy (w : OpWord) : Except DecodeError Instr → Prop
  | n {i : Instr} (hop : (encode i).op = w.op) (hargs : (encode i).args = []) :
      ReadBy w (decodeN w.args i)
  | ld {mk : Level → Nat → Instr} (hop : ∀ l d, (encode (mk l d)).op = w.op)
      (hargs : ∀ l d, (encode (mk l d)).args = [l.toNat, d]) : ReadBy w (decodeLD w.args mk)
  | number {mk : Nat → Instr} (hop : ∀ x, (encode (mk x)).op = w.op)
      (hargs : ∀ x, (encode (mk x)).args = [x]) : ReadBy w (decodeNumber w.args mk)
  | se {mk : Sym → Nat → Instr} (hop : ∀ y e, (encode (mk y e)).op = w.op)
      (hargs : ∀ y e, (encode (mk y e)).args = [symNumber y, e]) : ReadBy w (decodeSE w.args mk)
  | b {mk : Bit → Instr} (hop : ∀ x, (encode (mk x)).op = w.op)
      (hargs : ∀ x, (encode (mk x)).args = [Bool.toNat x]) : ReadBy w (decodeB w.args mk)
  | reserved : ReadBy w (.error (.reservedSelector w.op))

/-- The alternatives of `decode` stand in the order of the operation map, grouped here by format. -/
theorem decode_readBy (w : OpWord) : ReadBy w (decode w) := by
  unfold decode
  split
  case h_1 h | h_3 h =>
    exact .ld (fun _ _ => BitVec.eq_of_toNat_eq h.symm) fun _ _ => rfl
  case h_9 h => exact .se (fun _ _ => BitVec.eq_of_toNat_eq h.symm) fun _ _ => rfl
  case h_12 h => exact .b (fun _ => BitVec.eq_of_toNat_eq h.symm) fun _ => rfl
  case h_6 h | h_11 h | h_15 h | h_16 h | h_17 h =>
    exact .number (fun _ => BitVec.eq_of_toNat_eq h.symm) fun _ => rfl
  case h_2 h | h_4 h | h_5 h | h_7 h | h_8 h | h_10 h | h_13 h | h_14 h | h_18 h | h_19 h =>
    exact .n (BitVec.eq_of_toNat_eq h.symm) rfl
  case h_20 => exact .reserved

/-! ### `decode` and `encode` -/

theorem OpWord.eq_of_op_of_args {v w : OpWord} (hop : v.op = w.op) (hargs : v.args = w.args) :
    v = w := by
  cases v; cases w; cases hop; cases hargs; rfl

theorem decode_encode (i : Instr) : decode (encode i) = .ok i := by
  cases i with
  | txSchedule level dur | txBulkSchedule level dur => simp [decode, encode, decodeLD]
  | nodeStep sym elapsed => simp [decode, encode, decodeSE]
  | coordFeed bit => simp [decode, encode, decodeB]
  | _ => rfl

theorem encode_of_decode {w : OpWord} {i : Instr} (h : decode w = .ok i) : encode i = w := by
  have hr := decode_readBy w
  rw [h] at hr
  generalize ho : (Except.ok i : Except DecodeError Instr) = o at hr
  cases hr with
  | n hop hargs =>
    obtain ⟨ha, rfl⟩ := decodeN_eq_ok ho.symm
    exact OpWord.eq_of_op_of_args hop (hargs.trans ha.symm)
  | ld hop hargs =>
    obtain ⟨l, d, ha, rfl⟩ := decodeLD_eq_ok ho.symm
    exact OpWord.eq_of_op_of_args (hop l d) ((hargs l d).trans ha.symm)
  | number hop hargs =>
    obtain ⟨x, ha, rfl⟩ := decodeNumber_eq_ok ho.symm
    exact OpWord.eq_of_op_of_args (hop x) ((hargs x).trans ha.symm)
  | se hop hargs =>
    obtain ⟨y, e, ha, rfl⟩ := decodeSE_eq_ok ho.symm
    exact OpWord.eq_of_op_of_args (hop y e) ((hargs y e).trans ha.symm)
  | b hop hargs =>
    obtain ⟨x, ha, rfl⟩ := decodeB_eq_ok ho.symm
    exact OpWord.eq_of_op_of_args (hop x) ((hargs x).trans ha.symm)
  | reserved => cases ho

/-! ### The operation map (R114, R115) -/

open Laws.TableRow in
/-- Every operation has its row in the operation map. -/
theorem tableRow_of_instr : ∀ i : Instr, Statement i
  | .txSchedule level dur => txSchedule level dur
  | .txBulkBegin => txBulkBegin
  | .txBulkSchedule level dur => txBulkSchedule level dur
  | .txBulkEnd => txBulkEnd
  | .txExpiry => txExpiry
  | .rxCapture value => rxCapture value
  | .rxBitsAvailable => rxBitsAvailable
  | .rxReceiveBit => rxReceiveBit
  | .nodeStep sym elapsed => nodeStep sym elapsed
  | .nodeReset => nodeReset
  | .nodePoll now => nodePoll now
  | .coordFeed bit => coordFeed bit
  | .coordReset => coordReset
  | .coordReseed => coordReseed
  | .wdInit now => wdInit now
  | .wdPoll now => wdPoll now
  | .dbPublish n => dbPublish n
  | .dbLatestSnapshot => dbLatestSnapshot
  | .dbEdgeEvents => dbEdgeEvents

/-- No operation is written with a reserved selector. -/
theorem encode_op_ne_of_unlisted {op : BitVec 8} (h : rowOf op = none) (i : Instr) :
    (encode i).op ≠ op := by
  rintro rfl
  obtain ⟨row, hrow, -⟩ := tableRow_of_instr i
  rw [h] at hrow
  cases hrow

theorem decode_of_unlisted {w : OpWord} (h : rowOf w.op = none) :
    decode w = .error (.reservedSelector w.op) := by
  have hne := encode_op_ne_of_unlisted h
  have hr := decode_readBy w
  generalize decode w = o at hr ⊢
  cases hr with
  | n hop => exact absurd hop (hne _)
  | ld hop => exact absurd (hop false 0) (hne _)
  | number hop => exact absurd (hop 0) (hne _)
  | se hop => exact absurd (hop .zero 0) (hne _)
  | b hop => exact absurd (hop false) (hne _)
  | reserved => rfl

end Sys2Proof

open Sys2Proof Sys2Proof.Machine

/-- Settles O1: `decode` gives every written form its operation, and each of its readers accepts
only the arguments that `encode` writes. -/
theorem decodeAndEncodeAgree : Obligations.DecodeAndEncodeAgree :=
  ⟨decode_encode, fun _ _ => encode_of_decode⟩

/-- Settles O2: an unlisted selector is that of no operation, so only the refusal is left; a word
that spells an operation is its written form, whose row is in the map. -/
theorem reservedSelectorsSpellNoOperation : Obligations.ReservedSelectorsSpellNoOperation := by
  refine ⟨fun _ => decode_of_unlisted, fun s a ctx w rest hc hs hw => ?_, fun w i h => ?_⟩
  · rw [step_placed hc hs, runEvent, decode_of_unlisted hw]
  · rw [← encode_of_decode h]
    exact tableRow_of_instr i

/-- Settles O3: each sample word is the written form of its operation. -/
theorem sampleWordsDecode : Obligations.SampleWordsDecode :=
  ⟨decode_encode (.txSchedule true 24), decode_encode (.rxCapture 23),
    decode_encode (.nodeStep .reset 40), decode_encode (.coordFeed true),
    decode_encode (.wdPoll 1200), decode_encode (.dbPublish 3)⟩

end

section
/-! PROOFS. The admission of every operation (R116, R311, R312), said once as `AdmittedBy`: what an
operation does runs behind the check of its agent and of its context. -/

namespace Sys2Proof.Machine

/-! ### The refusals of the three admissions -/

section Refusals

variable {s : State}

theorem withShared_wrongContext {ctx : Context} (k : Shared → Host.Outcome State Fault Refusal)
    (h : s.ctx ≠ ctx) : withShared ctx s k = .refused .wrongContext := if_neg h

theorem withNode_wrongAgent (k : Nat → NodeRec → Host.Outcome State Fault Refusal)
    (h : s.cur = .coordinator) : withNode s k = .refused .wrongAgent := by
  simp [withNode, h]

theorem withCoord_wrongAgent {j : Nat} (k : CoordRec → Host.Outcome State Fault Refusal)
    (h : s.cur = .node j) : withCoord s k = .refused .wrongAgent := by
  simp [withCoord, h]

end Refusals

/-- The admission an operation passes in `s`, by the agent and context columns of R114. -/
inductive AdmittedBy (s : State) (i : Instr) : Host.Outcome State Fault Refusal → Prop
  | shared (k : Shared → Host.Outcome State Fault Refusal) (hk : agentKindOf i = .both) :
      AdmittedBy s i (withShared (contextOf i) s k)
  | node (k : Nat → NodeRec → Host.Outcome State Fault Refusal) (hk : agentKindOf i = .node)
      (hc : contextOf i = .main) : AdmittedBy s i (withNode s k)
  | coordinator (k : CoordRec → Host.Outcome State Fault Refusal)
      (hk : agentKindOf i = .coordinator) (hc : contextOf i = .main) :
      AdmittedBy s i (withCoord s k)

theorem onCoord_admittedBy {s : State} {i : Instr} (f : CoordRec → CoordRec)
    (hk : agentKindOf i = .coordinator) (hc : contextOf i = .main) :
    AdmittedBy s i (onCoord s f) := .coordinator _ hk hc

theorem exec_admittedBy (i : Instr) (s : State) : AdmittedBy s i (exec i s) := by
  unfold exec
  cases i with
  | nodeStep | nodeReset | nodePoll => exact .node _ rfl rfl
  | dbPublish => exact .coordinator _ rfl rfl
  | coordFeed | coordReset | coordReseed | wdInit | wdPoll | dbLatestSnapshot | dbEdgeEvents =>
    exact onCoord_admittedBy _ rfl rfl
  | _ => exact .shared _ rfl

section Admitted

variable {s t : State} {i : Instr} {o : Host.Outcome State Fault Refusal}

theorem AdmittedBy.refused_of_node_on_coordinator (h : AdmittedBy s i o)
    (hi : agentKindOf i = .node) (hs : s.cur = .coordinator) : o = .refused .wrongAgent := by
  cases h with
  | shared k hk => simp [hi] at hk
  | node k => exact withNode_wrongAgent k hs
  | coordinator k hk => simp [hi] at hk

theorem AdmittedBy.refused_of_coordinator_on_node {j : Nat} (h : AdmittedBy s i o)
    (hi : agentKindOf i = .coordinator) (hs : s.cur = .node j) : o = .refused .wrongAgent := by
  cases h with
  | shared k hk => simp [hi] at hk
  | node k hk => simp [hi] at hk
  | coordinator k => exact withCoord_wrongAgent k hs

/-- The interrupt events are listed for both agents, so that their context is checked first. -/
theorem AdmittedBy.refused_of_interrupt_on_main (h : AdmittedBy s i o)
    (hi : contextOf i ≠ .main) (hs : s.ctx = .main) : o = .refused .wrongContext := by
  cases h with
  | shared k => exact withShared_wrongContext k (by rw [hs]; exact hi.symm)
  | node k hk hc => exact absurd hc hi
  | coordinator k hk hc => exact absurd hc hi

theorem AdmittedBy.ctx_of_next (h : AdmittedBy s i o) (ho : o = .next t) :
    s.ctx = contextOf i := by
  cases h with
  | shared k =>
    obtain ⟨sh, ⟨hctx, -, -⟩, -⟩ := withShared_next ho
    exact hctx
  | node k hk hc =>
    obtain ⟨j, n, ⟨hctx, -, -, -⟩, -⟩ := withNode_next ho
    rw [hctx, hc]
  | coordinator k hk hc =>
    obtain ⟨⟨hctx, -, -⟩, -⟩ := withCoord_next ho
    rw [hctx, hc]

end Admitted

end Sys2Proof.Machine

open Sys2Proof Sys2Proof.Machine

/-- Settles O10: each operation passes the admission of its row, and the two interrupt events also
ask for their request. -/
theorem operationsRunOnlyWhereListed : Obligations.OperationsRunOnlyWhereListed := by
  refine ⟨fun i s => (exec_admittedBy i s).refused_of_node_on_coordinator,
    fun i s j => (exec_admittedBy i s).refused_of_coordinator_on_node,
    fun i s => (exec_admittedBy i s).refused_of_interrupt_on_main,
    fun i s t => (exec_admittedBy i s).ctx_of_next, fun s t h => ?_, fun v s t h => ?_⟩
  · obtain ⟨sh, ⟨-, ha, -⟩, harmed, -⟩ := execTxExpiry_next h
    exact ⟨sh, ha, harmed⟩
  · obtain ⟨-, up, w, rest, -, -, hu, hl, -⟩ := execRxCapture_next h
    rw [State.linkOf_eq hu, hl]
    exact List.cons_ne_nil w rest

end

section
/-! PROOFS. A program of codec operations (R125): issued one by one from an agent's main line it
leaves the effect of its operations one after the other, but for the capture counters (R170). -/

namespace Sys2Proof.Machine

/-! ### States equal but for the capture counters -/

/-- `s` at a step of the main line of `a`, with the steps `es` placed behind it. -/
def State.onMainLine (s : State) (a : AgentId) (es : List Event) : State :=
  { s with cur := a, ctx := .main, script := es }

theorem State.putShared_onMainLine (s : State) (a b : AgentId) (sh : Shared) (es : List Event) :
    (s.onMainLine b es).putShared a sh = (s.putShared a sh).onMainLine b es := by
  cases a <;> rfl

section Counters

variable {s r t : State}

theorem State.countersRanTo.cfg_eq (h : s.countersRanTo r) : r.cfg = s.cfg := by
  rw [h.1]

theorem State.countersRanTo.script_eq (h : s.countersRanTo r) : r.script = s.script := by
  rw [h.1]

theorem State.countersRanTo.trans (h : s.countersRanTo r) (k : r.countersRanTo t) :
    s.countersRanTo t := by
  have hcfg := h.cfg_eq
  obtain ⟨hr, hlen, ⟨x, -, hc⟩, hn⟩ := h
  obtain ⟨ht, hlen', ⟨y, hy, hc'⟩, hn'⟩ := k
  refine ⟨by rw [ht, hr], hlen'.trans hlen, ⟨y, hcfg ▸ hy, by rw [hc', hc]; rfl⟩, fun i n hi => ?_⟩
  obtain ⟨u, -, hri⟩ := hn i n hi
  obtain ⟨v, hv, hti⟩ := hn' i _ hri
  exact ⟨v, hcfg ▸ hv, hti⟩

theorem State.countersRanTo.onMainLine (h : s.countersRanTo r) (a : AgentId) (es : List Event) :
    (s.onMainLine a es).countersRanTo (r.onMainLine a es) := by
  obtain ⟨hr, hrest⟩ := h
  exact ⟨by rw [hr]; rfl, hrest⟩

/-- The same record may be put into both states, with any counter in the later one. -/
theorem State.countersRanTo.putShared {x : Nat} (h : s.countersRanTo r)
    (hx : x < 2 ^ s.cfg.capBits) (a : AgentId) (sh : Shared) :
    (s.putShared a sh).countersRanTo (r.putShared a (sh.setCounter x)) := by
  obtain ⟨hr, hlen, ⟨y, hy, hc⟩, hn⟩ := h
  cases a with
  | coordinator => exact ⟨by rw [hr]; rfl, hlen, ⟨x, hx, by simp [State.putShared, hc]⟩, hn⟩
  | node j =>
    refine ⟨by rw [hr]; rfl, by simpa using hlen, ⟨y, hy, hc⟩, fun i n hi => ?_⟩
    simp only [State.putShared, List.getElem?_modify] at hi ⊢
    obtain ⟨m, hm, rfl⟩ := Option.map_eq_some_iff.mp hi
    obtain ⟨z, hz, hri⟩ := hn i m hm
    by_cases hj : j = i
    · exact ⟨x, hx, by simp [hri, hj]⟩
    · exact ⟨z, hz, by simp [hri, hj]⟩

end Counters

/-! ### Runs of placed steps -/

section Runs

variable {s t : State} {e : Event} {es : List Event}

/-- An operation issued from a main line is taken after the counters have run on. -/
theorem step_issued (hok : configOk s.cfg = true) (a : AgentId) (i : Instr) (es : List Event) :
    step { s with script := .op a .main (encode i) :: es } =
      exec i ((runCounters s).onMainLine a es) := by
  have hplaced := step_placed (s := { s with script := .op a .main (encode i) :: es }) hok rfl
  rw [hplaced, runEvent, decode_encode]
  rfl

theorem runScript_nil (h : s.script = []) : runScript [] s = .next s := by
  cases s; cases h; rfl

theorem runScript_cons (h : step { s with script := e :: es } = .next t) (hs : t.script = es) :
    runScript (e :: es) s = runScript es t := by
  subst hs
  rw [runScript, List.length_cons, runSteps, h]; rfl

end Runs

/-! ### Codec operations and programs of them -/

/-- The operation `i` of the main line of both agents has the effect `f` on its agent's codec part,
which neither halts the agent nor looks at its capture counter. -/
structure CodecOp (cfg : Config) (i : Instr) (f : Shared → Shared) : Prop where
  exec_eq : ∀ s : State, s.cfg = cfg → exec i s = onShared s f
  halted_eq : ∀ sh, (f sh).faults.halted = sh.faults.halted
  setCounter_comm : ∀ sh x, f (sh.setCounter x) = (f sh).setCounter x

/-- A program of codec operations, at least one, with the effect of all of them in order. -/
inductive CodecProgram (cfg : Config) : List Instr → (Shared → Shared) → Prop
  | single {i : Instr} {f : Shared → Shared} (h : CodecOp cfg i f) : CodecProgram cfg [i] f
  | cons {i : Instr} {is : List Instr} {f g : Shared → Shared} (h : CodecOp cfg i f)
      (hp : CodecProgram cfg is g) : CodecProgram cfg (i :: is) (g ∘ f)

section Programs

variable {cfg : Config} {s : State} {a : AgentId} {sh : Shared} {i : Instr} {is : List Instr}
  {f : Shared → Shared}

theorem CodecProgram.setCounter_comm (h : CodecProgram cfg is f) (sh : Shared) (x : Nat) :
    f (sh.setCounter x) = (f sh).setCounter x := by
  induction h generalizing sh with
  | single h => exact h.setCounter_comm sh x
  | cons h hp ih => rw [Function.comp_apply, h.setCounter_comm, ih, Function.comp_apply]

/-- One codec operation, issued from the main line of `a`. -/
theorem CodecOp.step_eq_next (h : CodecOp s.cfg i f) (hok : configOk s.cfg = true)
    (ha : s.shared? a = some sh) (hh : sh.faults.halted = false) (rest : List Event) :
    ∃ t, step { s with script := .op a .main (encode i) :: rest } = .next t ∧
      ((s.putShared a (f sh)).onMainLine a rest).countersRanTo t := by
  have hran := runCounters_ranTo s
  obtain ⟨x, hx, hr⟩ := hran.shared? ha
  refine ⟨_, ?_, (hran.putShared hx a (f sh)).onMainLine a rest⟩
  have hready : ((runCounters s).onMainLine a rest).sharedReady .main (sh.setCounter x) :=
    ⟨rfl, hr, hh⟩
  rw [step_issued hok, h.exec_eq ((runCounters s).onMainLine a rest) rfl, onShared_ready f hready,
    h.setCounter_comm, ← State.putShared_onMainLine]
  rfl

/-- A program of codec operations, issued from the main line of `a`. -/
theorem CodecProgram.runScript_issue (h : CodecProgram cfg is f) (hcfg : s.cfg = cfg)
    (hok : configOk cfg = true) (ha : s.shared? a = some sh) (hh : sh.faults.halted = false) :
    ∃ t, runScript (issue a is) s = .next t ∧
      ((s.putShared a (f sh)).onMainLine a []).countersRanTo t := by
  induction h generalizing s sh with
  | single h =>
    subst hcfg
    obtain ⟨t, ht, hran⟩ := h.step_eq_next hok ha hh []
    exact ⟨t, (runScript_cons ht hran.script_eq).trans (runScript_nil hran.script_eq), hran⟩
  | @cons i is f g h hp ih =>
    subst hcfg
    obtain ⟨r, hr, hran⟩ := h.step_eq_next hok ha hh (issue a is)
    obtain ⟨x, hx, hrsh⟩ := hran.shared? (State.shared?_putShared_self (f sh) ha)
    obtain ⟨t, ht, hran'⟩ := ih (by simpa [State.onMainLine] using hran.cfg_eq) hrsh
      (by simpa [h.halted_eq] using hh)
    refine ⟨t, (runScript_cons hr hran.script_eq).trans ht, ?_⟩
    have hput := (hran.putShared hx a (g (f sh))).onMainLine a []
    rw [State.putShared_onMainLine, State.putShared_putShared] at hput
    rw [hp.setCounter_comm] at hran'
    exact hput.trans hran'

end Programs

/-! ### The bulk operations (R141 to R143) -/

section Bulk

theorem halted_raise {c : FaultCode} (hc : c.halts = false) (sh : Shared) :
    (sh.raise c).faults.halted = sh.faults.halted := by
  rw [Shared.raise_faults, FaultSet.halted_add, hc, Bool.or_false]

variable (cfg : Config)

theorem codecOp_txBulkBegin : CodecOp cfg .txBulkBegin txBulkBegin where
  exec_eq _ _ := rfl
  halted_eq sh := by
    unfold txBulkBegin
    split
    · exact halted_raise rfl sh
    · rfl
  setCounter_comm sh x := by
    simp only [txBulkBegin, apply_ite (Shared.setCounter · x)]
    rfl

theorem codecOp_txBulkSchedule (level : Level) (dur : Nat) :
    CodecOp cfg (.txBulkSchedule level dur) (txBulkSchedule cfg level dur) where
  exec_eq s hs := by subst hs; rfl
  halted_eq sh := by
    obtain ⟨-, e⟩ | ⟨-, -, e⟩ | ⟨-, -, -, e⟩ | ⟨-, -, -, e⟩ := txBulkSchedule_cases cfg level dur sh
    · rw [e, halted_raise rfl]
    · rw [e, halted_raise rfl]
    · rw [e, halted_raise rfl]
    · rw [e]
  setCounter_comm sh x := by
    simp only [txBulkSchedule, apply_ite (Shared.setCounter · x)]
    rfl

theorem codecOp_txBulkEnd : CodecOp cfg .txBulkEnd txBulkEnd where
  exec_eq _ _ := rfl
  halted_eq sh := by
    cases h : sh.tx.bulkOpen with
    | false => rw [txBulkEnd, h, Bool.not_false, if_pos rfl, halted_raise rfl]
    | true => rw [txBulkEnd_open h]
  setCounter_comm sh x := by
    simp only [txBulkEnd, apply_ite (Shared.setCounter · x)]
    rfl

theorem codecProgram_bulkTail (ps : List TxPair) :
    CodecProgram cfg (ps.map (fun p => .txBulkSchedule p.level p.dur) ++ [.txBulkEnd])
      fun sh => txBulkEnd (ps.foldl (fun x p => txBulkSchedule cfg p.level p.dur x) sh) := by
  induction ps with
  | nil => exact .single (codecOp_txBulkEnd cfg)
  | cons p ps ih => exact .cons (codecOp_txBulkSchedule cfg p.level p.dur) ih

theorem codecProgram_bulkProgram (ps : List TxPair) :
    CodecProgram cfg (bulkProgram ps) (sendPairs cfg ps) :=
  (CodecProgram.cons (codecOp_txBulkBegin cfg) (codecProgram_bulkTail cfg ps) :)

end Bulk

end Sys2Proof.Machine

open Sys2Proof Sys2Proof.Machine

/-- Settles O19: the inline bulk is the effect of the bulk's operations one after the other, and none
of them looks at the capture counter. -/
theorem bulkProgramEqualsInlineBulk : Obligations.BulkProgramEqualsInlineBulk := by
  intro s a sh ps hok ha hh
  exact (codecProgram_bulkProgram s.cfg ps).runScript_issue rfl hok ha hh

end

section
/-! PROOFS. What each TX operation of the codec answers (R140 to R145), with every field of the
record. -/

namespace Sys2Proof.Machine

variable {cfg : Config} {s : State} {sh : Shared}

/-- The durations that R110 refuses. -/
theorem durationOk_eq_false_iff {d : Nat} :
    durationOk cfg d = false ↔ d = 0 ∨ d > 2 ^ cfg.durBits - 1 := by
  simp only [durationOk, Bool.not_eq_false', Bool.or_eq_true, decide_eq_true_eq]

theorem not_refused_of_durationOk {d : Nat} (h : durationOk cfg d = true) :
    ¬(d = 0 ∨ d > 2 ^ cfg.durBits - 1) := by
  rw [← durationOk_eq_false_iff, h]
  exact Bool.noConfusion

/-- TX_EXPIRY of an armed agent: its record takes the expiry, and where that makes the line rise,
the downstream agent, which the ring always has, restarts its capture counter (R145, R170). -/
theorem exec_txExpiry_of_armed (h : s.sharedReady .txi sh) (ha : sh.tx.armed = true) :
    (risesTo sh (txExpiry s.cfg sh) = false ∧
      exec .txExpiry s = .next (s.putShared s.cur (txExpiry s.cfg sh))) ∨
    (risesTo sh (txExpiry s.cfg sh) = true ∧ ∃ d,
      (s.putShared s.cur (txExpiry s.cfg sh)).shared? (downstream s.nodes.length s.cur) = some d ∧
      exec .txExpiry s = .next ((s.putShared s.cur (txExpiry s.cfg sh)).putShared
        (downstream s.nodes.length s.cur) (d.setCounter 0))) := by
  have hexec : exec .txExpiry s = _ := withShared_ready _ h
  cases he : risesTo sh (txExpiry s.cfg sh) <;> simp only [ha, he, ↓reduceIte] at hexec
  · exact .inl ⟨rfl, hexec⟩
  · obtain ⟨d, hd⟩ := State.shared?_downstream
      (State.shared?_putShared_self (txExpiry s.cfg sh) h.2.1)
    rw [State.risingEdge_eq hd] at hexec
    rw [State.putShared_nodes_length] at hd hexec
    exact .inr ⟨rfl, d, hd, hexec⟩

theorem exec_txExpiry_of_not_armed (h : s.sharedReady .txi sh) (ha : sh.tx.armed = false) :
    exec .txExpiry s = .refused .notEnabled := by
  have hexec : exec .txExpiry s = _ := withShared_ready _ h
  simpa [ha] using hexec

/-- The front of a TX ring whose head slot holds `p`. -/
theorem txFront_eq {r : Ring TxPair} {p : TxPair} (h : r.slots[r.head]? = some p) :
    txFront r = p := by
  simp [txFront, Ring.front, h]

/-- A popped pair makes the line rise when the line is low and the pair is high. -/
theorem risesTo_txExpiry (hs : 0 < sh.tx.rb.size) :
    risesTo sh (txExpiry cfg sh) = (!sh.tx.pin && (txFront sh.tx.rb).level) := by
  rw [txExpiry_pop cfg hs, risesTo]

/-- An empty ring lets the line fall or stay low. -/
theorem risesTo_txExpiry_empty (hs : sh.tx.rb.size = 0) :
    risesTo sh (txExpiry cfg sh) = false := by
  rw [txExpiry_idle cfg hs, risesTo, Bool.and_false]

end Sys2Proof.Machine

open Sys2Proof Sys2Proof.Machine

/-- Settles O14: the four ways in which TX_SCHEDULE ends exclude each other, in the rule's order. -/
theorem txScheduleResult : Obligations.TxScheduleResult := by
  refine ⟨fun level dur => by cases level <;> rfl, fun s sh level dur hr => ?_⟩
  refine (onShared_ready (txSchedule s.cfg level dur) hr).trans ?_
  obtain ⟨hb, e⟩ | ⟨hb, hd, e⟩ | ⟨hb, hd, hf, e⟩ | ⟨hb, hd, rb, hp, e⟩ :=
    txSchedule_cases s.cfg level dur sh
  · rw [e, if_pos hb]; rfl
  · rw [e, if_neg (by simp [hb]), if_pos (durationOk_eq_false_iff.mp hd)]; rfl
  · rw [e, if_neg (by simp [hb]), if_neg (not_refused_of_durationOk hd), if_pos hf]; rfl
  · obtain ⟨hf, rfl⟩ := Ring.push_eq_some.mp hp
    rw [e, if_neg (by simp [hb]), if_neg (not_refused_of_durationOk hd), if_neg hf]; rfl

/-- Settles O15: the operation is its effect on the record of an agent that passes the admission. -/
theorem txBulkBeginResult : Obligations.TxBulkBeginResult :=
  ⟨rfl, fun _ _ hr => onShared_ready txBulkBegin hr⟩

/-- Settles O16: the four ways in which TX_BULK_SCHEDULE ends exclude each other, in the rule's
order. -/
theorem txBulkScheduleResult : Obligations.TxBulkScheduleResult := by
  refine ⟨fun level dur => by cases level <;> rfl, fun s sh level dur hr => ?_⟩
  refine (onShared_ready (txBulkSchedule s.cfg level dur) hr).trans ?_
  obtain ⟨hb, e⟩ | ⟨hb, hd, e⟩ | ⟨hb, hd, hf, e⟩ | ⟨hb, hd, hf, e⟩ :=
    txBulkSchedule_cases s.cfg level dur sh
  · rw [e, if_pos hb]; rfl
  · rw [e, if_neg (by simp [hb]), if_pos (durationOk_eq_false_iff.mp hd)]; rfl
  · rw [e, if_neg (by simp [hb]), if_neg (not_refused_of_durationOk hd), if_pos hf]; rfl
  · rw [e, if_neg (by simp [hb]), if_neg (not_refused_of_durationOk hd), if_neg hf]; rfl

/-- Settles O17, with an open bulk and without one. -/
theorem txBulkEndResult : Obligations.TxBulkEndResult := by
  refine ⟨rfl, fun s sh hr => (onShared_ready txBulkEnd hr).trans ?_⟩
  cases hb : sh.tx.bulkOpen with
  | false => simp [txBulkEnd, hb, Shared.raise]
  | true => rw [txBulkEnd_open hb, if_neg Bool.noConfusion]

/-- Settles O18: the expiry of an armed agent with a pair, with an empty ring, and the refusal. -/
theorem txExpiryResult : Obligations.TxExpiryResult := by
  refine ⟨rfl, fun s driven sh p hr ha hs hp hdriven => ?_, fun s sh hr ha hs => ?_,
    fun s sh => exec_txExpiry_of_not_armed⟩
  · have hfront : txFront sh.tx.rb = p := txFront_eq hp
    have hput : driven = s.putShared s.cur (txExpiry s.cfg sh) := by
      rw [hdriven, txExpiry_pop s.cfg hs, hfront]
      cases sh.tx.pin <;> cases p.level <;> simp [Ring.pop]
    obtain ⟨he, hx⟩ | ⟨he, d, hd, hx⟩ := exec_txExpiry_of_armed hr ha <;>
      rw [risesTo_txExpiry hs, hfront] at he <;> rw [hx, ← hput]
    · rw [if_neg (by rintro ⟨hpin, hl⟩; simp [hpin, hl] at he)]
    · rw [if_pos (by simpa using he)]
      exact ⟨d, hput ▸ hd, rfl⟩
  · obtain ⟨-, hx⟩ | ⟨he, -⟩ := exec_txExpiry_of_armed hr ha
    · rw [hx, txExpiry_idle s.cfg hs]
    · rw [risesTo_txExpiry_empty hs] at he
      cases he

end

section
/-! PROOFS. No operation but TX_EXPIRY takes a pair out of a TX ring (R148): what the automata do to
their agent's codec part, said once as `CodecMoves`, and that the pairs of a ring outlive every
other operation. -/

namespace Sys2Proof.Machine

/-! ### What the automata do to their agent's codec part -/

/-- All that an operation of the node automaton, the coordinator automaton or the supervisor does to
the codec part of its agent, one after another: it records a fault, returns a value, takes a capture
from the RX ring, or sends a bulk of pairs (R125). -/
inductive CodecMoves (cfg : Config) : Shared → Shared → Prop
  | refl (a : Shared) : CodecMoves cfg a a
  | raise (c : FaultCode) (a : Shared) : CodecMoves cfg a (a.raise c)
  | answer (r : Result) (a : Shared) : CodecMoves cfg a (a.answer r)
  | take {a : Shared} (h : a.rx.rb.avail = true) : CodecMoves cfg a (rxTake cfg a).2
  | send (ps : List TxPair) (a : Shared) : CodecMoves cfg a (sendPairs cfg ps a)
  | trans {a b c : Shared} (h : CodecMoves cfg a b) (k : CodecMoves cfg b c) : CodecMoves cfg a c

section Automata

variable (cfg : Config) (sh : Shared) (n : NodeRec) (c : CoordRec) (draws : Nat)

theorem rxReceiveBit_codecMoves : CodecMoves cfg sh (rxReceiveBit cfg sh) := by
  unfold rxReceiveBit
  split
  case isTrue => exact .raise ..
  case isFalse h => exact (CodecMoves.take (decide_eq_true (by omega))).trans (.answer ..)

theorem nodeBit_codecMoves (b : Bit) : CodecMoves cfg n.sh (nodeBit cfg b n draws).1.sh := by
  unfold nodeBit
  split
  case h_1 =>
    split
    · exact .send ..
    · exact .refl _
  case h_2 =>
    split
    · exact .send ..
    · exact .send ..
  case h_3 => exact .send ..
  case h_4 => exact .refl _

theorem nodeStep_codecMoves (sym : Sym) (elapsed : Nat) :
    CodecMoves cfg n.sh (nodeStep cfg sym elapsed n draws).1.sh := by
  unfold nodeStep
  split
  case isTrue => exact .raise ..
  case isFalse =>
    have hm : (if elapsed > cfg.nodeResetUs then nodeReset n else n).sh = n.sh := by
      split <;> rfl
    rw [← hm]
    cases sym with
    | reset => exact .send ..
    | error => exact .refl _
    | zero => exact nodeBit_codecMoves ..
    | one => exact nodeBit_codecMoves ..

theorem nodePoll_codecMoves (now : Nat) :
    CodecMoves cfg n.sh (nodePoll cfg now n draws).1.sh := by
  unfold nodePoll
  split
  case isTrue => exact .raise ..
  case isFalse =>
    split
    case isTrue h =>
      exact (CodecMoves.take h).trans
        (nodeStep_codecMoves cfg { n with sh := (rxTake cfg n.sh).2, lastUs := now } draws _ _)
    case isFalse => exact .refl _

theorem enterReset_codecMoves : CodecMoves cfg c.sh (enterReset cfg c).sh := .send ..

theorem startCycle_codecMoves : CodecMoves cfg c.sh (startCycle cfg c).sh := by
  rw [← coordReseed_sh cfg c]
  exact .send ..

theorem wdComplete_codecMoves (k : Nat) : CodecMoves cfg c.sh (wdComplete cfg k c).sh := by
  rw [← dbPublish_sh cfg c k]
  unfold wdComplete
  dsimp only
  split
  · exact enterReset_codecMoves ..
  · exact startCycle_codecMoves ..

theorem wdFeed_codecMoves (bit : Bit) : CodecMoves cfg c.sh (wdFeed cfg bit c).sh := by
  rw [← coordFeed_sh cfg c bit]
  unfold wdFeed
  dsimp only
  split
  · exact .refl _
  · exact enterReset_codecMoves ..
  · exact wdComplete_codecMoves ..

theorem wdSymbol_codecMoves (sym : Sym) : CodecMoves cfg c.sh (wdSymbol cfg sym c).sh := by
  unfold wdSymbol
  split
  case h_1 =>
    cases sym with
    | reset => exact .refl _
    | error => exact .refl _
    | zero => exact wdFeed_codecMoves ..
    | one => exact wdFeed_codecMoves ..
  case h_2 => exact .refl _
  case h_3 =>
    split
    · exact startCycle_codecMoves ..
    · exact .refl _

theorem wdTimeout_codecMoves : CodecMoves cfg c.sh (wdTimeout cfg c).sh := by
  unfold wdTimeout
  split
  · exact enterReset_codecMoves ..
  · exact enterReset_codecMoves ..
  · exact .send ..

theorem wdPoll_codecMoves (now : Nat) : CodecMoves cfg c.sh (wdPoll cfg now c).sh := by
  unfold wdPoll
  split
  case isTrue h =>
    exact (CodecMoves.take h).trans
      (wdSymbol_codecMoves cfg { c with sh := (rxTake cfg c.sh).2 } _)
  case isFalse =>
    split
    · exact wdTimeout_codecMoves ..
    · exact .refl _

end Automata

/-- A capture leaves the TX codec alone (R172). -/
@[simp] theorem rxCapture_tx (cfg : Config) (value : Nat) (sh : Shared) :
    (rxCapture cfg value sh).tx = sh.tx := by
  obtain ⟨-, e⟩ | ⟨rb, -, e⟩ := rxCapture_cases cfg value sh <;> rw [e]; rfl

/-! ### The pairs of a TX ring (R65, R142) -/

/-- The first entries of a ring are the front of all its entries. -/
theorem Ring.take_entries {α : Type} {cap m n : Nat} (r : Ring α) (d : α) (h : m ≤ n) :
    (r.entries cap n d).take m = r.entries cap m d := by
  rw [Ring.entries, ← List.map_take, List.take_range, Nat.min_eq_left h, Ring.entries]

/-- A write behind the first `k` entries leaves each of them. -/
theorem Ring.entries_write_of_le {α : Type} {cap k m : Nat} {r : Ring α} (d v : α)
    (hl : r.slots.length = cap) (hk : k < cap) (ht : r.tail = (r.head + k) % cap) (hm : m ≤ k) :
    (r.write cap v).entries cap m d = r.entries cap m d := by
  rw [← Ring.take_entries (n := k + 1) _ d (by omega), Ring.entries_write d v hl hk ht,
    List.take_append_of_le_length (by simpa using hm), Ring.take_entries r d hm]

/-- `b` is well formed, and its TX ring holds the pairs of `a`'s in their order, perhaps with more
behind them: those to be sent, and those to be sent with the pending ones (R148). -/
structure PairsKept (cfg : Config) (a b : Shared) : Prop where
  wf : b.wf cfg
  queue : a.txQueue cfg <+: b.txQueue cfg
  all : a.txAll cfg <+: b.txAll cfg

section Kept

variable {cfg : Config} {a b c sh : Shared}

theorem PairsKept.trans (h : PairsKept cfg a b) (k : PairsKept cfg b c) : PairsKept cfg a c :=
  ⟨k.wf, h.queue.trans k.queue, h.all.trans k.all⟩

theorem PairsKept.of_tx_eq (hb : b.wf cfg) (h : b.tx = a.tx) : PairsKept cfg a b :=
  ⟨hb, by rw [Shared.txQueue, Shared.txQueue, h], by rw [Shared.txAll, Shared.txAll, h]⟩

theorem PairsKept.refl (h : sh.wf cfg) : PairsKept cfg sh sh := .of_tx_eq h rfl

theorem raise_pairsKept (c : FaultCode) (h : sh.wf cfg) : PairsKept cfg sh (sh.raise c) :=
  .of_tx_eq (Shared.wf_raise c h) rfl

/-- Without an open bulk the pairs to be sent are all the pairs (R142, R143). -/
theorem txAll_eq_txQueue (h : sh.wf cfg) (hb : sh.tx.bulkOpen = false) :
    sh.txAll cfg = sh.txQueue cfg := by
  obtain ⟨⟨-, hp, -⟩, -⟩ := h
  rw [Shared.txAll, hp hb, Nat.add_zero]

theorem txSchedule_pairsKept (level : Level) (dur : Nat) (h : sh.wf cfg) :
    PairsKept cfg sh (txSchedule cfg level dur sh) := by
  have hw := txSchedule_wf level dur h
  obtain ⟨-, e⟩ | ⟨-, -, e⟩ | ⟨-, -, -, e⟩ | ⟨hb, -, rb, hp, e⟩ := txSchedule_cases cfg level dur sh
  · rw [e]; exact raise_pairsKept _ h
  · rw [e]; exact raise_pairsKept _ h
  · rw [e]; exact raise_pairsKept _ h
  · have ⟨⟨hr, hp0, _⟩, _⟩ := h
    rw [hp0 hb] at hp hr
    have hq : (txSchedule cfg level dur sh).txQueue cfg = sh.txQueue cfg ++ [⟨level, dur⟩] := by
      rw [e]; exact Ring.entries_push _ hr hp
    refine ⟨hw, ⟨_, hq.symm⟩, ?_⟩
    rw [txAll_eq_txQueue hw (by rw [e]; exact hb), txAll_eq_txQueue h hb]
    exact ⟨_, hq.symm⟩

theorem txBulkBegin_pairsKept (h : sh.wf cfg) : PairsKept cfg sh (txBulkBegin sh) := by
  have hw := txBulkBegin_wf h
  cases hb : sh.tx.bulkOpen with
  | true =>
    rw [txBulkBegin, if_pos hb]
    exact raise_pairsKept _ h
  | false =>
    have e : txBulkBegin sh = { sh with tx := { sh.tx with bulkOpen := true, pending := 0 } } := by
      rw [txBulkBegin, if_neg (by simp [hb])]
    refine ⟨hw, by rw [e], ?_⟩
    rw [e, txAll_eq_txQueue h hb]
    exact List.prefix_rfl

theorem txBulkSchedule_pairsKept (level : Level) (dur : Nat) (h : sh.wf cfg) :
    PairsKept cfg sh (txBulkSchedule cfg level dur sh) := by
  have hw := txBulkSchedule_wf level dur h
  obtain ⟨-, e⟩ | ⟨-, -, e⟩ | ⟨-, -, -, e⟩ | ⟨-, -, hf, e⟩ :=
    txBulkSchedule_cases cfg level dur sh
  · rw [e]; exact raise_pairsKept _ h
  · rw [e]; exact raise_pairsKept _ h
  · rw [e]; exact raise_pairsKept _ h
  · obtain ⟨⟨⟨hl, -, hs, ht⟩, -⟩, -⟩ := h
    have hk : sh.tx.rb.size + sh.tx.pending < cfg.txCap := by omega
    rw [Nat.add_assoc] at ht
    rw [e] at hw ⊢
    refine ⟨hw, ?_, ?_⟩
    · have hq := Ring.entries_write_of_le ⟨false, 0⟩ ⟨level, dur⟩ hl hk ht (Nat.le_add_right ..)
      exact ⟨[], (List.append_nil _).trans hq.symm⟩
    · exact ⟨_, (Ring.entries_write _ _ hl hk ht).symm⟩

theorem txBulkEnd_pairsKept (h : sh.wf cfg) : PairsKept cfg sh (txBulkEnd sh) := by
  have hw := txBulkEnd_wf h
  cases hb : sh.tx.bulkOpen with
  | false =>
    rw [txBulkEnd, hb, Bool.not_false, if_pos rfl]
    exact raise_pairsKept _ h
  | true =>
    have hq : (txBulkEnd sh).txQueue cfg = sh.txAll cfg := by rw [txBulkEnd_open hb]; rfl
    refine ⟨hw, ?_, ?_⟩
    · rw [hq, Shared.txQueue, ← Ring.take_entries _ _ (Nat.le_add_right ..)]
      exact List.take_prefix ..
    · rw [txAll_eq_txQueue hw (by rw [txBulkEnd_open hb]), hq]

theorem foldl_txBulkSchedule_pairsKept (ps : List TxPair) (h : sh.wf cfg) :
    PairsKept cfg sh (ps.foldl (fun x p => txBulkSchedule cfg p.level p.dur x) sh) := by
  induction ps generalizing sh with
  | nil => exact .refl h
  | cons p ps ih =>
    have hp := txBulkSchedule_pairsKept p.level p.dur h
    exact hp.trans (ih hp.wf)

theorem sendPairs_pairsKept (ps : List TxPair) (h : sh.wf cfg) :
    PairsKept cfg sh (sendPairs cfg ps sh) := by
  have hbegin := txBulkBegin_pairsKept h
  have hfold := foldl_txBulkSchedule_pairsKept ps hbegin.wf
  exact hbegin.trans (hfold.trans (txBulkEnd_pairsKept hfold.wf))

theorem CodecMoves.pairsKept (m : CodecMoves cfg a b) (h : a.wf cfg) : PairsKept cfg a b := by
  induction m with
  | refl a => exact .refl h
  | raise c a => exact raise_pairsKept c h
  | answer r a => exact .of_tx_eq (Shared.wf_answer r h) rfl
  | take hav => exact .of_tx_eq (rxTake_wf (of_decide_eq_true hav) h) rfl
  | send ps a => exact sendPairs_pairsKept ps h
  | trans _ _ ih ih' =>
    have hab := ih h
    exact hab.trans (ih' hab.wf)

end Kept

/-! ### The agents' rings in the state -/

/-- A well-formed codec part of the agent of the step keeps its pairs from `s` to `t`. -/
def OwnPairsKept (s t : State) : Prop :=
  ∀ sh : Shared, s.shared? s.cur = some sh → sh.wf s.cfg →
    ∃ sh', t.shared? s.cur = some sh' ∧ PairsKept s.cfg sh sh'

section Own

variable {s t : State} {i : Instr}

theorem onShared_ownPairsKept {f : Shared → Shared} (h : onShared s f = .next t)
    (hf : ∀ {sh : Shared}, sh.wf s.cfg → PairsKept s.cfg sh (f sh)) : OwnPairsKept s t := by
  intro sh ha hw
  obtain ⟨x, ⟨-, hx, -⟩, rfl⟩ := onShared_next h
  rw [ha] at hx
  cases hx
  exact ⟨_, State.shared?_putShared_self _ ha, hf hw⟩

theorem onNode_ownPairsKept {f : NodeRec → Nat → NodeRec × Nat} (h : onNode s f = .next t)
    (hf : ∀ n draws, CodecMoves s.cfg n.sh (f n draws).1.sh) : OwnPairsKept s t := by
  intro sh ha hw
  obtain ⟨i, n, ⟨-, hc, hn, -⟩, rfl⟩ := onNode_next h
  obtain ⟨hlt, -⟩ := List.getElem?_eq_some_iff.mp hn
  rw [hc] at ha ⊢
  simp only [State.shared?_node, hn, Option.map_some, Option.some.injEq] at ha
  subst ha
  exact ⟨(f n s.draws).1.sh, by simp [hlt], (hf n s.draws).pairsKept hw⟩

theorem onCoord_ownPairsKept {f : CoordRec → CoordRec} (h : onCoord s f = .next t)
    (hf : ∀ c, CodecMoves s.cfg c.sh (f c).sh) : OwnPairsKept s t := by
  intro sh ha hw
  obtain ⟨⟨-, hc, -⟩, rfl⟩ := onCoord_next h
  rw [hc] at ha ⊢
  cases ha
  exact ⟨_, rfl, (hf s.coord).pairsKept hw⟩

/-- Taking a pulse off a link leaves every agent's record but for a link, also where the agent
listens to its own link (R328, R330). -/
theorem State.shared?_putShared_link {a u : AgentId} {sh up sh' : Shared} {l : List Nat}
    (ha : s.shared? a = some sh) (hu : s.shared? u = some up)
    (h : (s.putShared u { up with link := l }).shared? a = some sh') :
    sh' = { sh with link := sh'.link } := by
  rw [State.shared?_putShared] at h
  split at h
  case isTrue e =>
    subst e
    rw [hu] at ha h
    cases ha
    cases h
    rfl
  case isFalse =>
    rw [ha] at h
    cases h
    rfl

theorem execRxCapture_ownPairsKept {value : Nat} (h : execRxCapture value s = .next t) :
    OwnPairsKept s t := by
  intro sh ha hw
  obtain ⟨-, up, w, rest, x, -, hu, -, -, hhi, hx, rfl⟩ := execRxCapture_next h
  refine ⟨_, State.shared?_putShared_self _ hx, ?_⟩
  rw [State.shared?_putShared_link ha hu hx]
  have hv := Nat.lt_of_le_of_lt hhi (captureHigh_lt ..)
  exact .of_tx_eq (rxCapture_wf hv (Shared.wf_link _ hw)) (rxCapture_tx ..)

theorem execDbPublish_ownPairsKept {n : Nat} (h : execDbPublish n s = .next t) :
    OwnPairsKept s t := by
  have hon : onCoord s (dbPublish s.cfg n) = .next t := by
    obtain ⟨hr, hk⟩ := withCoord_next h
    split at hk
    case isTrue => cases hk
    case isFalse => rw [onCoord_ready _ hr, hk]
  refine onCoord_ownPairsKept hon fun c => ?_
  rw [dbPublish_sh]
  exact .refl _

theorem exec_ownPairsKept (hi : i ≠ .txExpiry) (h : exec i s = .next t) : OwnPairsKept s t := by
  cases i with
  | txSchedule level dur => exact onShared_ownPairsKept h (txSchedule_pairsKept level dur)
  | txBulkBegin => exact onShared_ownPairsKept h txBulkBegin_pairsKept
  | txBulkSchedule level dur => exact onShared_ownPairsKept h (txBulkSchedule_pairsKept level dur)
  | txBulkEnd => exact onShared_ownPairsKept h txBulkEnd_pairsKept
  | txExpiry => exact absurd rfl hi
  | rxCapture value => exact execRxCapture_ownPairsKept h
  | rxBitsAvailable => exact onShared_ownPairsKept h (CodecMoves.answer ..).pairsKept
  | rxReceiveBit => exact onShared_ownPairsKept h (rxReceiveBit_codecMoves ..).pairsKept
  | nodeStep sym elapsed => exact onNode_ownPairsKept h fun _ _ => nodeStep_codecMoves ..
  | nodeReset => exact onNode_ownPairsKept h fun _ _ => .refl _
  | nodePoll now => exact onNode_ownPairsKept h fun _ _ => nodePoll_codecMoves ..
  | coordFeed bit =>
    have hx : execCoordFeed bit s = .next t := h
    refine onCoord_ownPairsKept hx fun c => ?_
    rw [← coordFeed_sh s.cfg c bit]
    exact .answer ..
  | coordReset => exact onCoord_ownPairsKept h fun _ => .refl _
  | coordReseed =>
    refine onCoord_ownPairsKept h fun c => ?_
    rw [coordReseed_sh]
    exact .refl _
  | wdInit now => exact onCoord_ownPairsKept h fun _ => .refl _
  | wdPoll now => exact onCoord_ownPairsKept h fun _ => wdPoll_codecMoves ..
  | dbPublish n => exact execDbPublish_ownPairsKept h
  | dbLatestSnapshot =>
    have hx : execDbLatestSnapshot s = .next t := h
    exact onCoord_ownPairsKept hx fun _ => .answer ..
  | dbEdgeEvents =>
    have hx : execDbEdgeEvents s = .next t := h
    exact onCoord_ownPairsKept hx fun _ => .answer ..

end Own

end Sys2Proof.Machine

open Sys2Proof Sys2Proof.Machine

/-- Settles O21: the agent of the step keeps its pairs, and of another agent's record only its link
or its capture counter can change. -/
theorem scheduledPairsAreNeverCancelled : Obligations.ScheduledPairsAreNeverCancelled := by
  intro i s t a sh hi h ha hw
  have kept : ∃ sh', t.shared? a = some sh' ∧ PairsKept s.cfg sh sh' := by
    by_cases hc : a = s.cur
    · subst hc
      exact exec_ownPairsKept hi h sh ha hw
    · obtain ht | ⟨-, -, w, rest, -, ht⟩ | ⟨he, -⟩ := (exec_recordChange h).shared?_other hc ha
      · exact ⟨_, ht, .refl hw⟩
      · exact ⟨_, ht, .of_tx_eq (Shared.wf_link rest hw) rfl⟩
      · exact absurd he hi
  obtain ⟨sh', ht, -, ⟨more, hq⟩, ⟨more', hall⟩⟩ := kept
  exact ⟨sh', more, more', ht, hq.symm, hall.symm⟩

end

section
/-! PROOFS. Runs of one agent's codec (R125, R313): the steps of its program and of its TX timer,
one after another, whatever the other agents and the capture counters do between them (R170). -/

namespace Sys2Proof.Machine

theorem RecordChange.script_eq {s t : State} {i : Instr} (h : RecordChange s i t) :
    t.script = s.script := by
  cases h <;> simp

/-- A placed operation is taken after the counters have run on. -/
theorem step_placed_op {s : State} (hok : configOk s.cfg = true) (a : AgentId) (ctx : Context)
    (i : Instr) (es : List Event) :
    step { s with script := .op a ctx (encode i) :: es } =
      exec i { runCounters s with cur := a, ctx := ctx, script := es } := by
  have hplaced := step_placed (s := { s with script := .op a ctx (encode i) :: es }) hok rfl
  rw [hplaced, runEvent, decode_encode]
  rfl

/-- From every state in which the record of `a` is `sh`, the steps `es` are taken and leave the
record `sh'`, whatever is placed behind them; both but for the capture counter, which runs on
(R170). -/ def RunsTo (cfg : Config) (a : AgentId) (es : List Event) (sh sh' : Shared) : Prop :=
  ∀ (s : State) (x : Nat) (rest : List Event), s.cfg = cfg →
    s.shared? a = some (sh.setCounter x) →
    ∃ t y, runScript (es ++ rest) s = runScript rest t ∧ t.cfg = cfg ∧
      t.shared? a = some (sh'.setCounter y)

section Runs

variable {cfg : Config} {a : AgentId} {es fs : List Event} {sh sh' sh'' : Shared} {i : Instr}
  {is : List Instr} {f : Shared → Shared}

theorem RunsTo.nil : RunsTo cfg a [] sh sh :=
  fun s x _ hc ha => ⟨s, x, rfl, hc, ha⟩

theorem RunsTo.append (h : RunsTo cfg a es sh sh') (k : RunsTo cfg a fs sh' sh'') :
    RunsTo cfg a (es ++ fs) sh sh'' := by
  intro s x rest hc ha
  obtain ⟨r, y, hr, hrc, hra⟩ := h s x (fs ++ rest) hc ha
  obtain ⟨t, z, ht, htc, hta⟩ := k r y rest hrc hra
  exact ⟨t, z, by rw [List.append_assoc, hr, ht], htc, hta⟩

/-- A run with nothing placed behind it ends in a next state. -/
theorem RunsTo.runScript_eq_next {s : State} (h : RunsTo s.cfg a es sh sh')
    (ha : s.shared? a = some sh) :
    ∃ t y, runScript es s = .next t ∧ t.shared? a = some (sh'.setCounter y) := by
  obtain ⟨t, y, ht, -, hta⟩ := h s sh.rx.cnt [] rfl ha
  rw [List.append_nil] at ht
  exact ⟨{ t with script := [] }, y, ht, hta⟩

/-- One operation of `a`, taken in the context `ctx`. -/
theorem RunsTo.of_exec {ctx : Context} (hok : configOk cfg = true)
    (h : ∀ (s : State) (x : Nat), s.cfg = cfg → s.cur = a → s.ctx = ctx →
      s.shared? a = some (sh.setCounter x) →
      ∃ t y, exec i s = .next t ∧ t.shared? a = some (sh'.setCounter y)) :
    RunsTo cfg a [.op a ctx (encode i)] sh sh' := by
  intro s x rest hc ha
  obtain ⟨z, -, hz⟩ := (runCounters_ranTo s).shared? ha
  obtain ⟨t, y, ht, hta⟩ :=
    h { runCounters s with cur := a, ctx := ctx, script := rest } z hc rfl rfl hz
  have hchange := exec_recordChange ht
  have hstep := step_placed_op (s := s) (hc ▸ hok) a ctx i rest
  exact ⟨t, y, runScript_cons (hstep.trans ht) hchange.script_eq, hchange.cfg_eq.trans hc, hta⟩

theorem CodecOp.runsTo (h : CodecOp cfg i f) (hok : configOk cfg = true)
    (hh : sh.faults.halted = false) : RunsTo cfg a [.op a .main (encode i)] sh (f sh) := by
  refine .of_exec hok fun s x hc hcur hctx ha => ?_
  subst hcur
  refine ⟨_, x, (h.exec_eq s hc).trans (onShared_ready f ⟨hctx, ha, hh⟩), ?_⟩
  rw [State.shared?_putShared_self _ ha, h.setCounter_comm]

theorem CodecProgram.runsTo (h : CodecProgram cfg is f) (hok : configOk cfg = true)
    (hh : sh.faults.halted = false) : RunsTo cfg a (issue a is) sh (f sh) := by
  induction h generalizing sh with
  | single h => exact h.runsTo hok hh
  | cons h hp ih => exact (h.runsTo hok hh).append (ih (by rw [h.halted_eq, hh]))

/-- TX_EXPIRY does not look at its agent's capture counter. -/
theorem txExpiry_setCounter (cfg : Config) (sh : Shared) (x : Nat) :
    txExpiry cfg (sh.setCounter x) = (txExpiry cfg sh).setCounter x := by
  obtain h | h := Nat.eq_zero_or_pos sh.tx.rb.size
  · rw [txExpiry_idle cfg h, txExpiry_idle cfg (sh := sh.setCounter x) h]
    rfl
  · rw [txExpiry_pop cfg h, txExpiry_pop cfg (sh := sh.setCounter x) h]
    rfl

/-- One expiry of an armed agent's timer; also where the agent is its own downstream agent, whose
counter a rising edge restarts (R328). -/
theorem runsTo_expiry (hok : configOk cfg = true) (hh : sh.faults.halted = false)
    (harmed : sh.tx.armed = true) : RunsTo cfg a (expiries a 1) sh (txExpiry cfg sh) := by
  refine .of_exec hok fun s x hc hcur hctx ha => ?_
  subst hc hcur
  have hput := State.shared?_putShared_self (txExpiry s.cfg (sh.setCounter x)) ha
  obtain ⟨-, hx⟩ | ⟨-, d, hd, hx⟩ :=
    exec_txExpiry_of_armed (sh := sh.setCounter x) ⟨hctx, ha, hh⟩ harmed
  · exact ⟨_, x, hx, by rw [hput, txExpiry_setCounter]⟩
  · by_cases hself : downstream s.nodes.length s.cur = s.cur
    · rw [hself] at hd hx
      rw [hput] at hd
      cases hd
      refine ⟨_, 0, hx, ?_⟩
      rw [State.shared?_putShared_self _ hput, txExpiry_setCounter, Shared.setCounter_setCounter]
    · refine ⟨_, x, hx, ?_⟩
      rw [State.shared?_putShared_ne _ (Ne.symm hself), hput, txExpiry_setCounter]

theorem expiries_add (a : AgentId) (m n : Nat) :
    expiries a (m + n) = expiries a m ++ expiries a n := List.replicate_add ..

end Runs

end Sys2Proof.Machine

end

section
/-! PROOFS. The waveform of a bulk (R147): the pairs that a bulk queues, and the pulses and low
periods that the expiries make of them. -/

namespace Sys2Proof.Machine

section Pairs

variable {cfg : Config} {sh : Shared}

/-! ### A bulk that finds room (R141 to R143) -/

theorem foldl_txBulkSchedule_of_room {ps : List TxPair} (h : sh.wf cfg)
    (hopen : sh.tx.bulkOpen = true) (hdur : ∀ p ∈ ps, durationOk cfg p.dur = true)
    (hroom : sh.tx.rb.size + sh.tx.pending + ps.length ≤ cfg.txCap) :
    ∃ rb, ps.foldl (fun x p => txBulkSchedule cfg p.level p.dur x) sh =
        { sh with tx := { sh.tx with rb := rb, pending := sh.tx.pending + ps.length } } ∧
      rb.size = sh.tx.rb.size ∧
      rb.entries cfg.txCap (sh.tx.rb.size + (sh.tx.pending + ps.length)) ⟨false, 0⟩ =
        sh.txAll cfg ++ ps := by
  induction ps generalizing sh with
  | nil => exact ⟨sh.tx.rb, rfl, rfl, (List.append_nil _).symm⟩
  | cons p ps ih =>
    obtain ⟨hp, hps⟩ := List.forall_mem_cons.mp hdur
    rw [List.length_cons] at hroom ⊢
    have hw := txBulkSchedule_wf p.level p.dur h
    obtain ⟨hb, -⟩ | ⟨-, hd, -⟩ | ⟨-, -, hf, -⟩ | ⟨-, -, -, e⟩ :=
      txBulkSchedule_cases cfg p.level p.dur sh
    · simp [hopen] at hb
    · simp [hp] at hd
    · omega
    · obtain ⟨⟨⟨hl, -, -, ht⟩, -⟩, -⟩ := h
      have hall := Ring.entries_write ⟨false, 0⟩ p hl
        (show sh.tx.rb.size + sh.tx.pending < cfg.txCap by omega) (by rw [ht, Nat.add_assoc])
      rw [List.foldl_cons, e]
      rw [e] at hw
      obtain ⟨rb, hfold, hsize, hentries⟩ := ih hw hopen hps (by simp only [Ring.write]; omega)
      refine ⟨rb, ?_, hsize, ?_⟩
      · rw [hfold]
        simp only [Nat.add_assoc, Nat.add_comm 1]
      · have hlen : sh.tx.pending + (ps.length + 1) = sh.tx.pending + 1 + ps.length := by omega
        rw [hlen]
        refine hentries.trans ?_
        rw [Shared.txAll, ← Nat.add_assoc, ← List.singleton_append, ← List.append_assoc]
        exact congrArg (· ++ ps) hall

/-- A bulk that finds room for all its pairs puts them behind those to be sent and arms the timer;
no fault is recorded. -/
theorem sendPairs_of_room {ps : List TxPair} (h : sh.wf cfg) (hclosed : sh.tx.bulkOpen = false)
    (hdur : ∀ p ∈ ps, durationOk cfg p.dur = true)
    (hroom : sh.tx.rb.size + ps.length ≤ cfg.txCap) :
    ∃ rb, sendPairs cfg ps sh =
        { sh with
          tx := { sh.tx with rb := rb, armed := sh.tx.armed || decide (0 < rb.size) } } ∧
      rb.size = sh.tx.rb.size + ps.length ∧
      rb.entries cfg.txCap rb.size ⟨false, 0⟩ = sh.txQueue cfg ++ ps := by
  have hp0 : sh.tx.pending = 0 := h.1.2.1 hclosed
  have hbegin : txBulkBegin sh =
      { sh with tx := { sh.tx with bulkOpen := true, pending := 0 } } := by
    rw [txBulkBegin, if_neg (by simp [hclosed])]
  have hw := txBulkBegin_wf h
  rw [hbegin] at hw
  obtain ⟨rb, hfold, hsize, hentries⟩ := foldl_txBulkSchedule_of_room hw rfl hdur hroom
  refine ⟨{ rb with size := sh.tx.rb.size + ps.length }, ?_, rfl, ?_⟩
  · rw [sendPairs, hbegin, hfold, txBulkEnd_open rfl]
    simp [hsize, hp0, hclosed]
  · simpa [Ring.entries] using hentries

/-! ### One expiry, by the pair at the head (R145) -/

/-- The first pair to be sent is at the head of the ring, and its expiry leaves the others. -/
theorem txExpiry_of_txQueue {p : TxPair} {q : List TxPair} (h : sh.wf cfg)
    (hq : sh.txQueue cfg = p :: q) :
    0 < sh.tx.rb.size ∧ txFront sh.tx.rb = p ∧ (txExpiry cfg sh).txQueue cfg = q := by
  obtain ⟨⟨hr, -⟩, -⟩ := h
  have hlen : sh.tx.rb.size = q.length + 1 := by
    simpa only [Ring.entries_length, List.length_cons] using congrArg List.length hq
  have hpop : (sh.tx.rb.pop cfg.txCap).size = q.length := by simp only [Ring.pop]; omega
  rw [Shared.txQueue, hlen, Ring.entries_pop, List.cons.injEq] at hq
  obtain ⟨hfront, hrest⟩ := hq
  have hpos : 0 < sh.tx.rb.size := by omega
  refine ⟨hpos, by rw [txFront, Ring.front_eq hr _ ⟨false, 0⟩, hfront], ?_⟩
  rw [txExpiry_pop cfg hpos, Shared.txQueue, hpop, hrest]

/-- A high pair on a low line starts a pulse. -/
theorem txExpiry_rise {d : Nat} (hs : 0 < sh.tx.rb.size) (hpin : sh.tx.pin = false)
    (hf : txFront sh.tx.rb = ⟨true, d⟩) :
    txExpiry cfg sh =
      { sh with
        tx :=
          { sh.tx with
            rb := sh.tx.rb.pop cfg.txCap, pin := true, reload := d, highAcc := d } } := by
  rw [txExpiry_pop cfg hs]
  simp [hpin, hf]

/-- A low pair on a high line ends the pulse, which leaves. -/
theorem txExpiry_fall {d : Nat} (hs : 0 < sh.tx.rb.size) (hpin : sh.tx.pin = true)
    (hf : txFront sh.tx.rb = ⟨false, d⟩) :
    txExpiry cfg sh =
      { sh with
        tx :=
          { sh.tx with
            rb := sh.tx.rb.pop cfg.txCap, pin := false, reload := d, highAcc := 0 }
        link := sh.link ++ [sh.tx.highAcc] } := by
  rw [txExpiry_pop cfg hs]
  simp [hpin, hf]

/-- The expiry after the last low period makes the TX idle. -/
theorem txExpiry_low_idle (hs : sh.tx.rb.size = 0) (hpin : sh.tx.pin = false) :
    txExpiry cfg sh = { sh with tx := { sh.tx with armed := false } } := by
  rw [txExpiry_idle cfg hs]
  simp [hpin]

/-! ### The pairs of bits and of a reset (R104, R106) -/

theorem bitPairs_eq (cfg : Config) (b : Bit) :
    bitPairs cfg b = [⟨true, highTime cfg b⟩, ⟨false, lowTime cfg b⟩] := by
  cases b <;> rfl

theorem bitsPairs_cons (cfg : Config) (b : Bit) (bits : List Bit) :
    bitsPairs cfg (b :: bits) =
      ⟨true, highTime cfg b⟩ :: ⟨false, lowTime cfg b⟩ :: bitsPairs cfg bits := by
  rw [bitsPairs, List.flatMap_cons, bitPairs_eq]
  rfl

theorem bitsPairs_append (cfg : Config) (bs cs : List Bit) :
    bitsPairs cfg (bs ++ cs) = bitsPairs cfg bs ++ bitsPairs cfg cs := List.flatMap_append

theorem bitsPairs_length (cfg : Config) (bits : List Bit) :
    (bitsPairs cfg bits).length = 2 * bits.length := by
  induction bits with
  | nil => rfl
  | cons b bits ih => rw [bitsPairs_cons]; simp only [List.length_cons, ih]; omega

/-- The high periods fit the timer by R10, and the low ones by the premise. -/
theorem durationOk_bitTimes (hok : configOk cfg = true) (hlow : lowsFit cfg) (b : Bit) :
    durationOk cfg (highTime cfg b) = true ∧ durationOk cfg (lowTime cfg b) = true := by
  obtain ⟨hrange, -, ⟨htime, -⟩, hthr⟩ := of_decide_eq_true hok
  obtain ⟨h0, h1, -⟩ := hlow
  have : 0 < 2 ^ cfg.durBits := Nat.two_pow_pos _
  rw [durationOk_iff, durationOk_iff]
  cases b <;> simp only [highTime, lowTime, Bool.false_eq_true, ↓reduceIte] <;> omega

theorem durationOk_of_mem_bitsPairs (hok : configOk cfg = true) (hlow : lowsFit cfg)
    {bits : List Bit} {p : TxPair} (hp : p ∈ bitsPairs cfg bits) : durationOk cfg p.dur = true := by
  obtain ⟨b, -, hp⟩ := List.mem_flatMap.mp hp
  obtain ⟨hhigh, hlo⟩ := durationOk_bitTimes hok hlow b
  rw [bitPairs_eq, List.mem_pair] at hp
  obtain rfl | rfl := hp
  · exact hhigh
  · exact hlo

theorem durationOk_of_mem_resetPairs (hok : configOk cfg = true) (hlow : lowsFit cfg)
    {p : TxPair} (hp : p ∈ resetPairs cfg) : durationOk cfg p.dur = true := by
  obtain ⟨hrange, -, -, hthr⟩ := of_decide_eq_true hok
  obtain ⟨-, -, hr⟩ := hlow
  have : 0 < 2 ^ cfg.durBits := Nat.two_pow_pos _
  rw [resetPairs, List.mem_pair] at hp
  obtain rfl | rfl := hp <;> rw [durationOk_iff] <;> dsimp only <;> omega

end Pairs

/-! ### From pulse to pulse -/

/-- An idle TX of an agent that has not halted: disarmed, and no bulk open. -/
structure IdleTx (cfg : Config) (sh : Shared) : Prop where
  wf : sh.wf cfg
  running : sh.faults.halted = false
  disarmed : sh.tx.armed = false
  closed : sh.tx.bulkOpen = false

/-- A TX between two pulses, of an agent that has not halted: the timer is armed, the line is low,
and the pairs `q` are to be sent. -/
structure BetweenPulses (cfg : Config) (q : List TxPair) (sh : Shared) : Prop where
  wf : sh.wf cfg
  running : sh.faults.halted = false
  armed : sh.tx.armed = true
  low : sh.tx.pin = false
  queue : sh.txQueue cfg = q

/-- The steps `es` take the record of `a` from `sh` to `sh'`, between two pulses with the pairs `q`
to be sent; the pulses `ws` have left, and no fault is recorded. -/
structure PulsesSent (cfg : Config) (a : AgentId) (es : List Event) (ws : List Nat)
    (q : List TxPair) (sh sh' : Shared) : Prop where
  runsTo : RunsTo cfg a es sh sh'
  between : BetweenPulses cfg q sh'
  faults_eq : sh'.faults = sh.faults
  link_eq : sh'.link = sh.link ++ ws

section Pulses

variable {cfg : Config} {a : AgentId} {sh : Shared} {q : List TxPair}

theorem PulsesSent.trans {es fs : List Event} {ws vs : List Nat} {q' : List TxPair}
    {sh' sh'' : Shared} (h : PulsesSent cfg a es ws q sh sh')
    (k : PulsesSent cfg a fs vs q' sh' sh'') :
    PulsesSent cfg a (es ++ fs) (ws ++ vs) q' sh sh'' where
  runsTo := h.runsTo.append k.runsTo
  between := k.between
  faults_eq := k.faults_eq.trans h.faults_eq
  link_eq := by rw [k.link_eq, h.link_eq, List.append_assoc]

/-- Issuing a bulk on an idle TX: its pairs are to be sent, and no pulse has left. -/
theorem IdleTx.send {ps : List TxPair} (h : IdleTx cfg sh) (hok : configOk cfg = true)
    (hne : ps ≠ []) (hdur : ∀ p ∈ ps, durationOk cfg p.dur = true)
    (hlen : ps.length ≤ cfg.txCap) :
    PulsesSent cfg a (issue a (bulkProgram ps)) [] ps sh (sendPairs cfg ps sh) := by
  obtain ⟨-, -, hidle, -⟩ := h.wf.1
  obtain ⟨hpin, hsize⟩ := hidle h.disarmed
  have hw := sendPairs_wf ps h.wf
  have hpos := List.length_pos_iff.mpr hne
  obtain ⟨rb, e, hrb, hq⟩ := sendPairs_of_room h.wf h.closed hdur (by omega)
  refine ⟨(codecProgram_bulkProgram cfg ps).runsTo hok h.running, ?_, by rw [e], by simp⟩
  rw [e] at hw ⊢
  refine ⟨hw, h.running, ?_, hpin, ?_⟩
  · simp only [Bool.or_eq_true, decide_eq_true_eq]; omega
  · exact hq.trans (by rw [Shared.txQueue, hsize, Ring.entries_zero, List.nil_append])

/-- Two expiries make one pulse and the low period after it (R145). -/
theorem BetweenPulses.pulse {hi lo : Nat} (hok : configOk cfg = true)
    (h : BetweenPulses cfg (⟨true, hi⟩ :: ⟨false, lo⟩ :: q) sh) :
    ∃ sh', PulsesSent cfg a (expiries a 2) [hi] q sh sh' ∧ sh'.tx.reload = lo := by
  obtain ⟨hs, hf, hq⟩ := txExpiry_of_txQueue h.wf h.queue
  have hw := txExpiry_wf h.wf
  have hrun := runsTo_expiry (a := a) hok h.running h.armed
  rw [txExpiry_rise hs h.low hf] at hq hw hrun
  obtain ⟨hs', hf', hq'⟩ := txExpiry_of_txQueue hw hq
  have hw' := txExpiry_wf hw
  have hrun' := hrun.append (runsTo_expiry hok h.running h.armed)
  rw [txExpiry_fall hs' rfl hf'] at hq' hw' hrun'
  exact ⟨_, ⟨hrun', ⟨hw', h.running, h.armed, rfl, hq'⟩, rfl, rfl⟩, rfl⟩

/-- The pulses of a list of bits, two expiries each. -/
theorem BetweenPulses.bits {bits : List Bit} (hok : configOk cfg = true)
    (h : BetweenPulses cfg (bitsPairs cfg bits ++ q) sh) :
    ∃ sh', PulsesSent cfg a (expiries a (2 * bits.length)) (bits.map (highTime cfg)) q sh sh' := by
  induction bits generalizing sh with
  | nil => exact ⟨sh, .nil, h, rfl, (List.append_nil _).symm⟩
  | cons b bits ih =>
    rw [bitsPairs_cons] at h
    obtain ⟨sh₁, hpulse, -⟩ := h.pulse (a := a) hok
    obtain ⟨sh₂, hrest⟩ := ih hpulse.between
    refine ⟨sh₂, ?_⟩
    have hall := hpulse.trans hrest
    rwa [← expiries_add, Nat.add_comm] at hall

/-- The expiry that finds the ring empty ends the armed period. -/
theorem BetweenPulses.idle (hok : configOk cfg = true) (h : BetweenPulses cfg [] sh) :
    sh.tx.rb.size = 0 ∧
      RunsTo cfg a (expiries a 1) sh { sh with tx := { sh.tx with armed := false } } := by
  have hsize : sh.tx.rb.size = 0 := by
    simpa only [Ring.entries_length, List.length_nil] using congrArg List.length h.queue
  refine ⟨hsize, ?_⟩
  rw [← txExpiry_low_idle hsize h.low]
  exact runsTo_expiry hok h.running h.armed

end Pulses

/-! ### SEND_BITS and SEND_RESET from an idle TX (R125, R126, R147) -/

section Sending

variable {cfg : Config} {a : AgentId} {sh : Shared} {bits : List Bit}

theorem IdleTx.sendBits (h : IdleTx cfg sh) (hok : configOk cfg = true) (hlow : lowsFit cfg)
    (hne : bits ≠ []) (hlen : 2 * bits.length ≤ cfg.txCap) :
    PulsesSent cfg a (issue a (sendBitsProgram cfg bits)) [] (bitsPairs cfg bits) sh
      (Machine.sendBits cfg bits sh) := by
  have hpos := List.length_pos_iff.mpr hne
  have hplen := bitsPairs_length cfg bits
  refine h.send hok (List.length_pos_iff.mp (by omega)) (fun p hp => ?_) (by omega)
  exact durationOk_of_mem_bitsPairs hok hlow hp

/-- After the `k`-th bit's two expiries the pulses up to its own have left, and its low period is
the reload value. -/
theorem IdleTx.sendBits_upTo {k : Nat} {b : Bit} (h : IdleTx cfg sh) (hok : configOk cfg = true)
    (hlow : lowsFit cfg) (hlen : 2 * bits.length ≤ cfg.txCap) (hk : bits[k]? = some b) :
    ∃ sh', PulsesSent cfg a (issue a (sendBitsProgram cfg bits) ++ expiries a (2 * k + 2))
        ((bits.take (k + 1)).map (highTime cfg)) (bitsPairs cfg (bits.drop (k + 1))) sh sh' ∧
      sh'.tx.reload = lowTime cfg b := by
  obtain ⟨hlt, hget⟩ := List.getElem?_eq_some_iff.mp hk
  have hsend := h.sendBits (a := a) hok hlow (List.ne_nil_of_length_pos (by omega)) hlen
  have hsplit : bits = bits.take k ++ b :: bits.drop (k + 1) := by
    rw [← hget, List.cons_getElem_drop_succ, List.take_append_drop]
  have hbetween := hsend.between
  rw [hsplit, bitsPairs_append, bitsPairs_cons, ← hsplit] at hbetween
  obtain ⟨sh₁, hbefore⟩ := hbetween.bits (a := a) hok
  obtain ⟨sh₂, hpulse, hreload⟩ := hbefore.between.pulse (a := a) hok
  refine ⟨sh₂, ?_, hreload⟩
  have hall := hsend.trans (hbefore.trans hpulse)
  rw [List.length_take_of_le (by omega), ← expiries_add] at hall
  rwa [List.take_add_one, hk, Option.toList_some, List.map_append]

/-- All the pulses of the bits, and the expiry after the last of them. -/
theorem IdleTx.sendBits_all (h : IdleTx cfg sh) (hok : configOk cfg = true) (hlow : lowsFit cfg)
    (hne : bits ≠ []) (hlen : 2 * bits.length ≤ cfg.txCap) :
    ∃ sh', RunsTo cfg a (issue a (sendBitsProgram cfg bits) ++ expiries a (2 * bits.length + 1))
        sh sh' ∧ sh'.tx.armed = false ∧ sh'.tx.pin = false ∧ sh'.tx.rb.size = 0 ∧
      sh'.faults = sh.faults ∧ sh'.link = sh.link ++ bits.map (highTime cfg) := by
  have hsend := h.sendBits (a := a) hok hlow hne hlen
  have hbetween := hsend.between
  rw [← List.append_nil (bitsPairs cfg bits)] at hbetween
  obtain ⟨sh₁, hbits⟩ := hbetween.bits (a := a) hok
  have hall := hsend.trans hbits
  obtain ⟨hsize, hidle⟩ := hbits.between.idle (a := a) hok
  have hrun := hall.runsTo.append hidle
  rw [List.append_assoc, ← expiries_add] at hrun
  exact ⟨_, hrun, rfl, hbits.between.low, hsize, hall.faults_eq, hall.link_eq⟩

/-- The one pulse of SEND_RESET, and the expiry after it. -/
theorem IdleTx.sendReset (h : IdleTx cfg sh) (hok : configOk cfg = true) (hlow : lowsFit cfg) :
    ∃ sh', RunsTo cfg a (issue a (sendResetProgram cfg) ++ expiries a 3) sh sh' ∧
      sh'.tx.armed = false ∧ sh'.faults = sh.faults ∧ sh'.link = sh.link ++ [cfg.tRstH] := by
  obtain ⟨-, ⟨-, -, hcap⟩, -⟩ := of_decide_eq_true hok
  have hsend := h.send (a := a) (ps := resetPairs cfg) hok (List.cons_ne_nil _ _)
    (fun p hp => durationOk_of_mem_resetPairs hok hlow hp)
    (show 2 ≤ cfg.txCap by omega)
  obtain ⟨sh₁, hpulse, -⟩ := hsend.between.pulse (a := a) hok
  have hall := hsend.trans hpulse
  obtain ⟨-, hidle⟩ := hpulse.between.idle (a := a) hok
  have hrun := hall.runsTo.append hidle
  rw [List.append_assoc, ← expiries_add] at hrun
  exact ⟨_, hrun, rfl, hall.faults_eq, hall.link_eq⟩

end Sending

end Sys2Proof.Machine

open Sys2Proof Sys2Proof.Machine

/-- Settles O20: the bulk queues the pairs on the idle TX, every two expiries make one pulse of
them, and the last expiry finds the ring empty. -/
theorem waveformLaw : Obligations.WaveformLaw := by
  intro s a sh bits hok hlow ha hrunning hwf hdisarmed hclosed hne hlen
  have hidle : IdleTx s.cfg sh := ⟨hwf, hrunning, hdisarmed, hclosed⟩
  refine ⟨fun k b hk => ?_, ?_, ?_⟩
  · obtain ⟨sh', hsent, hreload⟩ := hidle.sendBits_upTo (a := a) hok hlow hlen hk
    obtain ⟨t, y, ht, hta⟩ := hsent.runsTo.runScript_eq_next ha
    exact ⟨t, _, ht, hta, hsent.between.armed, hsent.between.low, hreload, hsent.faults_eq,
      hsent.link_eq⟩
  · obtain ⟨sh', hrun, harmed, hpin, hsize, hfaults, hlink⟩ :=
      hidle.sendBits_all (a := a) hok hlow hne hlen
    obtain ⟨t, y, ht, hta⟩ := hrun.runScript_eq_next ha
    exact ⟨t, _, ht, hta, harmed, hpin, hsize, hfaults, hlink⟩
  · obtain ⟨sh', hrun, harmed, hfaults, hlink⟩ := hidle.sendReset (a := a) hok hlow
    obtain ⟨t, y, ht, hta⟩ := hrun.runScript_eq_next ha
    exact ⟨t, _, ht, hta, harmed, hfaults, hlink⟩

end

section
/-! PROOFS. What each operation of the receive codec answers (R172 to R175): a capture by the pulse
it takes off the link, and a receive by the entries of the ring. -/

namespace Sys2Proof.Machine

variable {cfg : Config} {s t : State} {sh up : Shared} {w v c : Nat} {rest : List Nat}

/-! ### RX_CAPTURE (R172, R330) -/

/-- A capture's push, by whether the ring is full (R66). -/
theorem rxCapture_eq (cfg : Config) (v : Nat) (sh : Shared) :
    rxCapture cfg v sh =
      if sh.rx.rb.size = cfg.rxCap then sh.raise .rxOverflow
      else
        { sh with
          rx :=
            { sh.rx with
              rb := { sh.rx.rb.write cfg.rxCap v with size := sh.rx.rb.size + 1 } } } := by
  obtain ⟨hfull, e⟩ | ⟨rb, hp, e⟩ := rxCapture_cases cfg v sh
  · exact e.trans (if_pos hfull).symm
  · obtain ⟨hroom, rfl⟩ := Ring.push_eq_some.mp hp
    exact e.trans (if_neg hroom).symm

/-- RX_CAPTURE with the pulse `w` in front of the upstream link: a value that `w` can give is
captured; the agent's own record lacks the pulse too where it listens to its own link (R328). -/
theorem exec_rxCapture_of_pulse (hr : s.sharedReady .rxi sh)
    (hu : s.shared? (s.upstreamOf s.cur) = some up) (hl : up.link = w :: rest) :
    exec (.rxCapture v) s =
      if captureLow s.cfg w ≤ v ∧ v ≤ captureHigh s.cfg w then
        .next ((s.putShared (s.upstreamOf s.cur) { up with link := rest }).putShared s.cur
          (rxCapture s.cfg v
            (if s.upstreamOf s.cur = s.cur then { sh with link := rest } else sh)))
      else .refused .captureOutOfRange := by
  have hexec : exec (.rxCapture v) s = _ := withShared_ready _ hr
  have hown : (s.putShared (s.upstreamOf s.cur) { up with link := rest }).shared? s.cur =
      some (if s.upstreamOf s.cur = s.cur then { sh with link := rest } else sh) := by
    rw [State.shared?_putShared, hu]
    split
    case isTrue e =>
      rw [e, hr.2.1] at hu
      cases hu
      rfl
    case isFalse => exact hr.2.1
  rw [hexec]
  simp only [State.linkOf_eq hu, hl, State.putLink_eq rest hu, hown]

/-- The range of the values that a pulse can give, as R330 writes it. -/
theorem captured_iff :
    (captureLow cfg w ≤ v ∧ v ≤ captureHigh cfg w) ↔
      if w + cfg.jitter ≥ 2 ^ cfg.capBits then v ≤ 2 ^ cfg.capBits - 1
      else w - cfg.jitter ≤ v ∧ v ≤ w + cfg.jitter := by
  unfold captureLow captureHigh
  split <;> simp

theorem not_captured_iff :
    ¬(captureLow cfg w ≤ v ∧ v ≤ captureHigh cfg w) ↔
      if w + cfg.jitter ≥ 2 ^ cfg.capBits then v > 2 ^ cfg.capBits - 1
      else v < w - cfg.jitter ∨ w + cfg.jitter < v := by
  rw [captured_iff]
  split <;> omega

theorem exec_rxCapture_of_empty (hr : s.sharedReady .rxi sh)
    (hl : s.linkOf (s.upstreamOf s.cur) = []) :
    exec (.rxCapture v) s = .refused .notEnabled := by
  have hexec : exec (.rxCapture v) s = _ := withShared_ready _ hr
  rw [hexec]
  simp only [hl]

/-! ### The four bands (R173) -/

theorem classify_eq_error (h : c < cfg.rxMin) : classify cfg c = .error := if_pos h

/-- The bands lie side by side and cover all values. -/
theorem classify_cases (hms : cfg.rxMin < cfg.rxSplit) (hsm : cfg.rxSplit < cfg.rxMax) (c : Nat) :
    (c < cfg.rxMin ∧ classify cfg c = .error) ∨
    (cfg.rxMin ≤ c ∧ c < cfg.rxSplit ∧ classify cfg c = .zero) ∨
    (cfg.rxSplit ≤ c ∧ c < cfg.rxMax ∧ classify cfg c = .one) ∨
    (cfg.rxMax ≤ c ∧ classify cfg c = .reset) := by
  by_cases hmin : c < cfg.rxMin
  · exact .inl ⟨hmin, classify_eq_error hmin⟩
  by_cases hsplit : c < cfg.rxSplit
  · have hlo := Nat.le_of_not_lt hmin
    exact .inr (.inl ⟨hlo, hsplit, classify_eq_zero hlo hsplit⟩)
  by_cases hmax : c < cfg.rxMax
  · have hlo := Nat.le_of_not_lt hsplit
    exact .inr (.inr (.inl ⟨hlo, hmax, classify_eq_one hms hlo hmax⟩))
  · have hlo := Nat.le_of_not_lt hmax
    exact .inr (.inr (.inr ⟨hlo, classify_eq_reset hms hsm hlo⟩))

/-! ### RX_RECEIVE_BIT (R175) -/

theorem rxReceiveBit_of_empty (h : sh.rx.rb.size = 0) :
    rxReceiveBit cfg sh = sh.raise .rxEmptyRead := if_pos h

theorem rxReceiveBit_of_pos (h : 0 < sh.rx.rb.size) :
    rxReceiveBit cfg sh =
      (rxTake cfg sh).2.answer (.sym (classify cfg (rxFront sh.rx.rb))) :=
  if_neg (Nat.ne_of_gt h)

/-- The front of an RX ring whose head slot holds `c`. -/
theorem rxFront_eq {r : Ring Nat} (h : r.slots[r.head]? = some c) : rxFront r = c := by
  simp [rxFront, Ring.front, h]

/-- An operation that answers a next state is one of an agent that has not halted (R316). -/
theorem AdmittedBy.running_of_next {i : Instr} {o : Host.Outcome State Fault Refusal}
    (h : AdmittedBy s i o) (ho : o = .next t) (ha : s.shared? s.cur = some sh) :
    sh.faults.halted = false := by
  cases h with
  | shared k =>
    obtain ⟨x, ⟨-, hx, hrunning⟩, -⟩ := withShared_next ho
    rw [ha] at hx
    cases hx
    exact hrunning
  | node k =>
    obtain ⟨j, n, ⟨-, hc, hn, hrunning⟩, -⟩ := withNode_next ho
    rw [hc, State.shared?_node, hn] at ha
    cases ha
    exact hrunning
  | coordinator k =>
    obtain ⟨⟨-, hc, hrunning⟩, -⟩ := withCoord_next ho
    rw [hc] at ha
    cases ha
    exact hrunning

theorem exec_ne_next_of_halted (ha : s.shared? s.cur = some sh) (hh : sh.faults.halted = true)
    (i : Instr) (ctx : Context) : exec i { s with ctx := ctx } ≠ .next t := by
  intro h
  have hrunning := (exec_admittedBy i _).running_of_next (s := { s with ctx := ctx }) h ha
  rw [hh] at hrunning
  cases hrunning

end Sys2Proof.Machine

open Sys2Proof Sys2Proof.Machine

/-- Settles O22: the value lies within the pulse's draw range or not, and the link is empty or not. -/
theorem rxCaptureResult : Obligations.RxCaptureResult := by
  refine ⟨fun _ => rfl, fun s sh up own w value rest hr hu hl hown hv => ?_,
    fun s sh up w value rest hr hu hl hv => ?_, fun s sh value => exec_rxCapture_of_empty⟩
  · rw [exec_rxCapture_of_pulse hr hu hl, if_pos (captured_iff.mpr hv), ← hown, rxCapture_eq]
    rfl
  · rw [exec_rxCapture_of_pulse hr hu hl, if_neg (not_captured_iff.mpr hv)]

/-- Settles O23: each value lies in one of the bands, and in no other. -/
theorem classifyBands : Obligations.ClassifyBands := by
  intro cfg c hms hsm
  obtain ⟨hhi, e⟩ | ⟨hlo, hhi, e⟩ | ⟨hlo, hhi, e⟩ | ⟨hlo, e⟩ := classify_cases hms hsm c <;>
    simp only [e, reduceCtorEq, true_iff, false_iff] <;> omega

/-- Settles O24: the operation is its effect on the record of an agent that passes the admission. -/
theorem rxBitsAvailableResult : Obligations.RxBitsAvailableResult :=
  ⟨rfl, fun _ _ hr => onShared_ready rxBitsAvailable hr⟩

/-- Settles O25: the receive from an empty ring, which halts the agent, and from one with an entry. -/
theorem rxReceiveBitResult : Obligations.RxReceiveBitResult := by
  refine ⟨rfl, fun s sh hr hs => ?_, fun s sh c hr hs hc => ?_⟩
  · have hexec : exec .rxReceiveBit s = _ := onShared_ready (rxReceiveBit s.cfg) hr
    rw [rxReceiveBit_of_empty hs] at hexec
    refine ⟨_, hexec, rfl, fun i ctx u => ?_⟩
    have hhalted : (sh.raise .rxEmptyRead).faults.halted = true := by
      rw [Shared.raise_faults, FaultSet.halted_add, FaultCode.halts, Bool.or_true]
    refine exec_ne_next_of_halted ?_ hhalted i ctx
    rw [State.putShared_cur]
    exact State.shared?_putShared_self _ hr.2.1
  · refine (onShared_ready (rxReceiveBit s.cfg) hr).trans ?_
    rw [rxReceiveBit_of_pos hs, rxFront_eq hc]
    rfl

end

section
/-! PROOFS. A run of placed steps in parts: no operation looks at what is placed behind it, so that
the steps placed first can be run before the others are placed (log entry 6). -/

namespace Sys2Proof.Machine

variable {s t : State} {i : Instr} {e : Event} {es : List Event}

/-! ### An operation with another script -/

theorem State.putShared_script_eq (s : State) (a : AgentId) (sh : Shared) (es : List Event) :
    ({ s with script := es } : State).putShared a sh = { s.putShared a sh with script := es } := by
  cases a <;> rfl

theorem State.risingEdge_script_eq (s : State) (a : AgentId) (es : List Event) :
    ({ s with script := es } : State).risingEdge a = { s.risingEdge a with script := es } := by
  have hd : ({ s with script := es } : State).shared? (downstream s.nodes.length a) =
      s.shared? (downstream s.nodes.length a) := rfl
  cases h : s.shared? (downstream s.nodes.length a) with
  | none => simp only [State.risingEdge, hd, h]
  | some d => simp only [State.risingEdge, hd, h, State.putShared_script_eq]

theorem onShared_script {f : Shared → Shared} (h : onShared s f = .next t) (es : List Event) :
    onShared { s with script := es } f = .next { t with script := es } := by
  obtain ⟨sh, hr, rfl⟩ := onShared_next h
  have hx := onShared_ready (s := { s with script := es }) f hr
  rwa [State.putShared_script_eq] at hx

theorem onNode_script {f : NodeRec → Nat → NodeRec × Nat} (h : onNode s f = .next t)
    (es : List Event) : onNode { s with script := es } f = .next { t with script := es } := by
  obtain ⟨j, n, hr, rfl⟩ := onNode_next h
  exact onNode_ready (s := { s with script := es }) f hr

theorem onCoord_script {f : CoordRec → CoordRec} (h : onCoord s f = .next t) (es : List Event) :
    onCoord { s with script := es } f = .next { t with script := es } := by
  obtain ⟨hr, rfl⟩ := onCoord_next h
  exact onCoord_ready (s := { s with script := es }) f hr

theorem execTxExpiry_script (h : execTxExpiry s = .next t) (es : List Event) :
    execTxExpiry { s with script := es } = .next { t with script := es } := by
  obtain ⟨sh, hr, hk⟩ := withShared_next h
  have hx : execTxExpiry { s with script := es } = _ :=
    withShared_ready (s := { s with script := es }) _ hr
  simp only [State.putShared_script_eq, State.risingEdge_script_eq] at hx
  cases ha : sh.tx.armed <;> simp only [ha, Bool.false_eq_true, ↓reduceIte] at hk hx
  · cases hk
  · cases hk
    rw [hx]
    split <;> rfl

theorem execRxCapture_script {v : Nat} (h : execRxCapture v s = .next t) (es : List Event) :
    execRxCapture v { s with script := es } = .next { t with script := es } := by
  obtain ⟨sh, up, w, rest, x, hr, hu, hl, hlo, hhi, -, -⟩ := execRxCapture_next h
  have hs : exec (.rxCapture v) s = .next t := h
  rw [exec_rxCapture_of_pulse hr hu hl, if_pos ⟨hlo, hhi⟩] at hs
  cases hs
  have hx : exec (.rxCapture v) { s with script := es } = _ :=
    exec_rxCapture_of_pulse (s := { s with script := es }) hr hu hl
  rw [if_pos ⟨hlo, hhi⟩] at hx
  simp only [State.putShared_script_eq] at hx
  exact hx

theorem execDbPublish_script {n : Nat} (h : execDbPublish n s = .next t) (es : List Event) :
    execDbPublish n { s with script := es } = .next { t with script := es } := by
  obtain ⟨hr, hk⟩ := withCoord_next h
  refine (withCoord_ready (s := { s with script := es }) _ hr).trans ?_
  split at hk
  case isTrue => cases hk
  case isFalse hle =>
    cases hk
    exact if_neg hle

/-- What is placed behind an operation does not change what it does. -/
theorem exec_script (h : exec i s = .next t) (es : List Event) :
    exec i { s with script := es } = .next { t with script := es } := by
  cases i with
  | txExpiry => exact execTxExpiry_script h es
  | rxCapture v => exact execRxCapture_script h es
  | nodeStep sym elapsed => exact onNode_script h es
  | nodeReset => exact onNode_script h es
  | nodePoll now => exact onNode_script h es
  | dbPublish n => exact execDbPublish_script h es
  | txSchedule | txBulkBegin | txBulkSchedule | txBulkEnd | rxBitsAvailable | rxReceiveBit =>
    exact onShared_script h es
  | coordReset | coordReseed | wdInit | wdPoll => exact onCoord_script h es
  | coordFeed bit =>
    have hx : execCoordFeed bit s = .next t := h
    exact onCoord_script hx es
  | dbLatestSnapshot =>
    have hx : execDbLatestSnapshot s = .next t := h
    exact onCoord_script hx es
  | dbEdgeEvents =>
    have hx : execDbEdgeEvents s = .next t := h
    exact onCoord_script hx es

/-! ### A placed step and a run of them -/

theorem configOk_of_step (h : step { s with script := es } = .next t) :
    configOk s.cfg = true := by
  unfold step stepSystem at h
  split at h
  case isTrue hok => exact hok
  case isFalse => cases h

/-- A placed step leaves what is placed behind it, whatever that is. -/
theorem step_script (h : step { s with script := e :: es } = .next t) (fs : List Event) :
    t.script = es ∧ step { s with script := e :: fs } = .next { t with script := fs } := by
  have hok : configOk s.cfg = true := configOk_of_step h
  rw [step_placed (s := { s with script := e :: es }) hok rfl] at h
  rw [step_placed (s := { s with script := e :: fs }) hok rfl]
  cases e with
  | clockAdvance d => cases h; exact ⟨rfl, rfl⟩
  | op a ctx word =>
    simp only [runEvent] at h ⊢
    split at h
    case h_2 => cases h
    case h_1 i hd => exact ⟨(exec_recordChange h).script_eq, exec_script h fs⟩

theorem runScript_cons_next (h : runScript (e :: es) s = .next t) :
    ∃ r, step { s with script := e :: es } = .next r ∧ runScript es r = .next t := by
  rw [runScript, List.length_cons, runSteps] at h
  split at h
  case h_1 r hr =>
    refine ⟨r, hr, ?_⟩
    obtain ⟨rfl, -⟩ := step_script hr []
    exact h
  case h_2 => cases h
  case h_3 => cases h

/-- A run that ends in a next state can be taken before the steps behind it. -/
theorem runScript_append (h : runScript es s = .next t) (fs : List Event) :
    runScript (es ++ fs) s = runScript fs t := by
  induction es generalizing s with
  | nil => cases h; rfl
  | cons e es ih =>
    obtain ⟨r, hr, hrest⟩ := runScript_cons_next h
    obtain ⟨-, hstep⟩ := step_script hr (es ++ fs)
    exact (runScript_cons hstep rfl).trans (ih hrest)

end Sys2Proof.Machine

end

section
/-! PROOFS. The round trip of a pulse (R176): sending leaves every RX ring as it is, and a pulse that
stands in front of a link is received as the class of the value captured from it. -/

namespace Sys2Proof.Machine

/-! ### What sending leaves alone -/

/-- The operations of a bulk (R125) and of the timer that sends its pairs (R145). -/
inductive SendingOp : Instr → Prop
  | bulkBegin : SendingOp .txBulkBegin
  | bulkSchedule (level : Level) (dur : Nat) : SendingOp (.txBulkSchedule level dur)
  | bulkEnd : SendingOp .txBulkEnd
  | expiry : SendingOp .txExpiry

/-- A placed step of an agent that sends. -/
inductive SendingEvent : Event → Prop
  | op (a : AgentId) (ctx : Context) {i : Instr} (h : SendingOp i) :
      SendingEvent (.op a ctx (encode i))

/-- `t` has the agents of `s`, with the same RX rings; the same agents have halted. -/
structure ReceiversKept (s t : State) : Prop where
  cfg_eq : t.cfg = s.cfg
  nodes_length_eq : t.nodes.length = s.nodes.length
  record : ∀ (a : AgentId) (sh : Shared), s.shared? a = some sh →
    ∃ sh', t.shared? a = some sh' ∧ sh'.rx.rb = sh.rx.rb ∧ sh'.faults.halted = sh.faults.halted

section Kept

variable {s r t : State} {a : AgentId} {sh sh' : Shared} {i : Instr} {es : List Event}

theorem ReceiversKept.trans (h : ReceiversKept s r) (k : ReceiversKept r t) :
    ReceiversKept s t where
  cfg_eq := k.cfg_eq.trans h.cfg_eq
  nodes_length_eq := k.nodes_length_eq.trans h.nodes_length_eq
  record a sh ha := by
    obtain ⟨x, hx, hring, hhalted⟩ := h.record a sh ha
    obtain ⟨y, hy, hring', hhalted'⟩ := k.record a x hx
    exact ⟨y, hy, hring'.trans hring, hhalted'.trans hhalted⟩

theorem putShared_receiversKept (ha : s.shared? a = some sh) (hring : sh'.rx.rb = sh.rx.rb)
    (hhalted : sh'.faults.halted = sh.faults.halted) : ReceiversKept s (s.putShared a sh') where
  cfg_eq := by simp
  nodes_length_eq := by simp
  record b x hx := by
    by_cases e : b = a
    · subst e
      rw [ha] at hx
      cases hx
      exact ⟨sh', State.shared?_putShared_self _ ha, hring, hhalted⟩
    · exact ⟨x, (State.shared?_putShared_ne _ e).trans hx, rfl, rfl⟩

/-- The counters run on before a placed step (R170). -/
theorem runCounters_receiversKept (s : State) (a : AgentId) (ctx : Context) (es : List Event) :
    ReceiversKept s { runCounters s with cur := a, ctx := ctx, script := es } where
  cfg_eq := rfl
  nodes_length_eq := runCounters_nodes_length s
  record a sh ha := by
    obtain ⟨y, -, hy⟩ := (runCounters_ranTo s).shared? ha
    exact ⟨_, hy, rfl, rfl⟩

theorem onShared_receiversKept {f : Shared → Shared} (h : onShared s f = .next t)
    (hframe : ∀ sh, TxFrame sh (f sh))
    (hhalted : ∀ sh, (f sh).faults.halted = sh.faults.halted) : ReceiversKept s t := by
  obtain ⟨sh, ⟨-, ha, -⟩, rfl⟩ := onShared_next h
  obtain ⟨hrx, -, -⟩ := hframe sh
  exact putShared_receiversKept ha (congrArg Rx.rb hrx) (hhalted sh)

theorem txExpiry_rx (cfg : Config) (sh : Shared) : (txExpiry cfg sh).rx = sh.rx := by
  obtain h | h := Nat.eq_zero_or_pos sh.tx.rb.size
  · rw [txExpiry_idle cfg h]
  · rw [txExpiry_pop cfg h]

theorem execTxExpiry_receiversKept (h : execTxExpiry s = .next t) : ReceiversKept s t := by
  obtain ⟨sh, ⟨-, ha, -⟩, -, hcases⟩ := execTxExpiry_next h
  have hown : ReceiversKept s (s.putShared s.cur (txExpiry s.cfg sh)) :=
    putShared_receiversKept ha (by rw [txExpiry_rx]) (by rw [txExpiry_faults])
  obtain ⟨-, rfl⟩ | ⟨-, d, hd, rfl⟩ := hcases
  · exact hown
  · exact hown.trans (putShared_receiversKept hd rfl rfl)

theorem SendingOp.receiversKept (hi : SendingOp i) (h : exec i s = .next t) :
    ReceiversKept s t := by
  cases hi with
  | bulkBegin =>
    exact onShared_receiversKept h txBulkBegin_frame (codecOp_txBulkBegin s.cfg).halted_eq
  | bulkSchedule level dur =>
    exact onShared_receiversKept h (txBulkSchedule_frame s.cfg level dur)
      (codecOp_txBulkSchedule s.cfg level dur).halted_eq
  | bulkEnd => exact onShared_receiversKept h txBulkEnd_frame (codecOp_txBulkEnd s.cfg).halted_eq
  | expiry => exact execTxExpiry_receiversKept h

theorem runScript_receiversKept (hes : ∀ e ∈ es, SendingEvent e)
    (h : runScript es s = .next t) : ReceiversKept s t := by
  induction es generalizing s with
  | nil => cases h; exact ⟨rfl, rfl, fun _ sh ha => ⟨sh, ha, rfl, rfl⟩⟩
  | cons e es ih =>
    obtain ⟨⟨a, ctx, hi⟩, htail⟩ := List.forall_mem_cons.mp hes
    obtain ⟨r, hr, hrest⟩ := runScript_cons_next h
    have hok : configOk s.cfg = true := configOk_of_step hr
    rw [step_placed_op hok] at hr
    have hfirst := (runCounters_receiversKept s a ctx es).trans (hi.receiversKept hr)
    exact hfirst.trans (ih htail hrest)

theorem sendingEvent_of_mem {u : AgentId} {ps : List TxPair} {k : Nat} {e : Event}
    (h : e ∈ issue u (bulkProgram ps) ++ expiries u k) : SendingEvent e := by
  obtain h | h := List.mem_append.mp h
  · obtain ⟨i, hi, rfl⟩ := List.mem_map.mp h
    refine .op u .main ?_
    simp only [bulkProgram, List.mem_append, List.mem_cons, List.mem_map, List.not_mem_nil,
      or_false] at hi
    obtain rfl | ⟨p, -, rfl⟩ | rfl := hi
    · exact .bulkBegin
    · exact .bulkSchedule ..
    · exact .bulkEnd
  · rw [List.eq_of_mem_replicate h]
    exact .op u .txi .expiry

end Kept

/-! ### A pulse in front of a link, captured and received -/

section Receiving

variable {cfg : Config} {s : State} {u : AgentId} {sh up down : Shared} {v w : Nat}
  {rest : List Nat}

/-- The agent that an agent of the ring drives listens to it (R328). -/
theorem State.upstreamOf_downstream (h : s.shared? u = some up) :
    s.upstreamOf (downstream s.nodes.length u) = u := by
  cases u with
  | coordinator =>
    by_cases hn : s.nodes.length = 0 <;> simp [State.upstreamOf, downstream, upstream, hn]
  | node i =>
    obtain ⟨n, hn, -⟩ := Option.map_eq_some_iff.mp h
    obtain ⟨hlt, -⟩ := List.getElem?_eq_some_iff.mp hn
    by_cases hi : i + 1 < s.nodes.length
    · simp [State.upstreamOf, downstream, upstream, hi]
    · have hlast : s.nodes.length - 1 = i := by omega
      have hne : s.nodes.length ≠ 0 := by omega
      simp only [State.upstreamOf, downstream, upstream, if_neg hi, if_neg hne, hlast]

/-- The value captured into an empty ring is the one that the next receive classifies. -/
theorem rxReceiveBit_rxCapture_ret (h : sh.rx.rb.wf cfg.rxCap 0) (hs : sh.rx.rb.size = 0) :
    (rxReceiveBit cfg (rxCapture cfg v sh)).ret = .sym (classify cfg v) := by
  obtain ⟨hlen, hhead, -, htail⟩ := h
  have hslot : (sh.rx.rb.slots.set sh.rx.rb.tail v)[sh.rx.rb.head]? = some v := by
    rw [htail, hs, Nat.add_zero, Nat.mod_eq_of_lt hhead,
      List.getElem?_set_self (hlen ▸ hhead)]
  rw [rxCapture_eq, if_neg (by omega), rxReceiveBit_of_pos (Nat.succ_pos _), rxFront_eq hslot,
    Shared.answer_ret]

theorem rxReceiveBit_setCounter (cfg : Config) (sh : Shared) (x : Nat) :
    rxReceiveBit cfg (sh.setCounter x) = (rxReceiveBit cfg sh).setCounter x := by
  simp only [rxReceiveBit, apply_ite (Shared.setCounter · x)]
  rfl

theorem rxCapture_halted (cfg : Config) (v : Nat) (sh : Shared) :
    (rxCapture cfg v sh).faults.halted = sh.faults.halted := by
  obtain ⟨-, e⟩ | ⟨rb, -, e⟩ := rxCapture_cases cfg v sh
  · rw [e, halted_raise rfl]
  · rw [e]

/-- One receive of an agent that has not halted. -/
theorem runsTo_receive {a : AgentId} (hok : configOk cfg = true)
    (hh : sh.faults.halted = false) :
    RunsTo cfg a (issue a [.rxReceiveBit]) sh (rxReceiveBit cfg sh) := by
  refine .of_exec hok fun s x hc hcur hctx ha => ?_
  subst hc hcur
  refine ⟨_, x, onShared_ready (rxReceiveBit s.cfg) ⟨hctx, ha, hh⟩, ?_⟩
  rw [State.shared?_putShared_self _ ha, rxReceiveBit_setCounter]

/-- A capture puts its value into the agent's record, which has else lost at most a pulse of its own
link. -/
theorem exec_rxCapture_own (hr : s.sharedReady .rxi sh)
    (hu : s.shared? (s.upstreamOf s.cur) = some up) (hl : up.link = w :: rest)
    (hlo : captureLow s.cfg w ≤ v) (hhi : v ≤ captureHigh s.cfg w) :
    ∃ t x, exec (.rxCapture v) s = .next t ∧ t.shared? s.cur = some (rxCapture s.cfg v x) ∧
      x = { sh with link := x.link } := by
  have hexec := exec_rxCapture_of_pulse (v := v) hr hu hl
  rw [if_pos ⟨hlo, hhi⟩] at hexec
  obtain ⟨-, up', w', rest', x, -, hu', -, -, -, hx, ht⟩ := execRxCapture_next hexec
  refine ⟨_, x, hexec, ?_, State.shared?_putShared_link hr.2.1 hu' hx⟩
  rw [ht, State.shared?_putShared_self _ hx]

/-- The downstream agent of `u` captures the pulse in front of the link of `u`. -/
theorem step_capture (hok : configOk s.cfg = true) (hu : s.shared? u = some up)
    (hl : up.link = w :: rest) (hd : s.shared? (downstream s.nodes.length u) = some down)
    (hh : down.faults.halted = false) (hlo : captureLow s.cfg w ≤ v)
    (hhi : v ≤ captureHigh s.cfg w) (es : List Event) :
    ∃ t x, step { s with script := capture (downstream s.nodes.length u) v :: es } = .next t ∧
      t.cfg = s.cfg ∧ t.script = es ∧
      t.shared? (downstream s.nodes.length u) = some (rxCapture s.cfg v x) ∧
      x.rx.rb = down.rx.rb ∧ x.faults = down.faults := by
  obtain ⟨x, -, hux⟩ := (runCounters_ranTo s).shared? hu
  obtain ⟨y, -, hdy⟩ := (runCounters_ranTo s).shared? hd
  have hup : (runCounters s).upstreamOf (downstream s.nodes.length u) = u := by
    rw [State.upstreamOf, runCounters_nodes_length]
    exact State.upstreamOf_downstream hu
  rw [← hup] at hux
  obtain ⟨t, x, ht, hta, hx⟩ := exec_rxCapture_own
    (s := { runCounters s with
      cur := downstream s.nodes.length u, ctx := .rxi, script := es })
    (sh := down.setCounter y) ⟨rfl, hdy, hh⟩ hux hl hlo hhi
  have hchange := exec_recordChange ht
  exact ⟨t, x, (step_placed_op hok _ _ _ es).trans ht, hchange.cfg_eq, hchange.script_eq, hta,
    by rw [hx]; rfl, by rw [hx]; rfl⟩

/-- The pulse in front of the link of `u` is received by the downstream agent, whose ring is empty,
as the class of the captured value. -/
theorem runScript_capture_receive (hok : configOk s.cfg = true) (hu : s.shared? u = some up)
    (hl : up.link = w :: rest) (hd : s.shared? (downstream s.nodes.length u) = some down)
    (hh : down.faults.halted = false) (hwf : down.rx.rb.wf s.cfg.rxCap 0)
    (hs : down.rx.rb.size = 0) (hlo : captureLow s.cfg w ≤ v) (hhi : v ≤ captureHigh s.cfg w) :
    ∃ t sh, runScript (capture (downstream s.nodes.length u) v ::
        issue (downstream s.nodes.length u) [.rxReceiveBit]) s = .next t ∧
      t.shared? (downstream s.nodes.length u) = some sh ∧ sh.ret = .sym (classify s.cfg v) := by
  obtain ⟨r, x, hr, hcfg, hscript, hrx, hring, hfaults⟩ := step_capture hok hu hl hd hh hlo hhi
    (issue (downstream s.nodes.length u) [.rxReceiveBit])
  have hrunning : (rxCapture s.cfg v x).faults.halted = false := by
    rw [rxCapture_halted, hfaults, hh]
  rw [← hcfg] at hok hwf hrunning hrx ⊢
  have hreceive := runsTo_receive (a := downstream s.nodes.length u) hok hrunning
  obtain ⟨t, y, ht, hty⟩ := hreceive.runScript_eq_next hrx
  exact ⟨t, _, (runScript_cons hr hscript).trans ht, hty,
    rxReceiveBit_rxCapture_ret (hring ▸ hwf) (hring ▸ hs)⟩

/-- A pulse that the steps `es` of a sender put in front of its link is received by its downstream
agent: those steps leave the receiver's ring empty. -/
theorem runScript_send_receive {es : List Event} (hok : configOk s.cfg = true)
    (hu : s.shared? u = some up) (hd : s.shared? (downstream s.nodes.length u) = some down)
    (hh : down.faults.halted = false) (hwf : down.rx.rb.wf s.cfg.rxCap 0)
    (hs : down.rx.rb.size = 0) (hes : ∀ e ∈ es, SendingEvent e) (hrun : RunsTo s.cfg u es up sh)
    (hl : sh.link = [w]) (hlo : captureLow s.cfg w ≤ v) (hhi : v ≤ captureHigh s.cfg w) :
    ∃ t x, runScript (es ++ capture (downstream s.nodes.length u) v ::
        issue (downstream s.nodes.length u) [.rxReceiveBit]) s = .next t ∧
      t.shared? (downstream s.nodes.length u) = some x ∧ x.ret = .sym (classify s.cfg v) := by
  obtain ⟨r, y, hr, hru⟩ := hrun.runScript_eq_next hu
  obtain ⟨hcfg, hlen, hrecord⟩ := runScript_receiversKept hes hr
  obtain ⟨x, hrx, hring, hhalted⟩ := hrecord _ _ hd
  rw [runScript_append hr, ← hlen, ← hcfg]
  rw [← hlen] at hrx
  rw [← hcfg] at hok hwf hlo hhi
  exact runScript_capture_receive hok hru hl hrx (hhalted.trans hh) (hring ▸ hwf) (hring ▸ hs)
    hlo hhi

end Receiving

end Sys2Proof.Machine

open Sys2Proof Sys2Proof.Machine

/-- Settles O28: the sender's steps put one pulse on its link (R147) and leave the receiver's ring
empty, and each value captured from the pulse classifies as sent (R10). -/
theorem roundTripLaw : Obligations.RoundTripLaw := by
  intro s u up down v hok hlow hu hrunning hwf hdisarmed hclosed hlink hd hh hdown hs
  obtain ⟨-, hring, -⟩ := hdown
  have hidle : IdleTx s.cfg up := ⟨hwf, hrunning, hdisarmed, hclosed⟩
  obtain ⟨-, ⟨-, -, hcap⟩, -, hthr⟩ := of_decide_eq_true hok
  refine ⟨fun b hlo hhi => ?_, fun hlo hhi => ?_⟩
  · obtain ⟨sh, hrun, -, -, -, -, hsent⟩ := hidle.sendBits_all (a := u) (bits := [b]) hok hlow
      (List.cons_ne_nil _ _) (show 2 ≤ s.cfg.txCap by omega)
    rw [hlink] at hsent
    rw [← classify_of_bit_capture hthr b hlo hhi]
    exact runScript_send_receive hok hu hd hh hring hs (fun _ => sendingEvent_of_mem) hrun hsent
      hlo hhi
  · obtain ⟨sh, hrun, -, -, hsent⟩ := hidle.sendReset (a := u) hok hlow
    rw [hlink] at hsent
    rw [← classify_of_reset_capture hthr hlo hhi]
    exact runScript_send_receive hok hu hd hh hring hs (fun _ => sendingEvent_of_mem) hrun hsent
      hlo hhi

end


section
/-! PROOFS. The node automaton (R200 to R209): what a NODE_STEP does, said once per rule as an
equation of `nodeStep` and `nodeBit`. -/

namespace Sys2Proof.Machine

/-! ### A node operation in the state -/

section System

variable {s : State} {i : Nat} {n m : NodeRec}

/-- Replacing a node's record by itself changes nothing. -/
theorem State.putNode_self (h : s.nodes[i]? = some n) : s.putNode i n = s := by
  obtain ⟨hlt, hget⟩ := List.getElem?_eq_some_iff.mp h
  rw [State.putNode, ← hget, List.set_getElem_self hlt]

/-- Replacing twice leaves the second. -/
theorem State.putNode_putNode (s : State) (i : Nat) (n m : NodeRec) :
    (s.putNode i n).putNode i m = s.putNode i m := by
  simp only [State.putNode, List.set_set]

/-- The step stays one of the main line of node `i` when a record that has not halted is put
there. -/
theorem State.nodeReady.putNode (h : s.nodeReady i n) (hm : m.sh.faults.halted = false) :
    (s.putNode i m).nodeReady i m := by
  obtain ⟨hc, hu, hn, -⟩ := h
  obtain ⟨hlt, -⟩ := List.getElem?_eq_some_iff.mp hn
  exact ⟨hc, hu, by simp [hlt], hm⟩

theorem exec_nodeStep (sym : Sym) (elapsed : Nat) (h : s.nodeReady i n) :
    exec (.nodeStep sym elapsed) s =
      .next { s.putNode i (nodeStep s.cfg sym elapsed n s.draws).1 with
        draws := (nodeStep s.cfg sym elapsed n s.draws).2 } :=
  onNode_ready (nodeStep s.cfg sym elapsed) h

theorem exec_nodeReset (h : s.nodeReady i n) :
    exec .nodeReset s = .next (s.putNode i (nodeReset n)) :=
  onNode_ready (fun n draws => (nodeReset n, draws)) h

theorem exec_nodePoll (now : Nat) (h : s.nodeReady i n) :
    exec (.nodePoll now) s =
      .next { s.putNode i (nodePoll s.cfg now n s.draws).1 with
        draws := (nodePoll s.cfg now n s.draws).2 } :=
  onNode_ready (nodePoll s.cfg now) h

end System

/-! ### NODE_STEP before the symbol: HOWL and the timeout (R208, R201) -/

section Step

variable {cfg : Config} {n : NodeRec} {sym : Sym} {b : Bit} {elapsed : Nat}

theorem nodeStep_of_howl (h : n.state = .howl) (draws : Nat) :
    nodeStep cfg sym elapsed n draws = ({ n with sh := n.sh.raise .unreachableState }, draws) :=
  if_pos h

theorem nodeStep_of_timeout (h : n.state ≠ .howl) (he : elapsed > cfg.nodeResetUs) (draws : Nat) :
    nodeStep cfg sym elapsed n draws = nodeStep cfg sym 0 (nodeReset n) draws := by
  simp [nodeStep, h, he]

theorem nodeStep_of_le (he : elapsed ≤ cfg.nodeResetUs) :
    nodeStep cfg sym elapsed = nodeStep cfg sym 0 := by
  funext n draws
  simp only [nodeStep, if_neg (Nat.not_lt.mpr he), if_neg (Nat.not_lt_zero _)]

theorem nodeStep_zero_symOfBit (h : n.state ≠ .howl) (draws : Nat) :
    nodeStep cfg (symOfBit b) 0 n draws = nodeBit cfg b n draws := by
  cases b <;> simp [nodeStep, h, symOfBit]

/-- A bit that comes in time is read in the state the node is in. -/
theorem nodeStep_symOfBit (h : n.state ≠ .howl) (he : elapsed ≤ cfg.nodeResetUs) (draws : Nat) :
    nodeStep cfg (symOfBit b) elapsed n draws = nodeBit cfg b n draws := by
  rw [nodeStep_of_le he, nodeStep_zero_symOfBit h]

theorem exec_nodeStep_symOfBit {s : State} {i : Nat} (h : s.nodeReady i n) (hs : n.state ≠ .howl)
    (he : elapsed ≤ s.cfg.nodeResetUs) :
    exec (.nodeStep (symOfBit b) elapsed) s =
      .next { s.putNode i (nodeBit s.cfg b n s.draws).1 with
        draws := (nodeBit s.cfg b n s.draws).2 } := by
  rw [exec_nodeStep _ _ h, nodeStep_symOfBit hs he]

/-! ### RESET and ERROR (R202, R203) -/

/-- The timeout's reset makes no difference to a symbol that ends in REST with count 0. -/
theorem nodeStep_reset (h : n.state ≠ .howl) (draws : Nat) :
    nodeStep cfg .reset elapsed n draws =
      (nodeReset { n with sh := sendReset cfg n.sh }, draws) := by
  obtain he | he := Nat.lt_or_ge cfg.nodeResetUs elapsed
  · simp [nodeStep, h, he, nodeReset]
  · simp [nodeStep, h, Nat.not_lt.mpr he]

theorem nodeStep_error (h : n.state ≠ .howl) (draws : Nat) :
    nodeStep cfg .error elapsed n draws = (nodeReset n, draws) := by
  obtain he | he := Nat.lt_or_ge cfg.nodeResetUs elapsed
  · simp [nodeStep, h, he, nodeReset]
  · simp [nodeStep, h, Nat.not_lt.mpr he]

/-! ### A bit in each state (R204 to R207) -/

/-- A node whose automaton stands in a state with a count forwards the bit `b`, and then stands in
the other state with the other count: G in REST (R204), B in ALERT (R206), every bit in BARK
(R207). -/
inductive Forwards (cfg : Config) : Bit → NodeState → Nat → NodeState → Nat → Prop
  | growl (c : Nat) : Forwards cfg (growl cfg) .rest c .alert c
  | header (c : Nat) : Forwards cfg (bark cfg) .alert c .bark (cfg.k + 1)
  | copy {c : Nat} (b : Bit) (hc : 1 ≤ c) :
      Forwards cfg b .bark c (if c = 1 then .alert else .bark) (c - 1)

theorem Forwards.ne_howl {st st' : NodeState} {c c' : Nat} (h : Forwards cfg b st c st' c') :
    st ≠ .howl := by
  cases h <;> exact NodeState.noConfusion

theorem nodeBit_of_forwards {st : NodeState} {c : Nat}
    (h : Forwards cfg b n.state n.count st c) (draws : Nat) :
    nodeBit cfg b n draws =
      ({ n with sh := sendBits cfg [b] n.sh, state := st, count := c }, draws) := by
  obtain ⟨sh, state, count, lastUs⟩ := n
  cases h with
  | growl => simp [nodeBit]
  | header => simp [nodeBit, bark, howl]
  | copy b hc =>
    have hlast : count - 1 = 0 ↔ count = 1 := by
      dsimp only at hc
      omega
    simp [nodeBit, hlast]

/-- The other bit is absorbed in REST (R204). -/
theorem nodeBit_of_absorbed (hs : n.state = .rest) (hb : b ≠ growl cfg) (draws : Nat) :
    nodeBit cfg b n draws = (n, draws) := by
  simp [nodeBit, hs, hb]

/-- H in ALERT is the terminal sequence (R205). -/
theorem nodeBit_of_terminal (hs : n.state = .alert) (draws : Nat) :
    nodeBit cfg (howl cfg) n draws = (nodeTerminal cfg (Config.draw draws) n, draws + 1) := by
  simp [nodeBit, hs]

/-- The payload sample has K bits (R205). -/
theorem payloadSample_lt (cfg : Config) (x : Nat) : payloadSample cfg x < 2 ^ cfg.k := by
  have hpos : 0 < 2 ^ cfg.k := Nat.two_pow_pos _
  have hmod : x % (2 ^ cfg.k - 1 - 0 + 1) < 2 ^ cfg.k - 1 - 0 + 1 := Nat.mod_lt _ (Nat.succ_pos _)
  rw [payloadSample, drawIn]
  omega

theorem terminalBits_eq (cfg : Config) (p : Nat) :
    terminalBits cfg p = [cfg.growlBit] ++
      (List.range cfg.k).map (fun j => p.testBit (cfg.k - 1 - j)) ++
      [cfg.growlBit, !cfg.growlBit] := by
  have hrev : (List.range cfg.k).reverse = (List.range cfg.k).map (cfg.k - 1 - ·) := by
    simpa [← List.range_eq_range'] using List.reverse_range' (s := 0) (n := cfg.k)
  rw [terminalBits, payloadBits, hrev, List.map_map]
  rfl

/-! ### What NODE_STEP leaves alone, and that it leaves HOWL (R24, R208) -/

/-- NODE_STEP keeps the clock of the last poll and the RX codec (R201). -/
theorem nodeBit_frame (cfg : Config) (b : Bit) (n : NodeRec) (draws : Nat) :
    (nodeBit cfg b n draws).1.lastUs = n.lastUs ∧ (nodeBit cfg b n draws).1.sh.rx = n.sh.rx := by
  unfold nodeBit
  split
  case h_1 => split <;> simp
  case h_2 => split <;> simp [nodeTerminal]
  case h_3 => simp
  case h_4 => simp

theorem nodeStep_frame (cfg : Config) (sym : Sym) (elapsed : Nat) (n : NodeRec) (draws : Nat) :
    (nodeStep cfg sym elapsed n draws).1.lastUs = n.lastUs ∧
      (nodeStep cfg sym elapsed n draws).1.sh.rx = n.sh.rx := by
  by_cases h : n.state = .howl
  · simp [nodeStep_of_howl h]
  · have hm : (if elapsed > cfg.nodeResetUs then nodeReset n else n).lastUs = n.lastUs ∧
        (if elapsed > cfg.nodeResetUs then nodeReset n else n).sh = n.sh := by split <;> simp
    obtain ⟨hlast, hsh⟩ := hm
    rw [← hlast, ← hsh, nodeStep, if_neg h]
    cases sym with
    | reset => simp
    | error => simp
    | zero => exact nodeBit_frame ..
    | one => exact nodeBit_frame ..

theorem nodeBit_ne_howl (b : Bit) (draws : Nat) (h : n.state ≠ .howl) :
    (nodeBit cfg b n draws).1.state ≠ .howl := by
  cases hs : n.state with
  | rest =>
    simp only [nodeBit, hs]
    split
    · exact NodeState.noConfusion
    · exact h
  | alert =>
    simp only [nodeBit, hs]
    split <;> exact NodeState.noConfusion
  | howl => exact absurd hs h
  | bark =>
    simp only [nodeBit, hs]
    split <;> exact NodeState.noConfusion

theorem nodeStep_ne_howl (sym : Sym) (elapsed draws : Nat) (h : n.state ≠ .howl) :
    (nodeStep cfg sym elapsed n draws).1.state ≠ .howl := by
  have hm : (if elapsed > cfg.nodeResetUs then nodeReset n else n).state ≠ .howl := by
    split
    · exact NodeState.noConfusion
    · exact h
  rw [nodeStep, if_neg h]
  cases sym with
  | reset => exact NodeState.noConfusion
  | error => exact NodeState.noConfusion
  | zero => exact nodeBit_ne_howl _ _ hm
  | one => exact nodeBit_ne_howl _ _ hm

/-! ### NODE_POLL (R209) -/

theorem nodePoll_of_backward {now : Nat} (h : now < n.lastUs) (draws : Nat) :
    nodePoll cfg now n draws = ({ n with sh := n.sh.raise .nonmonotonicClock }, draws) := if_pos h

theorem nodePoll_of_empty {now : Nat} (h : n.lastUs ≤ now) (hs : n.sh.rx.rb.size = 0)
    (draws : Nat) : nodePoll cfg now n draws = (n, draws) := by
  simp [nodePoll, Nat.not_lt.mpr h, Ring.avail, hs]

theorem nodePoll_of_pos {now : Nat} (h : n.lastUs ≤ now) (hs : 0 < n.sh.rx.rb.size) (draws : Nat) :
    nodePoll cfg now n draws =
      nodeStep cfg (classify cfg (rxFront n.sh.rx.rb)) (now - n.lastUs)
        { n with sh := (rxTake cfg n.sh).2, lastUs := now } draws := by
  simp [nodePoll, Nat.not_lt.mpr h, Ring.avail, hs, rxTake]

theorem nodePoll_ne_howl (now draws : Nat) (h : n.state ≠ .howl) :
    (nodePoll cfg now n draws).1.state ≠ .howl := by
  obtain hnow | hnow := Nat.lt_or_ge now n.lastUs
  · rw [nodePoll_of_backward hnow]
    exact h
  · obtain hs | hs := Nat.eq_zero_or_pos n.sh.rx.rb.size
    · rw [nodePoll_of_empty hnow hs]
      exact h
    · rw [nodePoll_of_pos hnow hs]
      exact nodeStep_ne_howl _ _ _ h

end Step

/-! ### No operation leaves a node in HOWL (R24, R208) -/

/-- No node of the ring is in HOWL. -/
def State.NoHowl (s : State) : Prop := ∀ n ∈ s.nodes, n.state ≠ .howl

section NoHowl

variable {s t : State}

theorem onShared_codecsOnly {f : Shared → Shared} (h : onShared s f = .next t) :
    CodecsOnly s t := by
  obtain ⟨sh, -, rfl⟩ := onShared_next h
  exact putShared_codecsOnly ..

theorem execTxExpiry_codecsOnly (h : execTxExpiry s = .next t) : CodecsOnly s t := by
  obtain ⟨sh, -, -, ⟨-, rfl⟩ | ⟨-, d, -, rfl⟩⟩ := execTxExpiry_next h
  · exact putShared_codecsOnly ..
  · exact (putShared_codecsOnly ..).trans (putShared_codecsOnly ..)

theorem execRxCapture_codecsOnly {v : Nat} (h : execRxCapture v s = .next t) :
    CodecsOnly s t := by
  obtain ⟨-, up, w, rest, sh, -, -, -, -, -, -, rfl⟩ := execRxCapture_next h
  exact (putShared_codecsOnly ..).trans (putShared_codecsOnly ..)

/-- A change of codec parts alone brings no node into HOWL. -/
theorem CodecsOnly.noHowl (h : CodecsOnly s t) (hlen : t.nodes.length = s.nodes.length)
    (hs : s.NoHowl) : t.NoHowl := by
  obtain ⟨-, hnodes⟩ := h
  intro m hm
  obtain ⟨j, hj⟩ := List.mem_iff_getElem?.mp hm
  obtain ⟨hlt, -⟩ := List.getElem?_eq_some_iff.mp hj
  obtain ⟨sh, hsh⟩ := hnodes j _ (List.getElem?_eq_getElem (hlen ▸ hlt))
  rw [hsh] at hj
  cases hj
  exact hs s.nodes[j] (List.getElem_mem _)

theorem onNode_noHowl {f : NodeRec → Nat → NodeRec × Nat} (h : onNode s f = .next t)
    (hf : ∀ n draws, n.state ≠ .howl → (f n draws).1.state ≠ .howl) (hs : s.NoHowl) :
    t.NoHowl := by
  obtain ⟨i, n, ⟨-, -, hn, -⟩, rfl⟩ := onNode_next h
  intro m hm
  obtain hm | rfl := List.mem_or_eq_of_mem_set hm
  · exact hs m hm
  · exact hf n s.draws (hs n (List.mem_of_getElem? hn))

theorem onCoord_noHowl {f : CoordRec → CoordRec} (h : onCoord s f = .next t) (hs : s.NoHowl) :
    t.NoHowl := by
  obtain ⟨-, rfl⟩ := onCoord_next h
  exact hs

theorem execDbPublish_noHowl {k : Nat} (h : execDbPublish k s = .next t) (hs : s.NoHowl) :
    t.NoHowl := by
  obtain ⟨-, hk⟩ := withCoord_next h
  split at hk
  case isTrue => cases hk
  case isFalse =>
    cases hk
    exact hs

theorem exec_noHowl {i : Instr} (h : exec i s = .next t) (hs : s.NoHowl) : t.NoHowl := by
  have hlen := (exec_recordChange h).nodes_length_eq
  cases i with
  | txExpiry => exact (execTxExpiry_codecsOnly h).noHowl hlen hs
  | rxCapture v => exact (execRxCapture_codecsOnly h).noHowl hlen hs
  | nodeStep sym elapsed =>
    exact onNode_noHowl h (fun _ draws => nodeStep_ne_howl sym elapsed draws) hs
  | nodeReset => exact onNode_noHowl h (fun _ _ _ => NodeState.noConfusion) hs
  | nodePoll now => exact onNode_noHowl h (fun _ draws => nodePoll_ne_howl now draws) hs
  | dbPublish k => exact execDbPublish_noHowl h hs
  | txSchedule | txBulkBegin | txBulkSchedule | txBulkEnd | rxBitsAvailable | rxReceiveBit =>
    exact (onShared_codecsOnly h).noHowl hlen hs
  | coordReset | coordReseed | wdInit | wdPoll => exact onCoord_noHowl h hs
  | coordFeed bit =>
    have hx : execCoordFeed bit s = .next t := h
    exact onCoord_noHowl hx hs
  | dbLatestSnapshot =>
    have hx : execDbLatestSnapshot s = .next t := h
    exact onCoord_noHowl hx hs
  | dbEdgeEvents =>
    have hx : execDbEdgeEvents s = .next t := h
    exact onCoord_noHowl hx hs

end NoHowl

end Sys2Proof.Machine

open Sys2Proof Sys2Proof.Machine

/-- Settles O29: the effect is `nodeReset`, which is idempotent, and leaves the node running. -/
theorem nodeResetResult : Obligations.NodeResetResult := by
  refine ⟨rfl, fun s i n => exec_nodeReset, fun s t h => ?_⟩
  obtain ⟨i, n, hr, rfl⟩ := onNode_next (h : onNode s _ = .next t)
  have ⟨_, _, _, hrunning⟩ := hr
  have hx := exec_nodeReset (hr.putNode (m := nodeReset n) hrunning)
  rwa [State.putNode_putNode] at hx

/-- Settles O30: the check of HOWL comes first in NODE_STEP, every case of it ends in another state,
and no other operation changes a node's automaton. -/
theorem nodeStepInHowlFaults : Obligations.NodeStepInHowlFaults := by
  refine ⟨fun s i n sym elapsed hr hs => ?_, fun i s t h hs => exec_noHowl h hs⟩
  rw [exec_nodeStep sym elapsed hr, nodeStep_of_howl hs]
  rfl

/-- Settles O31: NODE_STEP after a timeout is NODE_STEP of the reset node, and the elapsed time
enters in no other way. -/
theorem nodeStepTimeoutComesFirst : Obligations.NodeStepTimeoutComesFirst := by
  refine ⟨fun s i n sym elapsed hr hs he => ?_, fun s sym elapsed he => ?_⟩
  · have ⟨_, _, _, hrunning⟩ := hr
    have hreset := exec_nodeStep sym 0 (hr.putNode (m := nodeReset n) hrunning)
    rw [State.putNode_putNode] at hreset
    rw [exec_nodeStep sym elapsed hr, nodeStep_of_timeout hs he]
    exact hreset.symm
  · change onNode s _ = onNode s _
    rw [nodeStep_of_le he]

/-- Settles O32: both symbols end in `nodeReset`, so that the timeout before them does not show. -/
theorem nodeStepOnResetOrError : Obligations.NodeStepOnResetOrError := by
  intro s i n elapsed hr hs
  rw [exec_nodeStep .reset elapsed hr, nodeStep_reset hs, exec_nodeStep .error elapsed hr,
    nodeStep_error hs]
  exact ⟨rfl, rfl⟩

/-- Settles O33: after a timeout a node in REST with count 0 is reset to what it was, and each bit is
forwarded or absorbed. -/
theorem nodeStepInRest : Obligations.NodeStepInRest := by
  intro s i n b elapsed hr hs he
  have ⟨_, _, hn, _⟩ := hr
  have hhowl : n.state ≠ .howl := by simp [hs]
  have hbit : nodeStep s.cfg (symOfBit b) elapsed n s.draws = nodeBit s.cfg b n s.draws := by
    obtain hgt | hle := Nat.lt_or_ge s.cfg.nodeResetUs elapsed
    · have hsame : nodeReset n = n := by
        rw [nodeReset, ← hs, ← he.resolve_left (Nat.not_le.mpr hgt)]
      rw [nodeStep_of_timeout hhowl hgt, hsame, nodeStep_zero_symOfBit hhowl]
    · exact nodeStep_symOfBit hhowl hle _
  rw [exec_nodeStep _ _ hr, hbit]
  split
  case isTrue hb =>
    subst hb
    have hf : Forwards s.cfg s.cfg.growlBit n.state n.count .alert n.count := hs ▸ .growl n.count
    rw [nodeBit_of_forwards hf]
    rfl
  case isFalse hb =>
    rw [nodeBit_of_absorbed hs hb, State.putNode_self hn]

/-- Settles O34, with the model's sample for the payload. -/
theorem nodeStepTerminalSequence : Obligations.NodeStepTerminalSequence := by
  intro s i n elapsed hr hs he
  refine ⟨_, payloadSample_lt s.cfg (Config.draw s.draws), ?_⟩
  have hbit := nodeBit_of_terminal (cfg := s.cfg) hs s.draws
  rw [exec_nodeStep_symOfBit hr (by simp [hs]) he, ← terminalBits_eq]
  rw [howl] at hbit
  rw [hbit]
  rfl

/-- Settles O35: B is forwarded in ALERT. -/
theorem nodeStepHeader : Obligations.NodeStepHeader := by
  intro s i n elapsed hr hs he
  have hf : Forwards s.cfg s.cfg.growlBit n.state n.count .bark (s.cfg.k + 1) :=
    hs ▸ .header n.count
  rw [exec_nodeStep_symOfBit hr hf.ne_howl he, nodeBit_of_forwards hf]
  rfl

/-- Settles O36: every bit is forwarded in BARK, and the count goes down by one. -/
theorem nodeStepInBark : Obligations.NodeStepInBark := by
  intro s i n b elapsed hr hs hc he
  have hf : Forwards s.cfg b n.state n.count (if n.count = 1 then .alert else .bark)
      (n.count - 1) := by
    rw [hs]
    exact .copy b hc
  rw [exec_nodeStep_symOfBit hr hf.ne_howl he, nodeBit_of_forwards hf]
  rfl

/-- Settles O37: the three ways in which a poll ends; the last is the NODE_STEP of the popped symbol,
which keeps the poll's clock and the popped ring. -/
theorem nodePollResult : Obligations.NodePollResult := by
  refine ⟨fun _ => rfl, fun s i n now hr hnow => ?_, fun s i n now hr hnow hs => ?_,
    fun s i n now c hr hnow hs hc => ?_⟩
  · rw [exec_nodePoll now hr, nodePoll_of_backward hnow]
    rfl
  · have ⟨_, _, hn, _⟩ := hr
    rw [exec_nodePoll now hr, nodePoll_of_empty hnow hs, State.putNode_self hn]
  · have ⟨_, _, hn, hrunning⟩ := hr
    have hpoll := nodePoll_of_pos (cfg := s.cfg) hnow hs s.draws
    rw [rxFront_eq hc] at hpoll
    have hexec := exec_nodePoll now hr
    rw [hpoll] at hexec
    obtain ⟨hlt, -⟩ := List.getElem?_eq_some_iff.mp hn
    obtain ⟨hlast, hrx⟩ := nodeStep_frame s.cfg (classify s.cfg c) (now - n.lastUs)
      { n with sh := (rxTake s.cfg n.sh).2, lastUs := now } s.draws
    have hstep := exec_nodeStep (classify s.cfg c) (now - n.lastUs) (hr.putNode
      (m := { n with sh := (rxTake s.cfg n.sh).2, lastUs := now }) hrunning)
    rw [State.putNode_putNode] at hstep
    exact ⟨hexec.trans hstep.symm, _, _, hexec, List.getElem?_set_self hlt, hlast,
      congrArg (fun rx : Rx => rx.rb.size) hrx⟩

end

section
/-! PROOFS. An output line that drains while bits are queued (R145, R147): what a bulk and an expiry
leave of the pairs, the pulses and the end of the line. -/

namespace Sys2Proof.Machine

/-! ### The level in which a line ends -/

/-- The level of the line once the pairs `q` have been popped. -/
def lineEnd (pin : Level) (q : List TxPair) : Level := ((q.getLast?).map TxPair.level).getD pin

@[simp] theorem lineEnd_nil (pin : Level) : lineEnd pin [] = pin := rfl

@[simp] theorem lineEnd_cons (pin : Level) (p : TxPair) (q : List TxPair) :
    lineEnd pin (p :: q) = lineEnd p.level q := by
  cases h : q.getLast? <;> simp [lineEnd, List.getLast?_cons, h]

theorem lineEnd_append (pin : Level) (q r : List TxPair) :
    lineEnd pin (q ++ r) = lineEnd (lineEnd pin q) r := by
  induction q generalizing pin with
  | nil => rfl
  | cons p q ih => rw [List.cons_append, lineEnd_cons, lineEnd_cons, ih]

/-- Every bit ends with its low period (R104). -/
theorem lineEnd_bitsPairs (cfg : Config) (bits : List Bit) :
    lineEnd false (bitsPairs cfg bits) = false := by
  induction bits with
  | nil => rfl
  | cons b bits ih => rw [bitsPairs_cons, lineEnd_cons, lineEnd_cons, ih]

/-- The line of an agent ends low when the last pair to be sent is low, or else the line is. -/
theorem Shared.endsLow_iff {cfg : Config} {sh : Shared} :
    sh.endsLow cfg ↔ lineEnd sh.tx.pin (sh.txQueue cfg) = false := Iff.rfl

/-! ### The pulses of a line -/

/-- On a low line each bit makes one pulse (R147). -/
theorem linePulses_bitsPairs (cfg : Config) (acc : Nat) (bits : List Bit) :
    linePulses false acc (bitsPairs cfg bits) = bits.map (highTime cfg) := by
  induction bits generalizing acc with
  | nil => rfl
  | cons b bits ih =>
    rw [bitsPairs_cons, List.map_cons, ← ih 0]
    rfl

/-- Bits behind pairs that end low make their pulses behind those of the pairs. -/
theorem linePulses_append_bitsPairs (cfg : Config) (bits : List Bit) {pin : Level} {acc : Nat}
    {q : List TxPair} (h : lineEnd pin q = false) :
    linePulses pin acc (q ++ bitsPairs cfg bits) =
      linePulses pin acc q ++ bits.map (highTime cfg) := by
  induction q generalizing pin acc with
  | nil =>
    rw [lineEnd_nil] at h
    rw [h, List.nil_append, linePulses_bitsPairs]
    rfl
  | cons p q ih =>
    rw [lineEnd_cons] at h
    simp only [List.cons_append, linePulses]
    cases hl : p.level <;> rw [hl] at h
    · cases pin
      · exact ih h
      · exact congrArg (acc :: ·) (ih h)
    · exact ih h

section Expiry

variable {cfg : Config} {sh : Shared}

/-- The expiry of a pair moves the pulse that it ends from the line to the link (R145). -/
theorem txExpiry_pulses_of_pop {p : TxPair} {q : List TxPair} (h : sh.wf cfg)
    (hq : sh.txQueue cfg = p :: q) : (txExpiry cfg sh).pulses cfg = sh.pulses cfg := by
  obtain ⟨hs, hf, hq'⟩ := txExpiry_of_txQueue h hq
  rw [Shared.pulses, Shared.pulses, hq, hq', txExpiry_pop cfg hs, hf]
  cases hp : sh.tx.pin <;> cases hl : p.level <;> simp [linePulses, hl]

/-- The expiry that finds no pair ends a pulse that is on the line (R145). -/
theorem txExpiry_pulses_of_idle (hs : sh.tx.rb.size = 0) :
    (txExpiry cfg sh).pulses cfg = sh.pulses cfg := by
  have hq : sh.txQueue cfg = [] := by rw [Shared.txQueue, hs, Ring.entries_zero]
  have hq' : (txExpiry cfg sh).txQueue cfg = [] := by
    rw [txExpiry_idle cfg hs]
    exact hq
  rw [Shared.pulses, Shared.pulses, hq, hq', txExpiry_idle cfg hs]
  cases hp : sh.tx.pin <;> simp [linePulses]

end Expiry

/-! ### Bits queued while the line drains -/

/-- The TX of an agent that has not halted, with no bulk open: it can take a bulk. -/
structure ReadyTx (cfg : Config) (sh : Shared) : Prop where
  wf : sh.wf cfg
  running : sh.faults.halted = false
  closed : sh.tx.bulkOpen = false

/-- From `a` to `b` the pairs of `bits` have been queued and at most `e` pairs have been popped; no
fault is recorded, and on a line that ends low each bit makes one pulse. -/
structure BitsQueued (cfg : Config) (bits : List Bit) (e : Nat) (a b : Shared) : Prop where
  ready : ReadyTx cfg b
  faults_eq : b.faults = a.faults
  queue : ∃ sent, a.txQueue cfg ++ bitsPairs cfg bits = sent ++ b.txQueue cfg ∧ sent.length ≤ e
  pulses : a.endsLow cfg →
    b.endsLow cfg ∧ b.pulses cfg = a.pulses cfg ++ bits.map (highTime cfg)

section Queued

variable {cfg : Config} {a b c sh : Shared} {bits more : List Bit} {e f : Nat}

theorem BitsQueued.refl (h : ReadyTx cfg sh) : BitsQueued cfg [] 0 sh sh :=
  ⟨h, rfl, ⟨[], by simp [bitsPairs], le_rfl⟩, fun hlow => ⟨hlow, by simp⟩⟩

theorem BitsQueued.trans (h : BitsQueued cfg bits e a b) (k : BitsQueued cfg more f b c) :
    BitsQueued cfg (bits ++ more) (e + f) a c where
  ready := k.ready
  faults_eq := k.faults_eq.trans h.faults_eq
  queue := by
    obtain ⟨sent, hq, hlen⟩ := h.queue
    obtain ⟨sent', hq', hlen'⟩ := k.queue
    refine ⟨sent ++ sent', ?_, by rw [List.length_append]; omega⟩
    rw [bitsPairs_append, ← List.append_assoc, hq, List.append_assoc, hq', List.append_assoc]
  pulses hlow := by
    obtain ⟨hlow', hp⟩ := h.pulses hlow
    obtain ⟨hlow'', hp'⟩ := k.pulses hlow'
    exact ⟨hlow'', by rw [hp', hp, List.map_append, List.append_assoc]⟩

/-- A bulk of bits that finds room (R125). -/
theorem ReadyTx.sendBits (h : ReadyTx cfg sh) (hok : configOk cfg = true) (hlow : lowsFit cfg)
    (hroom : sh.tx.rb.size + 2 * bits.length ≤ cfg.txCap) :
    BitsQueued cfg bits 0 sh (Machine.sendBits cfg bits sh) ∧
      (Machine.sendBits cfg bits sh).tx.rb.size = sh.tx.rb.size + 2 * bits.length ∧
      (bits ≠ [] → (Machine.sendBits cfg bits sh).tx.armed = true) := by
  have hw := sendBits_wf bits h.wf
  have hlen := bitsPairs_length cfg bits
  obtain ⟨rb, hsend, hsize, hq⟩ := sendPairs_of_room h.wf h.closed
    (fun p hp => durationOk_of_mem_bitsPairs hok hlow hp) (hlen ▸ hroom)
  rw [hlen] at hsize
  rw [Machine.sendBits] at hw ⊢
  rw [hsend] at hw ⊢
  refine ⟨⟨⟨hw, h.running, h.closed⟩, rfl, ⟨[], hq.symm, le_rfl⟩, fun hend => ⟨?_, ?_⟩⟩, hsize,
    fun hne => ?_⟩
  · change lineEnd sh.tx.pin (rb.entries cfg.txCap rb.size ⟨false, 0⟩) = false
    rw [hq, lineEnd_append, Shared.endsLow_iff.mp hend, lineEnd_bitsPairs]
  · change sh.link ++ linePulses sh.tx.pin sh.tx.highAcc
      (rb.entries cfg.txCap rb.size ⟨false, 0⟩) = _
    rw [hq, linePulses_append_bitsPairs cfg bits hend, ← List.append_assoc]
    rfl
  · have hpos := List.length_pos_iff.mpr hne
    simp only [Bool.or_eq_true, decide_eq_true_eq]
    omega

/-- One expiry pops at most one pair (R145). -/
theorem ReadyTx.txExpiry (h : ReadyTx cfg sh) :
    BitsQueued cfg [] 1 sh (Machine.txExpiry cfg sh) ∧
      (Machine.txExpiry cfg sh).tx.rb.size = sh.tx.rb.size - 1 := by
  have hw := txExpiry_wf h.wf
  have hrunning : (Machine.txExpiry cfg sh).faults.halted = false := by
    rw [txExpiry_faults, h.running]
  cases hq : sh.txQueue cfg with
  | nil =>
    have hs : sh.tx.rb.size = 0 := by simpa using congrArg List.length hq
    have hp := txExpiry_pulses_of_idle (cfg := cfg) hs
    rw [txExpiry_idle cfg hs] at hw hrunning hp ⊢
    exact ⟨⟨⟨hw, hrunning, h.closed⟩, rfl, ⟨[], by simp [bitsPairs], Nat.zero_le 1⟩,
      fun _ => ⟨congrArg (lineEnd false) hq, by simpa using hp⟩⟩, by simp [hs]⟩
  | cons p q =>
    obtain ⟨hs, hf, hq'⟩ := txExpiry_of_txQueue h.wf hq
    have hp := txExpiry_pulses_of_pop h.wf hq
    rw [txExpiry_pop cfg hs] at hw hrunning hp hq' ⊢
    refine ⟨⟨⟨hw, hrunning, h.closed⟩, rfl, ⟨[p], ?_, le_rfl⟩, fun hend => ⟨?_, by simpa using hp⟩⟩,
      rfl⟩
    · rw [hq, hq', bitsPairs, List.flatMap_nil, List.append_nil, List.singleton_append]
    · rw [Shared.endsLow_iff, hq, lineEnd_cons, ← hf] at hend
      rwa [Shared.endsLow_iff, hq']

/-- Expiries of an armed timer, at most one for each pair in the ring and the one that finds the ring
empty. -/
theorem ReadyTx.expiries {i : AgentId} (h : ReadyTx cfg sh) (hok : configOk cfg = true)
    (harmed : sh.tx.armed = true) (he : e ≤ sh.tx.rb.size + 1) :
    ∃ sh', RunsTo cfg i (expiries i e) sh sh' ∧ BitsQueued cfg [] e sh sh' ∧
      sh'.tx.rb.size = sh.tx.rb.size - e := by
  induction e generalizing sh with
  | zero => exact ⟨sh, .nil, .refl h, rfl⟩
  | succ e ih =>
    have hrun := runsTo_expiry (a := i) hok h.running harmed
    obtain ⟨hq, hsize⟩ := h.txExpiry
    obtain hs | hs := Nat.eq_zero_or_pos sh.tx.rb.size
    · obtain rfl : e = 0 := by omega
      exact ⟨_, hrun, hq, hsize⟩
    · have harmed' : (Machine.txExpiry cfg sh).tx.armed = true := by
        rw [txExpiry_pop cfg hs]
        exact harmed
      obtain ⟨sh', hrun', hq', hsize'⟩ := ih hq.ready harmed' (by omega)
      refine ⟨sh', ?_, ?_, by omega⟩
      · rw [Nat.add_comm, expiries_add]
        exact hrun.append hrun'
      · rw [Nat.add_comm]
        exact hq.trans hq'

end Queued

end Sys2Proof.Machine

end

section
/-! PROOFS. The frame law (R210): a node that reads the symbols of a frame forwards each bit up to
the last H, and sends its own group and an H for that one. -/

namespace Sys2Proof.Machine

/-! ### Expiries leave the automata alone -/

section Automaton

variable {s t : State} {a : AgentId}

theorem CodecsOnly.refl (s : State) : CodecsOnly s s := ⟨rfl, fun _ n hj => ⟨n.sh, hj⟩⟩

theorem runCounters_codecsOnly (s : State) : CodecsOnly s (runCounters s) := by
  obtain ⟨-, -, -, hnodes⟩ := runCounters_ranTo s
  refine ⟨rfl, fun j n hj => ?_⟩
  obtain ⟨x, -, hx⟩ := hnodes j n hj
  exact ⟨_, hx⟩

theorem runScript_expiries_codecsOnly {e : Nat} (h : runScript (expiries a e) s = .next t) :
    CodecsOnly s t := by
  induction e generalizing s with
  | zero => cases h; exact .refl s
  | succ e ih =>
    obtain ⟨r, hr, hrest⟩ := runScript_cons_next h
    rw [step_placed_op (configOk_of_step hr)] at hr
    exact (runCounters_codecsOnly s).trans ((execTxExpiry_codecsOnly hr).trans (ih hrest))

end Automaton

/-! ### A node's record but for the capture counter -/

/-- The capture counter of a node set to `x`. -/
def NodeRec.setCounter (n : NodeRec) (x : Nat) : NodeRec := { n with sh := n.sh.setCounter x }

/-- The record of node `i` is `n`, but for the capture counter, which runs on (R170). -/
def State.NodeIs (s : State) (i : Nat) (n : NodeRec) : Prop :=
  ∃ x, s.nodes[i]? = some (n.setCounter x)

theorem sendBits_setCounter (cfg : Config) (bits : List Bit) (sh : Shared) (x : Nat) :
    sendBits cfg bits (sh.setCounter x) = (sendBits cfg bits sh).setCounter x :=
  (codecProgram_bulkProgram cfg (bitsPairs cfg bits)).setCounter_comm sh x

/-- The automaton does not look at the capture counter. -/
theorem nodeBit_setCounter (cfg : Config) (b : Bit) (n : NodeRec) (x draws : Nat) :
    (nodeBit cfg b (n.setCounter x) draws).1 = (nodeBit cfg b n draws).1.setCounter x := by
  obtain ⟨sh, state, count, lastUs⟩ := n
  cases state with
  | rest =>
    simp only [nodeBit, NodeRec.setCounter, sendBits_setCounter]
    split <;> rfl
  | alert =>
    simp only [nodeBit, nodeTerminal, NodeRec.setCounter, sendBits_setCounter]
    split <;> rfl
  | howl => rfl
  | bark =>
    exact congrArg (NodeRec.mk · (if count - 1 = 0 then .alert else .bark) (count - 1) lastUs)
      (sendBits_setCounter cfg [b] sh x)

section Reads

variable {cfg : Config} {s : State} {i : Nat} {n : NodeRec} {b : Bit} {gap e : Nat}

/-- A bit that comes in time, read by NODE_STEP, with some free value for a payload sample. -/
theorem runScript_nodeStep (hc : s.cfg = cfg) (hok : configOk cfg = true) (hn : s.NodeIs i n)
    (hrunning : n.sh.faults.halted = false) (hs : n.state ≠ .howl)
    (hgap : gap ≤ cfg.nodeResetUs) :
    ∃ draws t, runScript [.op (.node i) .main (encode (.nodeStep (symOfBit b) gap))] s = .next t ∧
      t.cfg = cfg ∧ t.NodeIs i (nodeBit cfg b n draws).1 := by
  subst hc
  obtain ⟨x, hx⟩ := hn
  obtain ⟨-, -, -, hnodes⟩ := runCounters_ranTo s
  obtain ⟨y, -, hy⟩ := hnodes i _ hx
  obtain ⟨hlt, -⟩ := List.getElem?_eq_some_iff.mp hy
  have hready : ({ runCounters s with cur := .node i, ctx := .main, script := [] } :
      State).nodeReady i (n.setCounter y) := ⟨rfl, rfl, hy, hrunning⟩
  have hstep := (step_placed_op hok (.node i) .main (.nodeStep (symOfBit b) gap) []).trans
    (exec_nodeStep_symOfBit hready hs hgap)
  have hset := nodeBit_setCounter s.cfg b n y (runCounters s).draws
  exact ⟨_, _, (runScript_cons hstep rfl).trans (runScript_nil rfl), rfl, y,
    (List.getElem?_set_self hlt).trans (congrArg some hset)⟩

/-- Expiries of the node's timer change its codec part alone. -/
theorem runScript_expiries {sh : Shared} (hc : s.cfg = cfg) (hn : s.NodeIs i n)
    (hrun : RunsTo cfg (.node i) (expiries (.node i) e) n.sh sh) :
    ∃ t, runScript (expiries (.node i) e) s = .next t ∧ t.cfg = cfg ∧
      t.NodeIs i { n with sh := sh } := by
  obtain ⟨x, hx⟩ := hn
  have ha : s.shared? (.node i) = some (n.sh.setCounter x) := by
    rw [State.shared?_node, hx]
    rfl
  obtain ⟨t, y, ht, hcfg, hty⟩ := hrun s x [] hc ha
  rw [List.append_nil] at ht
  have hend : runScript (expiries (.node i) e) s = .next { t with script := [] } := ht
  obtain ⟨-, hnodes⟩ := runScript_expiries_codecsOnly hend
  obtain ⟨sh', hsh'⟩ := hnodes i _ hx
  have hti : t.nodes[i]? = some { n with sh := sh' } := hsh'
  rw [State.shared?_node, hti] at hty
  cases hty
  exact ⟨_, hend, hcfg, y, hsh'⟩

/-- One read of a frame: the bit makes the node queue the bits `send draws`, and the expiries that
follow drain the line. -/
theorem runScript_read {send : Nat → List Bit} {len c : Nat} {st : NodeState}
    (hcfg : s.cfg = cfg) (hok : configOk cfg = true) (hlow : lowsFit cfg) (hn : s.NodeIs i n)
    (hready : ReadyTx cfg n.sh) (hs : n.state ≠ .howl) (hgap : gap ≤ cfg.nodeResetUs)
    (hsend : ∀ draws, (nodeBit cfg b n draws).1 =
      { n with sh := sendBits cfg (send draws) n.sh, state := st, count := c })
    (hlen : ∀ draws, (send draws).length = len) (hpos : 0 < len)
    (hroom : n.sh.tx.rb.size + 2 * len ≤ cfg.txCap) (he : e ≤ n.sh.tx.rb.size + 2 * len + 1) :
    ∃ draws t sh, runScript
        (.op (.node i) .main (encode (.nodeStep (symOfBit b) gap)) :: expiries (.node i) e) s =
          .next t ∧
      t.cfg = cfg ∧ t.NodeIs i { n with sh := sh, state := st, count := c } ∧
      BitsQueued cfg (send draws) e n.sh sh ∧
      sh.tx.rb.size = n.sh.tx.rb.size + 2 * len - e := by
  obtain ⟨draws, r, hr, hrcfg, hri⟩ :=
    runScript_nodeStep (b := b) hcfg hok hn hready.running hs hgap
  rw [hsend] at hri
  have hl := hlen draws
  obtain ⟨hqueued, hsize, harmed⟩ := hready.sendBits (bits := send draws) hok hlow (hl ▸ hroom)
  rw [hl] at hsize
  obtain ⟨sh, hrun, hdrained, hsize'⟩ := hqueued.ready.expiries (i := .node i) hok
    (harmed (List.ne_nil_of_length_pos (hl ▸ hpos))) (hsize ▸ he)
  obtain ⟨t, ht, htcfg, hti⟩ := runScript_expiries hrcfg hri hrun
  refine ⟨draws, t, sh, ?_, htcfg, hti, ?_, by rw [hsize', hsize]⟩
  · exact (runScript_append hr (expiries (.node i) e)).trans ht
  · have hall := hqueued.trans hdrained
    rwa [List.append_nil, Nat.zero_add] at hall

end Reads

/-! ### The bits of a frame, one by one (R103, R204 to R207) -/

/-- A node whose automaton stands in a state with a count forwards each of the bits, and then stands
in ALERT. -/
inductive ForwardsToAlert (cfg : Config) : NodeState → Nat → List Bit → Prop
  | nil (c : Nat) : ForwardsToAlert cfg .alert c []
  | cons {b : Bit} {bits : List Bit} {st st' : NodeState} {c c' : Nat}
      (h : Forwards cfg b st c st' c') (hrest : ForwardsToAlert cfg st' c' bits) :
      ForwardsToAlert cfg st c (b :: bits)

section Frame

variable {cfg : Config}

/-- In BARK as many bits are forwarded as the count says, whatever they are (R207). -/
theorem forwardsToAlert_bark {bits rest : List Bit} (hne : bits ≠ [])
    (hrest : ForwardsToAlert cfg .alert 0 rest) :
    ForwardsToAlert cfg .bark bits.length (bits ++ rest) := by
  induction bits with
  | nil => exact absurd rfl hne
  | cons b bits ih =>
    cases bits with
    | nil => exact .cons (.copy b le_rfl) hrest
    | cons b' bits =>
      refine .cons (.copy b (Nat.succ_pos _)) ?_
      rw [if_neg (by simp)]
      exact ih (List.cons_ne_nil _ _)

/-- In ALERT the groups of a frame are forwarded (R206, R207). -/
theorem forwardsToAlert_groups (ps : List Nat) (c : Nat) :
    ForwardsToAlert cfg .alert c (ps.flatMap (groupBits cfg)) := by
  induction ps generalizing c with
  | nil => exact .nil c
  | cons p ps ih =>
    have hcopy := forwardsToAlert_bark (bits := payloadBits cfg.k p ++ [growl cfg]) (by simp) (ih 0)
    rw [show (payloadBits cfg.k p ++ [growl cfg]).length = cfg.k + 1 by simp [payloadBits]] at hcopy
    exact .cons (.header c) hcopy

/-- In REST a frame is forwarded up to its last H (R204). -/
theorem forwardsToAlert_frame (ps : List Nat) (c : Nat) :
    ForwardsToAlert cfg .rest c (growl cfg :: ps.flatMap (groupBits cfg)) :=
  .cons (.growl c) (forwardsToAlert_groups ps c)

/-- With the terminal bits in place of its last H, a frame has one group more (R103, R205). -/
theorem frameBits_append_singleton (cfg : Config) (ps : List Nat) (p : Nat) :
    frameBits cfg (ps ++ [p]) =
      (growl cfg :: ps.flatMap (groupBits cfg)) ++ terminalBits cfg p := by
  simp [frameBits, terminalBits, groupBits, List.flatMap_append]

theorem terminalBits_length (cfg : Config) (p : Nat) :
    (terminalBits cfg p).length = cfg.k + 3 := by
  simp [terminalBits, payloadBits]

end Frame

/-! ### The run (R210) -/

section Run

variable {cfg : Config} {i : Nat}

theorem hasRoom_cons {cap size add e : Nat} {bursts : List (Nat × Nat)} :
    hasRoom cap size ((add, e) :: bursts) = true ↔
      (size + add ≤ cap ∧ e ≤ size + add + 1) ∧ hasRoom cap (size + add - e) bursts = true := by
  rw [hasRoom, Bool.and_eq_true, decide_eq_true_eq]

theorem nodeReads_cons (i : Nat) (b : Bit) (bits : List Bit) (gap e : Nat)
    (reads : List (Nat × Nat)) :
    nodeReads i (b :: bits) ((gap, e) :: reads) =
      (.op (.node i) .main (encode (.nodeStep (symOfBit b) gap)) :: expiries (.node i) e) ++
        nodeReads i bits reads := rfl

/-- A node reads bits that take it to ALERT and then an H, with room for each burst: it forwards the
bits, sends the terminal bits of some payload, and ends in REST. -/
theorem runScript_nodeReads {bits : List Bit} {st : NodeState} {c : Nat} {s : State} {n : NodeRec}
    {reads : List (Nat × Nat)} (hpath : ForwardsToAlert cfg st c bits) (hst : n.state = st)
    (hc : n.count = c) (hcfg : s.cfg = cfg) (hok : configOk cfg = true) (hlow : lowsFit cfg)
    (hn : s.NodeIs i n) (hready : ReadyTx cfg n.sh) (hlen : reads.length = bits.length + 1)
    (hgap : ∀ r ∈ reads, r.1 ≤ cfg.nodeResetUs)
    (hroom : hasRoom cfg.txCap n.sh.tx.rb.size
      (List.zip (List.replicate bits.length 2 ++ [2 * (cfg.k + 3)]) (reads.map Prod.snd)) = true) :
    ∃ p < 2 ^ cfg.k, ∃ t m,
      runScript (nodeReads i (bits ++ [howl cfg]) reads) s = .next t ∧ t.NodeIs i m ∧
      m.state = .rest ∧ m.count = 0 ∧
      BitsQueued cfg (bits ++ terminalBits cfg p) (reads.map Prod.snd).sum n.sh m.sh := by
  induction hpath generalizing s n reads with
  | nil c =>
    obtain ⟨⟨gap, e⟩, rfl⟩ := List.length_eq_one_iff.mp hlen
    obtain ⟨⟨hfit, he⟩, -⟩ := hasRoom_cons.mp hroom
    obtain ⟨draws, t, sh, ht, -, hti, hq, -⟩ := runScript_read (b := howl cfg) hcfg hok hlow hn
      hready (by simp [hst]) (hgap (gap, e) List.mem_cons_self)
      (fun draws => congrArg Prod.fst (nodeBit_of_terminal hst draws))
      (fun draws => terminalBits_length ..) (Nat.succ_pos _) hfit he
    refine ⟨_, payloadSample_lt .., t, _, ?_, hti, rfl, rfl, hq⟩
    exact (congrArg (runScript · s) (List.append_nil _)).trans ht
  | cons h hrest ih =>
    obtain ⟨⟨gap, e⟩, reads, rfl⟩ := List.exists_cons_of_length_eq_add_one hlen
    obtain ⟨hgap₀, hgaps⟩ := List.forall_mem_cons.mp hgap
    obtain ⟨⟨hfit, he⟩, hroom⟩ := hasRoom_cons.mp hroom
    subst hst hc
    obtain ⟨-, t, sh, ht, htcfg, hti, hq, hsize⟩ := runScript_read hcfg hok hlow hn hready
      h.ne_howl hgap₀ (fun draws => congrArg Prod.fst (nodeBit_of_forwards h draws))
      (fun _ => rfl) Nat.one_pos hfit he
    obtain ⟨p, hp, u, m, hu, hum, hstate, hcount, hqs⟩ := ih rfl rfl htcfg hti hq.ready
      (Nat.succ.inj hlen) hgaps (hsize ▸ hroom)
    refine ⟨p, hp, u, m, ?_, hum, hstate, hcount, hq.trans hqs⟩
    rw [List.cons_append, nodeReads_cons]
    exact (runScript_append ht _).trans hu

end Run

end Sys2Proof.Machine

open Sys2Proof Sys2Proof.Machine

/-- Settles O38: the node forwards the frame up to its last H, for which it sends its own group and
an H; each burst joins the pairs to be sent, and no expiry but moves their pulses to the link. -/
theorem nodeFrameLaw : Obligations.NodeFrameLaw := by
  intro s i n ps reads hok hlow hn hrunning hwf hclosed hs hlen hgap hroom
  obtain ⟨p, hp, t, m, ht, ⟨x, htm⟩, hstate, hcount, hq⟩ := runScript_nodeReads
    (forwardsToAlert_frame ps n.count) hs rfl rfl hok hlow ⟨n.sh.rx.cnt, hn⟩
    ⟨hwf, hrunning, hclosed⟩ (by simpa [frameBits] using hlen) hgap
    (by simpa [frameBits] using hroom)
  rw [← frameBits_append_singleton] at hq
  obtain ⟨sent, hqueue, hsent⟩ := hq.queue
  exact ⟨p, hp, t, m.setCounter x, sent, ht, htm, hstate, hcount, hq.faults_eq, hqueue, hsent,
    fun hend => (hq.pulses hend).2⟩

end

section
/-! PROOFS. The coordinator automaton (43_coordinator.md): what COORD_FEED answers and writes in
each of its states, and the two resets. -/

namespace Sys2Proof.Machine

/-! ### The bytes of the write-role buffer (R72, R73) -/

theorem memWrite_natCast (buf : List Byte) (j : Nat) (v : Byte) :
    memWrite buf (j : Int) v = buf.set j v := by
  simp [memWrite]

theorem memRead_of_getElem? {buf : List Byte} {j : Nat} {v : Byte} (h : buf[j]? = some v) :
    memRead buf (j : Int) = v := by
  simp [memRead, h]

/-- A byte shifted to the left with a bit in the free place is `2v + bit`, modulo 256 (R236). -/
theorem shiftLeft_or_bit (v : Byte) (bit : Bit) :
    (v <<< 1) ||| BitVec.ofNat 8 bit.toNat = BitVec.ofNat 8 (2 * v.toNat + bit.toNat) := by
  have hor := Nat.shiftLeft_add_eq_or_of_lt (i := 1) (b := bit.toNat) bit.toNat_lt v.toNat
  rw [show 2 * v.toNat + bit.toNat = v.toNat <<< 1 ||| bit.toNat by rw [← hor]; omega]
  apply BitVec.eq_of_toNat_eq
  simp

section Record

variable {cfg : Config} {c : CoordRec} {bit : Bit}

theorem CoordRec.writeBuf_putKb_sel (c : CoordRec) (buf : List Byte) :
    (c.putKb c.sel buf).writeBuf = buf := by
  rw [CoordRec.writeBuf, CoordRec.putKb_sel, CoordRec.kb_putKb_same]

theorem CoordRec.readBuf_putKb_sel (c : CoordRec) (buf : List Byte) :
    (c.putKb c.sel buf).readBuf = c.readBuf := by
  rw [CoordRec.readBuf, CoordRec.putKb_sel, CoordRec.kb_putKb_not, CoordRec.readBuf]

/-- A write to a key-state buffer changes the two buffers at most. -/
theorem CoordRec.putKb_eq (c : CoordRec) (b : Bit) (buf : List Byte) :
    c.putKb b buf = { c with kb0 := (c.putKb b buf).kb0, kb1 := (c.putKb b buf).kb1 } := by
  cases b <;> rfl

/-- COORD_RESEED clears the write-role buffer (R231). -/
theorem coordReseed_writeBuf (cfg : Config) (c : CoordRec) :
    (coordReseed cfg c).writeBuf = List.replicate cfg.maxNodes 0 :=
  (coordReset c).writeBuf_putKb_sel _

theorem coordReseed_readBuf (cfg : Config) (c : CoordRec) :
    (coordReseed cfg c).readBuf = c.readBuf :=
  (coordReset c).readBuf_putKb_sel _

/-! ### COORD_FEED, state by state (R233 to R237) -/

theorem feedRest_growl (cfg : Config) (c : CoordRec) :
    feedRest cfg (growl cfg) c = (.continuing, { c with state := .alert }) :=
  if_pos rfl

theorem feedRest_of_ne (hb : bit ≠ growl cfg) : feedRest cfg bit c = feedResync c := if_neg hb

theorem coordFeed_of_rest (hs : c.state = .rest) : coordFeed cfg bit c = feedRest cfg bit c := by
  rw [coordFeed, hs]

/-- H ends the frame (R234). -/
theorem coordFeed_howl (hs : c.state = .alert) : coordFeed cfg (howl cfg) c = feedHowl c := by
  rw [coordFeed, hs]
  exact if_pos rfl

/-- G is not H, so in ALERT it is a header (R235). -/
theorem coordFeed_growl_of_alert (hs : c.state = .alert) :
    coordFeed cfg (growl cfg) c = feedHeader cfg c := by
  rw [coordFeed, hs]
  exact if_neg (by simp [growl, howl])

theorem feedHeader_of_full (h : c.wolfId + 1 ≥ cfg.maxNodes) : feedHeader cfg c = feedResync c :=
  if_pos h

theorem feedHeader_of_room {j : Nat} (hj : c.wolfId + 1 = j) (hlt : j < cfg.maxNodes) :
    feedHeader cfg c =
      (.continuing,
        { c.putKb c.sel (c.writeBuf.set j 0) with
          wolfId := j, count := cfg.k + 1, state := .readKBits }) := by
  rw [feedHeader, hj, if_neg (by omega), ← memWrite_natCast]

theorem coordFeed_of_payload (hs : c.state = .readKBits) (hc : c.count > 1) :
    coordFeed cfg bit c = feedPayload bit c := by
  rw [coordFeed, hs]
  exact if_pos hc

theorem feedPayload_of_wolfId {j : Nat} {v : Byte} (hj : c.wolfId = j)
    (hv : c.writeBuf[j]? = some v) :
    feedPayload bit c =
      (.continuing,
        { c.putKb c.sel (c.writeBuf.set j (BitVec.ofNat 8 (2 * v.toNat + bit.toNat))) with
          count := c.count - 1 }) := by
  rw [feedPayload, hj, memRead_of_getElem? hv, shiftLeft_or_bit, memWrite_natCast]

theorem feedSeparator_growl (cfg : Config) (c : CoordRec) :
    feedSeparator cfg (growl cfg) c = (.continuing, { c with count := 0, state := .alert }) :=
  if_pos rfl

theorem feedSeparator_of_ne (hb : bit ≠ growl cfg) : feedSeparator cfg bit c = feedResync c :=
  if_neg hb

/-- The last bit of a group is the separator (R237). -/
theorem coordFeed_of_separator (hs : c.state = .readKBits) (hc : c.count = 1) :
    coordFeed cfg bit c = feedSeparator cfg bit c := by
  rw [coordFeed, hs]
  exact if_neg (by omega)

end Record

/-! ### The operations -/

theorem exec_coordFeed {s : State} {bit : Bit} {r : FeedResult} {c : CoordRec}
    (h : s.coordReady) (hfed : coordFeed s.cfg bit s.coord = (r, c)) :
    exec (.coordFeed bit) s = .next (s.putCoord (c.answer (.feed r))) := by
  have hx := onCoord_ready (fun c =>
    (coordFeed s.cfg bit c).2.answer (.feed (coordFeed s.cfg bit c).1)) h
  rwa [hfed] at hx

theorem exec_coordReset {s : State} (h : s.coordReady) :
    exec .coordReset s = .next (s.putCoord (coordReset s.coord)) :=
  onCoord_ready coordReset h

theorem exec_coordReseed {s : State} (h : s.coordReady) :
    exec .coordReseed s = .next (s.putCoord (coordReseed s.cfg s.coord)) :=
  onCoord_ready (coordReseed s.cfg) h

end Sys2Proof.Machine

open Sys2Proof Sys2Proof.Machine

/-- Settles O39: a second reset finds the three fields as the first left them. -/
theorem coordResetResult : Obligations.CoordResetResult := by
  refine ⟨rfl, fun s => exec_coordReset, fun s t h => ?_⟩
  obtain ⟨⟨hctx, hcur, hrunning⟩, rfl⟩ := onCoord_next h
  exact exec_coordReset (s := s.putCoord (coordReset s.coord)) ⟨hctx, hcur, hrunning⟩

/-- Settles O40: the one buffer written is the one in the write role. -/
theorem coordReseedResult : Obligations.CoordReseedResult :=
  ⟨rfl, fun s h => ⟨coordReseed s.cfg s.coord, exec_coordReseed h, coordReseed_writeBuf ..,
    coordReseed_readBuf .., CoordRec.putKb_eq ..⟩⟩

/-- Settles O41: in REST the frame's G is expected. -/
theorem coordFeedInRest : Obligations.CoordFeedInRest := by
  intro s bit h hs
  have hfed := coordFeed_of_rest (cfg := s.cfg) (bit := bit) hs
  split
  case isTrue hb =>
    subst hb
    exact exec_coordFeed h (hfed.trans (feedRest_growl s.cfg s.coord))
  case isFalse hb => exact exec_coordFeed h (hfed.trans (feedRest_of_ne hb))

/-- Settles O42: `wolf_id` is at least -1, so the count is a natural number. -/
theorem coordFeedCompletes : Obligations.CoordFeedCompletes := by
  intro s h hs hid
  exact ⟨(s.coord.wolfId + 1).toNat, Int.toNat_of_nonneg (by omega),
    exec_coordFeed h (coordFeed_howl hs)⟩

/-- Settles O43: the guard of R235 decides between the reset and the next node's byte. -/
theorem coordFeedHeader : Obligations.CoordFeedHeader := by
  refine ⟨fun s h hs hfull => ?_, fun s j h hs hj hlt => ?_⟩
  · exact exec_coordFeed h ((coordFeed_growl_of_alert hs).trans (feedHeader_of_full hfull))
  · have hfed := (coordFeed_growl_of_alert hs).trans (feedHeader_of_room hj hlt)
    refine ⟨_, exec_coordFeed h hfed, s.coord.writeBuf_putKb_sel _, s.coord.readBuf_putKb_sel _, ?_⟩
    rw [CoordRec.putKb_eq]
    rfl

/-- Settles O44: the node's byte `v` becomes `2v + bit`. -/
theorem coordFeedPayloadBit : Obligations.CoordFeedPayloadBit := by
  intro s bit j v h hs hc hj hv
  have hfed := (coordFeed_of_payload (cfg := s.cfg) hs hc).trans
    (feedPayload_of_wolfId (bit := bit) hj hv)
  refine ⟨_, exec_coordFeed h hfed, s.coord.writeBuf_putKb_sel _, s.coord.readBuf_putKb_sel _, ?_⟩
  rw [CoordRec.putKb_eq]
  rfl

/-- Settles O45: after the separator the next group or the end of the frame is expected. -/
theorem coordFeedSeparator : Obligations.CoordFeedSeparator := by
  intro s bit h hs hc
  have hfed := coordFeed_of_separator (cfg := s.cfg) (bit := bit) hs hc
  split
  case isTrue hb =>
    subst hb
    exact exec_coordFeed h (hfed.trans (feedSeparator_growl s.cfg s.coord))
  case isFalse hb => exact exec_coordFeed h (hfed.trans (feedSeparator_of_ne hb))

end

section
/-! PROOFS. The decode law (R239): the automaton takes the groups of a frame one after another, each
into the byte of its node. -/

namespace Sys2Proof.Machine

/-! ### Bits that are answered with CONTINUE -/

/-- COORD_FEED answers each of the bits with CONTINUE, and they take one record to the other. -/
inductive Continues (cfg : Config) : CoordRec → List Bit → CoordRec → Prop
  | nil (c : CoordRec) : Continues cfg c [] c
  | cons {c c' c'' : CoordRec} {b : Bit} {bits : List Bit}
      (h : coordFeed cfg b c = (.continuing, c')) (hrest : Continues cfg c' bits c'') :
      Continues cfg c (b :: bits) c''

section Automaton

variable {cfg : Config} {c c' c'' : CoordRec} {bits more : List Bit} {qs : List Byte} {v : Byte}
  {m : Nat}

theorem Continues.append (h : Continues cfg c bits c') (k : Continues cfg c' more c'') :
    Continues cfg c (bits ++ more) c'' := by
  induction h with
  | nil => exact k
  | cons hb _ ih => exact .cons hb (ih k)

theorem Continues.take (h : Continues cfg c bits c') (k : Nat) :
    ∃ d, Continues cfg c (bits.take k) d := by
  induction h generalizing k with
  | nil c => exact ⟨c, by simpa using .nil c⟩
  | @cons c _ _ b bits hb _ ih =>
    cases k with
    | zero => exact ⟨c, .nil c⟩
    | succ k =>
      obtain ⟨d, hd⟩ := ih k
      exact ⟨d, .cons hb hd⟩

/-! ### One group (R235 to R237) -/

/-- Between two groups: the bytes `qs` are decoded, those of the nodes behind them are 0. -/
structure CoordRec.Decoded (cfg : Config) (qs : List Byte) (c : CoordRec) : Prop where
  state_eq : c.state = .alert
  wolfId_eq : c.wolfId + 1 = qs.length
  writeBuf_eq : c.writeBuf = qs ++ List.replicate (cfg.maxNodes - qs.length) 0

/-- Within the group behind `qs`: the node's byte is `v` so far, with `m` payload bits to come. -/
structure CoordRec.Reading (cfg : Config) (qs : List Byte) (v : Byte) (m : Nat) (c : CoordRec) :
    Prop where
  state_eq : c.state = .readKBits
  wolfId_eq : c.wolfId = qs.length
  count_eq : c.count = m + 1
  writeBuf_eq : c.writeBuf = qs ++ v :: List.replicate (cfg.maxNodes - (qs.length + 1)) 0

theorem CoordRec.Decoded.feed_header (h : c.Decoded cfg qs) (hlt : qs.length < cfg.maxNodes) :
    ∃ d, coordFeed cfg (growl cfg) c = (.continuing, d) ∧ d.Reading cfg qs 0 cfg.k := by
  have hfed := (coordFeed_growl_of_alert h.state_eq).trans (feedHeader_of_room h.wolfId_eq hlt)
  refine ⟨_, hfed, rfl, rfl, rfl, (c.writeBuf_putKb_sel _).trans ?_⟩
  rw [h.writeBuf_eq, show cfg.maxNodes - qs.length = cfg.maxNodes - (qs.length + 1) + 1 by omega]
  simp [List.replicate_succ]

theorem CoordRec.Decoded.feed_header_of_full (h : c.Decoded cfg qs)
    (hfull : qs.length = cfg.maxNodes) :
    coordFeed cfg (growl cfg) c = (.resyncError, coordReset c) :=
  (coordFeed_growl_of_alert h.state_eq).trans
    (feedHeader_of_full (by rw [h.wolfId_eq, hfull]))

theorem CoordRec.Decoded.feed_howl (h : c.Decoded cfg qs) :
    coordFeed cfg (howl cfg) c = (.complete qs.length, coordReset c) := by
  rw [coordFeed_howl h.state_eq, feedHowl, h.wolfId_eq, Int.toNat_natCast]

theorem CoordRec.Reading.feed_bit (h : c.Reading cfg qs v (m + 1)) (bit : Bit) :
    ∃ d, coordFeed cfg bit c = (.continuing, d) ∧
      d.Reading cfg qs (BitVec.ofNat 8 (2 * v.toNat + bit.toNat)) m := by
  have hc := h.count_eq
  have hv : c.writeBuf[qs.length]? = some v := by simp [h.writeBuf_eq]
  have hfed := (coordFeed_of_payload (cfg := cfg) h.state_eq (by omega)).trans
    (feedPayload_of_wolfId (bit := bit) h.wolfId_eq hv)
  refine ⟨_, hfed, (c.putKb_state ..).trans h.state_eq, (c.putKb_wolfId ..).trans h.wolfId_eq,
    Nat.sub_eq_of_eq_add hc, (c.writeBuf_putKb_sel _).trans ?_⟩
  simp [h.writeBuf_eq]

theorem CoordRec.Reading.feed_separator (h : c.Reading cfg qs v 0) :
    ∃ d, coordFeed cfg (growl cfg) c = (.continuing, d) ∧ d.Decoded cfg (qs ++ [v]) := by
  have hfed := (coordFeed_of_separator (cfg := cfg) h.state_eq h.count_eq).trans
    (feedSeparator_growl cfg c)
  refine ⟨_, hfed, rfl, ?_, h.writeBuf_eq.trans (by simp)⟩
  simp [h.wolfId_eq]

theorem payloadBits_succ (m p : Nat) :
    payloadBits (m + 1) p = p.testBit m :: payloadBits m p := by
  simp [payloadBits, List.range_succ]

/-- The upper bits of a payload, with one bit more (R107). -/
theorem ofNat_div_shiftIn (p m : Nat) :
    BitVec.ofNat 8 (2 * (BitVec.ofNat 8 (p / 2 ^ (m + 1))).toNat + (p.testBit m).toNat) =
      BitVec.ofNat 8 (p / 2 ^ m) := by
  apply BitVec.eq_of_toNat_eq
  rw [Nat.toNat_testBit, pow_succ, ← Nat.div_div_eq_div_mul]
  simp only [BitVec.toNat_ofNat]
  omega

/-- The payload bits shift the payload into the node's byte, most significant first (R107, R236). -/
theorem CoordRec.Reading.feed_payload {p : Nat}
    (h : c.Reading cfg qs (BitVec.ofNat 8 (p / 2 ^ m)) m) :
    ∃ d, Continues cfg c (payloadBits m p) d ∧ d.Reading cfg qs (BitVec.ofNat 8 p) 0 := by
  induction m generalizing c with
  | zero => exact ⟨c, .nil c, by simpa using h⟩
  | succ m ih =>
    obtain ⟨d, hd, hr⟩ := h.feed_bit (p.testBit m)
    rw [ofNat_div_shiftIn] at hr
    obtain ⟨e, he, hend⟩ := ih hr
    exact ⟨e, payloadBits_succ m p ▸ .cons hd he, hend⟩

/-- A node's group is decoded into the node's byte (R103). -/
theorem CoordRec.Decoded.feed_group {p : Nat} (h : c.Decoded cfg qs)
    (hlt : qs.length < cfg.maxNodes) (hp : p < 2 ^ cfg.k) :
    ∃ d, Continues cfg c (groupBits cfg p) d ∧ d.Decoded cfg (qs ++ [BitVec.ofNat 8 p]) := by
  obtain ⟨c₁, h₁, hr₁⟩ := h.feed_header hlt
  have hbyte : (0 : Byte) = BitVec.ofNat 8 (p / 2 ^ cfg.k) := by
    rw [Nat.div_eq_of_lt hp]
    rfl
  obtain ⟨c₂, h₂, hr₂⟩ := (hbyte ▸ hr₁).feed_payload
  obtain ⟨c₃, h₃, hr₃⟩ := hr₂.feed_separator
  exact ⟨c₃, .cons h₁ (h₂.append (.cons h₃ (.nil c₃))), hr₃⟩

/-! ### The groups of a frame -/

theorem CoordRec.Decoded.feed_groups {ps : List Nat} (h : c.Decoded cfg qs)
    (hle : qs.length + ps.length ≤ cfg.maxNodes) (hps : ∀ p ∈ ps, p < 2 ^ cfg.k) :
    ∃ d, Continues cfg c (ps.flatMap (groupBits cfg)) d ∧
      d.Decoded cfg (qs ++ ps.map (BitVec.ofNat 8)) := by
  induction ps generalizing c qs with
  | nil => exact ⟨c, .nil c, by simpa using h⟩
  | cons p ps ih =>
    obtain ⟨hp, hps⟩ := List.forall_mem_cons.mp hps
    rw [List.length_cons] at hle
    obtain ⟨c₁, h₁, hd₁⟩ := h.feed_group (by omega) hp
    obtain ⟨c₂, h₂, hd₂⟩ := ih hd₁ (by simp; omega) hps
    exact ⟨c₂, h₁.append h₂, by simpa using hd₂⟩

/-- After COORD_RESEED a frame is decoded up to its last H (R231, R233). -/
theorem coordReseed_decoded {ps : List Nat} (c : CoordRec) (hle : ps.length ≤ cfg.maxNodes)
    (hps : ∀ p ∈ ps, p < 2 ^ cfg.k) :
    ∃ d, Continues cfg (coordReseed cfg c) (growl cfg :: ps.flatMap (groupBits cfg)) d ∧
      d.Decoded cfg (ps.map (BitVec.ofNat 8)) := by
  have hstate : (coordReseed cfg c).state = .rest := CoordRec.putKb_state ..
  have hid : (coordReseed cfg c).wolfId = -1 := CoordRec.putKb_wolfId ..
  have hgrowl := (coordFeed_of_rest hstate).trans (feedRest_growl cfg (coordReseed cfg c))
  have halert : ({ coordReseed cfg c with state := .alert } : CoordRec).Decoded cfg [] :=
    ⟨rfl, by simp [hid], coordReseed_writeBuf cfg c⟩
  obtain ⟨d, hd, hdec⟩ := halert.feed_groups (by simpa using hle) hps
  exact ⟨d, .cons hgrowl hd, by simpa using hdec⟩

end Automaton

/-! ### A frame cut behind some of its groups -/

theorem groupBits_length (cfg : Config) (p : Nat) : (groupBits cfg p).length = cfg.k + 2 := by
  simp [groupBits, payloadBits]

theorem flatMap_groupBits_length (cfg : Config) (ps : List Nat) :
    (ps.flatMap (groupBits cfg)).length = ps.length * (cfg.k + 2) := by
  simp [List.length_flatMap, groupBits_length]

theorem frameBits_eq_take_append (cfg : Config) (ps : List Nat) (n : Nat) :
    frameBits cfg ps = (growl cfg :: (ps.take n).flatMap (groupBits cfg)) ++
      ((ps.drop n).flatMap (groupBits cfg) ++ [howl cfg]) := by
  rw [List.cons_append, ← List.append_assoc, ← List.flatMap_append, List.take_append_drop]
  rfl

/-- The bits of a frame up to and with the header behind its first `n` groups. -/
theorem take_frameBits_header {cfg : Config} {ps : List Nat} {n : Nat} (h : n < ps.length) :
    (frameBits cfg ps).take (2 + n * (cfg.k + 2)) =
      (growl cfg :: (ps.take n).flatMap (groupBits cfg)) ++ [growl cfg] := by
  have hlen : (growl cfg :: (ps.take n).flatMap (groupBits cfg)).length =
      1 + n * (cfg.k + 2) := by
    rw [List.length_cons, flatMap_groupBits_length, List.length_take, Nat.min_eq_left h.le,
      Nat.add_comm]
  rw [frameBits_eq_take_append cfg ps n, List.drop_eq_getElem_cons h,
    show 2 + n * (cfg.k + 2) = 1 + n * (cfg.k + 2) + 1 by omega, ← hlen,
    List.take_length_add_append]
  rfl

/-! ### The run -/

/-- The coordinator has not halted and its record is `c`, whatever its codec part. -/
structure State.CoordIs (s : State) (c : CoordRec) : Prop where
  running : s.coord.sh.faults.halted = false
  coord_eq : s.coord = { c with sh := s.coord.sh }

/-- The automaton neither looks at the codec part nor changes it (R232). -/
theorem coordFeed_withShared (cfg : Config) (bit : Bit) (c : CoordRec) (sh : Shared) :
    coordFeed cfg bit { c with sh := sh } =
      ((coordFeed cfg bit c).1, { (coordFeed cfg bit c).2 with sh := sh }) := by
  obtain ⟨_, state, _, _, _, _, _, _, sel, _, _, _⟩ := c
  cases state with
  | rest =>
    simp only [coordFeed, feedRest]
    split <;> rfl
  | alert =>
    simp only [coordFeed, feedHeader]
    split
    · rfl
    · split
      · rfl
      · cases sel <;> rfl
  | readKBits =>
    simp only [coordFeed, feedSeparator]
    split
    · cases sel <;> rfl
    · split <;> rfl

theorem coordReseed_withShared (cfg : Config) (c : CoordRec) (sh : Shared) :
    coordReseed cfg { c with sh := sh } = { coordReseed cfg c with sh := sh } := by
  obtain ⟨_, _, _, _, _, _, _, _, sel, _, _, _⟩ := c
  cases sel <;> rfl

section Run

variable {cfg : Config} {s : State} {c d e : CoordRec} {b : Bit} {bits : List Bit}
  {r : FeedResult}

/-- Where an operation issued from the coordinator's main line is taken, the record is still `c`. -/
theorem State.CoordIs.onMainLine (h : s.CoordIs c) (es : List Event) :
    ((runCounters s).onMainLine .coordinator es).coordReady ∧
      ((runCounters s).onMainLine .coordinator es).CoordIs c := by
  obtain ⟨hrunning, hc⟩ := h
  refine ⟨⟨rfl, rfl, hrunning⟩, hrunning, ?_⟩
  exact congrArg (fun c : CoordRec => { c with sh := freeCounter s.cfg s.draws s.coord.sh }) hc

/-- A COORD_RESEED issued from the main line. -/
theorem runScript_coordReseed (hok : configOk s.cfg = true) (h : s.CoordIs c) :
    ∃ t, runScript (issue .coordinator [.coordReseed]) s = .next t ∧ t.cfg = s.cfg ∧
      t.CoordIs (coordReseed s.cfg c) := by
  obtain ⟨hready, hrunning, hc⟩ := h.onMainLine []
  have hstep := (step_issued hok .coordinator .coordReseed []).trans (exec_coordReseed hready)
  refine ⟨_, (runScript_cons hstep rfl).trans (runScript_nil rfl), rfl, ?_, ?_⟩
  · simpa using hrunning
  · rw [State.putCoord_coord, coordReseed_sh]
    exact (congrArg (coordReseed s.cfg) hc).trans (coordReseed_withShared ..)

/-- A COORD_FEED issued from the main line. -/
theorem runScript_coordFeed (hok : configOk s.cfg = true) (h : s.CoordIs c)
    (hfed : coordFeed s.cfg b c = (r, d)) :
    ∃ t, runScript (issue .coordinator [.coordFeed b]) s = .next t ∧ t.cfg = s.cfg ∧
      t.CoordIs d ∧ t.coord.sh.ret = .feed r := by
  obtain ⟨hready, hrunning, hc⟩ := h.onMainLine []
  have hfed' := (congrArg (coordFeed s.cfg b) hc).trans (coordFeed_withShared ..)
  rw [hfed] at hfed'
  have hstep := (step_issued hok .coordinator (.coordFeed b) []).trans
    (exec_coordFeed hready hfed')
  exact ⟨_, (runScript_cons hstep rfl).trans (runScript_nil rfl), rfl, ⟨hrunning, rfl⟩, rfl⟩

/-- The run of bits that are answered with CONTINUE. -/
theorem Continues.runs (k : Continues cfg c bits d) (hcfg : s.cfg = cfg)
    (hok : configOk cfg = true) (h : s.CoordIs c) :
    ∃ t, runScript (issue .coordinator (bits.map .coordFeed)) s = .next t ∧ t.cfg = cfg ∧
      t.CoordIs d ∧ (bits ≠ [] → t.coord.sh.ret = .feed .continuing) := by
  induction k generalizing s with
  | nil c => exact
    ⟨{ s with script := [] }, rfl, hcfg, ⟨h.running, h.coord_eq⟩, fun hne => absurd rfl hne⟩
  | @cons c c' d b bits hb hrest ih =>
    subst hcfg
    obtain ⟨u, hu, hucfg, huc, hret⟩ := runScript_coordFeed hok h hb
    obtain ⟨t, ht, htcfg, htc, hlast⟩ := ih hucfg huc
    refine ⟨t, (runScript_append hu _).trans ht, htcfg, htc, fun _ => ?_⟩
    cases hrest with
    | nil =>
      cases ht
      exact hret
    | cons => exact hlast (List.cons_ne_nil _ _)

/-- A COORD_RESEED and bits that are answered with CONTINUE. -/
theorem Continues.runs_reseed (k : Continues s.cfg (coordReseed s.cfg s.coord) bits d)
    (hok : configOk s.cfg = true) (hrunning : s.coord.sh.faults.halted = false) :
    ∃ t, runScript (issue .coordinator (.coordReseed :: bits.map .coordFeed)) s = .next t ∧
      t.cfg = s.cfg ∧ t.CoordIs d ∧ (bits ≠ [] → t.coord.sh.ret = .feed .continuing) := by
  obtain ⟨u, hu, hcfg, huc⟩ := runScript_coordReseed hok ⟨hrunning, rfl⟩
  obtain ⟨t, ht, htc⟩ := k.runs hcfg hok huc
  exact ⟨t, (runScript_append hu _).trans ht, htc⟩

/-- The same with one bit more, whatever it is answered with. -/
theorem Continues.runs_reseed_last
    (k : Continues s.cfg (coordReseed s.cfg s.coord) bits d)
    (hfed : coordFeed s.cfg b d = (r, e)) (hok : configOk s.cfg = true)
    (hrunning : s.coord.sh.faults.halted = false) :
    ∃ t, runScript
        (issue .coordinator (.coordReseed :: (bits ++ [b]).map .coordFeed)) s = .next t ∧
      t.CoordIs e ∧ t.coord.sh.ret = .feed r := by
  obtain ⟨u, hu, hcfg, huc, -⟩ := k.runs_reseed hok hrunning
  rw [← hcfg] at hfed hok
  obtain ⟨t, ht, -, htc, hret⟩ := runScript_coordFeed hok huc hfed
  refine ⟨t, ?_, htc, hret⟩
  rw [List.map_append, issue, ← List.cons_append, List.map_append]
  exact (runScript_append hu _).trans ht

end Run

end Sys2Proof.Machine

open Sys2Proof Sys2Proof.Machine

/-- Settles O46: between the groups the decoded bytes stand in the write-role buffer with 0 behind
them, so each group finds its byte, the last H the count, and a header too many a full buffer. -/
theorem coordDecodeLaw : Obligations.CoordDecodeLaw := by
  intro s ps hok hrunning _ hps
  have hpsTake : ∀ p ∈ ps.take s.cfg.maxNodes, p < 2 ^ s.cfg.k :=
    fun p hp => hps p (List.mem_of_mem_take hp)
  obtain ⟨d, hd, hdec⟩ := coordReseed_decoded s.coord (List.length_take_le ..) hpsTake
  refine ⟨fun k hk hle => ?_, fun hle => ?_, fun hlt => ?_⟩
  · obtain ⟨e, he⟩ := hd.take k
    obtain ⟨t, ht, -, -, hret⟩ := he.runs_reseed hok hrunning
    rw [frameBits_eq_take_append s.cfg ps s.cfg.maxNodes, List.take_append_of_le_length]
    · exact ⟨t, ht, hret (by simp; omega)⟩
    · rw [List.length_cons, flatMap_groupBits_length, List.length_take, Nat.min_comm]
      omega
  · rw [List.take_of_length_le hle] at hd hdec
    obtain ⟨t, ht, htc, hret⟩ := hd.runs_reseed_last hdec.feed_howl hok hrunning
    rw [List.length_map] at hret
    refine ⟨t, ht, hret, ?_⟩
    rw [htc.coord_eq, ← List.length_map (BitVec.ofNat 8)]
    exact ⟨rfl, rfl, hdec.writeBuf_eq⟩
  · have hfull : ((ps.take s.cfg.maxNodes).map (BitVec.ofNat 8)).length = s.cfg.maxNodes := by
      simpa using hlt.le
    obtain ⟨t, ht, -, hret⟩ :=
      hd.runs_reseed_last (hdec.feed_header_of_full hfull) hok hrunning
    exact ⟨t, take_frameBits_header hlt ▸ ht, hret⟩

end

section
/-! PROOFS. The supervisor (44_supervisor.md): what WD_POLL does with an empty ring and with each
symbol in each supervisor state (R261 to R270); before it, what a publish and the automaton do to
what a consumer can read. -/

namespace Sys2Proof.Machine

/-! ### The key-state buffers at a publish (R291) -/

section Publish

variable {cfg : Config} {c : CoordRec} {w r : List Byte}

theorem memRead_of_lt {buf : List Byte} {j : Nat} (h : j < buf.length) :
    memRead buf (j : Int) = buf[j] :=
  memRead_of_getElem? (List.getElem?_eq_getElem h)

/-- The edge vector of two buffers of MAX_NODES bytes, byte by byte. -/
theorem edgeVector_eq_zipWith (hw : w.length = cfg.maxNodes) (hr : r.length = cfg.maxNodes) :
    edgeVector cfg w r = List.zipWith (· ^^^ ·) w r := by
  refine List.ext_getElem (by simp [edgeVector, hw, hr]) fun j hj _ => ?_
  have hlt : j < cfg.maxNodes := by simpa [edgeVector] using hj
  simp [edgeVector, memRead_of_lt, hw, hr, hlt]

theorem CoordRec.readBuf_length (h : c.buffersWf cfg) : c.readBuf.length = cfg.maxNodes := by
  obtain ⟨h0, h1, -, -⟩ := h
  unfold CoordRec.readBuf
  cases c.sel
  · exact h1
  · exact h0

theorem edgeVector_of_buffersWf (h : c.buffersWf cfg) :
    edgeVector cfg c.writeBuf c.readBuf = List.zipWith (· ^^^ ·) c.writeBuf c.readBuf :=
  edgeVector_eq_zipWith (CoordRec.writeBuf_length h) (CoordRec.readBuf_length h)

/-- A publish hands the buffer that was written to the readers. -/
theorem dbPublish_readBuf (cfg : Config) (k : Nat) (c : CoordRec) :
    (dbPublish cfg k c).readBuf = c.writeBuf := by
  cases hs : c.sel <;> simp [dbPublish, CoordRec.readBuf, CoordRec.writeBuf, CoordRec.putKb, hs]

/-- The buffer that was read is zeroed for the next cycle. -/
theorem dbPublish_writeBuf (cfg : Config) (k : Nat) (c : CoordRec) :
    (dbPublish cfg k c).writeBuf = List.replicate cfg.maxNodes 0 :=
  c.kb_putKb_same (!c.sel) _

theorem dbPublish_eq (cfg : Config) (k : Nat) (c : CoordRec) :
    dbPublish cfg k c =
      { c with
        kb0 := (dbPublish cfg k c).kb0, kb1 := (dbPublish cfg k c).kb1
        edge := edgeVector cfg c.writeBuf c.readBuf, sel := !c.sel, readCount := k } := by
  rw [dbPublish, CoordRec.putKb_eq]

end Publish

/-! ### What a consumer can read (R73, R275, R296, R297) -/

/-- A consumer reads in `d` what it reads in `c`: the buffer in the read role, its count, and the
edges of the last publish; and the buffers have not changed roles. -/
structure ViewKept (c d : CoordRec) : Prop where
  sel_eq : d.sel = c.sel
  readBuf_eq : d.readBuf = c.readBuf
  readCount_eq : d.readCount = c.readCount
  edge_eq : d.edge = c.edge

/-- A consumer reads in `d` the buffer that stood in the write role in `c`, as a cycle of `k` nodes,
and the buffers have changed roles (R291). -/
structure Published (cfg : Config) (k : Nat) (c d : CoordRec) : Prop where
  sel_eq : d.sel = !c.sel
  readBuf_eq : d.readBuf = c.writeBuf
  readCount_eq : d.readCount = k
  edge_eq : d.edge = edgeVector cfg c.writeBuf c.readBuf

section View

variable {cfg : Config} {c d e : CoordRec} {k : Nat}

theorem ViewKept.refl (c : CoordRec) : ViewKept c c := ⟨rfl, rfl, rfl, rfl⟩

theorem ViewKept.trans (h : ViewKept c d) (hk : ViewKept d e) : ViewKept c e :=
  ⟨hk.sel_eq.trans h.sel_eq, hk.readBuf_eq.trans h.readBuf_eq,
    hk.readCount_eq.trans h.readCount_eq, hk.edge_eq.trans h.edge_eq⟩

theorem Published.trans_viewKept (h : Published cfg k c d) (hk : ViewKept d e) :
    Published cfg k c e :=
  ⟨hk.sel_eq.trans h.sel_eq, hk.readBuf_eq.trans h.readBuf_eq,
    hk.readCount_eq.trans h.readCount_eq, hk.edge_eq.trans h.edge_eq⟩

/-- The consumers do not look at the automaton's own fields. -/
theorem ViewKept.setAutomaton (h : ViewKept c d) (st : CoordState) (id : Int) (n : Nat) :
    ViewKept c { d with state := st, wolfId := id, count := n } := by
  obtain ⟨hsel, hread, hcount, hedge⟩ := h
  exact ⟨hsel, hread, hcount, hedge⟩

/-- The automaton writes to the buffer in the write role alone (R73). -/
theorem putKb_sel_viewKept (c : CoordRec) (buf : List Byte) : ViewKept c (c.putKb c.sel buf) :=
  ⟨c.putKb_sel .., c.readBuf_putKb_sel buf, c.putKb_readCount .., c.putKb_edge ..⟩

theorem coordReset_viewKept (c : CoordRec) : ViewKept c (coordReset c) :=
  (ViewKept.refl c).setAutomaton ..

theorem coordReseed_viewKept (cfg : Config) (c : CoordRec) : ViewKept c (coordReseed cfg c) :=
  (coordReset_viewKept c).trans (putKb_sel_viewKept (coordReset c) _)

theorem enterReset_viewKept (cfg : Config) (c : CoordRec) : ViewKept c (enterReset cfg c) :=
  ⟨rfl, rfl, rfl, rfl⟩

theorem startCycle_viewKept (cfg : Config) (c : CoordRec) : ViewKept c (startCycle cfg c) := by
  obtain ⟨hsel, hread, hcount, hedge⟩ := coordReseed_viewKept cfg c
  exact ⟨hsel, hread, hcount, hedge⟩

theorem dbPublish_published (cfg : Config) (k : Nat) (c : CoordRec) :
    Published cfg k c (dbPublish cfg k c) :=
  ⟨rfl, dbPublish_readBuf cfg k c, rfl, rfl⟩

/-- All that COORD_FEED can do: it resets the automaton on a misplaced bit (R238), it completes a
cycle on H in ALERT (R234), or it goes on, and then it writes to the write-role buffer at most. -/
theorem coordFeed_cases (cfg : Config) (bit : Bit) (c : CoordRec) :
    coordFeed cfg bit c = feedResync c ∨
      (c.state = .alert ∧ bit = howl cfg ∧ coordFeed cfg bit c = feedHowl c) ∨
      ∃ d, coordFeed cfg bit c = (.continuing, d) ∧ ViewKept c d := by
  cases hs : c.state with
  | rest =>
    rw [coordFeed_of_rest hs]
    by_cases hb : bit = growl cfg
    · rw [hb]
      exact .inr (.inr ⟨_, feedRest_growl cfg c, (ViewKept.refl c).setAutomaton ..⟩)
    · exact .inl (feedRest_of_ne hb)
  | alert =>
    by_cases hb : bit = howl cfg
    · rw [hb]
      exact .inr (.inl ⟨rfl, rfl, coordFeed_howl hs⟩)
    · rw [show bit = growl cfg by simpa [growl, howl] using hb, coordFeed_growl_of_alert hs]
      by_cases hfull : c.wolfId + 1 ≥ cfg.maxNodes
      · exact .inl (feedHeader_of_full hfull)
      · exact .inr (.inr ⟨_, if_neg hfull, (putKb_sel_viewKept c _).setAutomaton ..⟩)
  | readKBits =>
    by_cases hc : c.count > 1
    · exact .inr (.inr ⟨_, coordFeed_of_payload hs hc, (putKb_sel_viewKept c _).setAutomaton ..⟩)
    · have hsep : coordFeed cfg bit c = feedSeparator cfg bit c := by
        rw [coordFeed, hs]
        exact if_neg hc
      rw [hsep]
      by_cases hb : bit = growl cfg
      · rw [hb]
        exact .inr (.inr ⟨_, feedSeparator_growl cfg c, (ViewKept.refl c).setAutomaton ..⟩)
      · exact .inl (feedSeparator_of_ne hb)

theorem coordFeed_viewKept (cfg : Config) (bit : Bit) (c : CoordRec) :
    ViewKept c (coordFeed cfg bit c).2 := by
  obtain hr | ⟨-, -, hr⟩ | ⟨d, hr, hd⟩ := coordFeed_cases cfg bit c
  · rw [hr]
    exact coordReset_viewKept c
  · rw [hr]
    exact coordReset_viewKept c
  · rw [hr]
    exact hd

theorem coordFeed_resync_eq {bit : Bit} (h : coordFeed cfg bit c = (.resyncError, d)) :
    d = coordReset c := by
  obtain hr | ⟨-, -, hr⟩ | ⟨e, hr, -⟩ := coordFeed_cases cfg bit c
  · exact congrArg Prod.snd (h.symm.trans hr)
  · cases h.symm.trans hr
  · cases h.symm.trans hr

end View

/-! ### The supervisor's moves (R263 to R272) -/

section Moves

variable {cfg : Config} {c : CoordRec} {sym : Sym} {bit : Bit} {now : Nat}

theorem wdTimeout_of_reset (h : c.wdState = .reset) :
    wdTimeout cfg c = { c with sh := sendReset cfg c.sh } := by
  rw [wdTimeout, h]

theorem wdTimeout_of_ne_reset (h : c.wdState ≠ .reset) : wdTimeout cfg c = enterReset cfg c := by
  unfold wdTimeout
  split
  case h_1 | h_2 => rfl
  case h_3 hr => exact absurd hr h

/-- Every timeout sends the reset waveform (R265, R267, R270). -/
theorem wdTimeout_sh (cfg : Config) (c : CoordRec) :
    (wdTimeout cfg c).sh = sendReset cfg c.sh := by
  unfold wdTimeout
  split <;> rfl

/-- Every timeout ends in RESET (R265, R267, R270). -/
theorem wdTimeout_wdState (cfg : Config) (c : CoordRec) : (wdTimeout cfg c).wdState = .reset := by
  by_cases h : c.wdState = .reset
  · rw [wdTimeout_of_reset h, h]
  · rw [wdTimeout_of_ne_reset h]
    rfl

theorem startCycle_writeBuf (cfg : Config) (c : CoordRec) :
    (startCycle cfg c).writeBuf = List.replicate cfg.maxNodes 0 := coordReseed_writeBuf cfg c

theorem startCycle_readBuf (cfg : Config) (c : CoordRec) :
    (startCycle cfg c).readBuf = c.readBuf := coordReseed_readBuf cfg c

theorem startCycle_eq (cfg : Config) (c : CoordRec) :
    startCycle cfg c =
      { c with
        sh := sendFrameStart cfg c.sh, state := .rest, wolfId := -1, count := 0, wdState := .good
        kb0 := (startCycle cfg c).kb0, kb1 := (startCycle cfg c).kb1 } := by
  rw [startCycle, coordReseed, CoordRec.putKb_eq]
  rfl

theorem wdSymbol_of_cooldown (h : c.wdState = .cooldown) : wdSymbol cfg sym c = c := by
  rw [wdSymbol, h]

/-- In RESET the echo of the waveform starts a cycle (R268). -/
theorem wdSymbol_of_echo (h : c.wdState = .reset) : wdSymbol cfg .reset c = startCycle cfg c := by
  rw [wdSymbol, h]
  exact if_pos rfl

theorem wdSymbol_of_no_echo (h : c.wdState = .reset) (hs : sym ≠ .reset) :
    wdSymbol cfg sym c = fallBack c := by
  rw [wdSymbol, h]
  exact if_neg hs

theorem wdSymbol_of_good (h : c.wdState = .good) : wdSymbol cfg sym c = wdGood cfg sym c := by
  rw [wdSymbol, h]

theorem wdGood_of_reset_or_error (h : sym = .reset ∨ sym = .error) :
    wdGood cfg sym c = fallBack c := by
  obtain rfl | rfl := h <;> rfl

theorem wdGood_symOfBit (cfg : Config) (bit : Bit) (c : CoordRec) :
    wdGood cfg (symOfBit bit) c = wdFeed cfg bit c := by
  cases bit <;> rfl

theorem wdFeed_of_continuing {d : CoordRec} (h : coordFeed cfg bit c = (.continuing, d)) :
    wdFeed cfg bit c = d := by
  rw [wdFeed, h]

theorem wdFeed_of_resync {d : CoordRec} (h : coordFeed cfg bit c = (.resyncError, d)) :
    wdFeed cfg bit c = enterReset cfg d := by
  rw [wdFeed, h]

/-- The H that ends a frame is the bit that completes a cycle (R234, R264). -/
theorem wdFeed_howl (h : c.state = .alert) :
    wdFeed cfg (howl cfg) c = wdComplete cfg (c.wolfId + 1).toNat (coordReset c) := by
  rw [wdFeed, coordFeed_howl h]
  rfl

/-- A cycle that leaves no entry behind is followed by the next one (R264). -/
theorem wdComplete_of_empty (k : Nat) (h : c.sh.rx.rb.size = 0) :
    wdComplete cfg k c = startCycle cfg (dbPublish cfg k c) :=
  if_neg (by simp [Ring.avail, h])

theorem wdComplete_of_pos (k : Nat) (h : 0 < c.sh.rx.rb.size) :
    wdComplete cfg k c = enterReset cfg (dbPublish cfg k c) :=
  if_pos (by simp [Ring.avail, h])

theorem wdComplete_published (cfg : Config) (k : Nat) (c : CoordRec) :
    Published cfg k c (wdComplete cfg k c) := by
  obtain hs | hs := Nat.eq_zero_or_pos c.sh.rx.rb.size
  · rw [wdComplete_of_empty k hs]
    exact (dbPublish_published cfg k c).trans_viewKept (startCycle_viewKept ..)
  · rw [wdComplete_of_pos k hs]
    exact (dbPublish_published cfg k c).trans_viewKept (enterReset_viewKept ..)

theorem wdComplete_writeBuf (cfg : Config) (k : Nat) (c : CoordRec) :
    (wdComplete cfg k c).writeBuf = List.replicate cfg.maxNodes 0 := by
  obtain hs | hs := Nat.eq_zero_or_pos c.sh.rx.rb.size
  · rw [wdComplete_of_empty k hs, startCycle_writeBuf]
  · rw [wdComplete_of_pos k hs]
    exact dbPublish_writeBuf cfg k c

/-- What the end of a cycle leaves, whether or not an entry still waits (R264). -/
theorem wdComplete_eq (cfg : Config) (k : Nat) (c : CoordRec) :
    wdComplete cfg k c =
      { c with
        sh := if c.sh.rx.rb.size = 0 then sendFrameStart cfg c.sh else sendReset cfg c.sh
        wdState := if c.sh.rx.rb.size = 0 then .good else .reset
        state := .rest, wolfId := -1, count := 0, sel := !c.sel, readCount := k
        kb0 := (wdComplete cfg k c).kb0, kb1 := (wdComplete cfg k c).kb1
        edge := edgeVector cfg c.writeBuf c.readBuf } := by
  obtain hs | hs := Nat.eq_zero_or_pos c.sh.rx.rb.size
  · rw [wdComplete_of_empty k hs, startCycle_eq, dbPublish_eq, if_pos hs, if_pos hs]
  · rw [wdComplete_of_pos k hs, if_neg hs.ne', if_neg hs.ne', enterReset, dbPublish_eq]
    rfl

/-! ### WD_POLL (R261) -/

/-- The record once WD_POLL has taken the oldest capture from the RX ring (R261, R175). -/
def CoordRec.taken (cfg : Config) (c : CoordRec) : CoordRec := { c with sh := (rxTake cfg c.sh).2 }

@[simp] theorem CoordRec.taken_size (cfg : Config) (c : CoordRec) :
    (c.taken cfg).sh.rx.rb.size = c.sh.rx.rb.size - 1 := rfl

theorem wdPoll_of_early (hs : c.sh.rx.rb.size = 0) (h : now < c.wdDeadline) :
    wdPoll cfg now c = c := by
  simp [wdPoll, Ring.avail, hs, h]

theorem wdPoll_of_due (hs : c.sh.rx.rb.size = 0) (h : c.wdDeadline ≤ now) :
    wdPoll cfg now c = rearm cfg now (wdTimeout cfg c) := by
  simp [wdPoll, Ring.avail, hs, h]

theorem wdPoll_of_pos (hs : 0 < c.sh.rx.rb.size) :
    wdPoll cfg now c =
      rearm cfg now (wdSymbol cfg (classify cfg (rxFront c.sh.rx.rb)) (c.taken cfg)) :=
  if_pos (decide_eq_true hs)

end Moves

/-! ### The operations -/

section Operations

variable {s : State} {now v : Nat} {d : CoordRec}

theorem exec_wdInit (now : Nat) (h : s.coordReady) :
    exec (.wdInit now) s = .next (s.putCoord (wdInit s.cfg now s.coord)) :=
  onCoord_ready (wdInit s.cfg now) h

theorem exec_wdPoll (now : Nat) (h : s.coordReady) :
    exec (.wdPoll now) s = .next (s.putCoord (wdPoll s.cfg now s.coord)) :=
  onCoord_ready (wdPoll s.cfg now) h

theorem exec_wdPoll_of_early (h : s.coordReady) (hs : s.coord.sh.rx.rb.size = 0)
    (hnow : now < s.coord.wdDeadline) : exec (.wdPoll now) s = .next s := by
  rw [exec_wdPoll now h, wdPoll_of_early hs hnow]
  rfl

theorem exec_wdPoll_of_due (h : s.coordReady) (hs : s.coord.sh.rx.rb.size = 0)
    (hnow : s.coord.wdDeadline ≤ now) :
    exec (.wdPoll now) s = .next (s.putCoord (rearm s.cfg now (wdTimeout s.cfg s.coord))) := by
  rw [exec_wdPoll now h, wdPoll_of_due hs hnow]

/-- WD_POLL with the value `v` at the front of the ring, whose symbol the supervisor answers with
the record `d`. -/
theorem exec_wdPoll_of_symbol (h : s.coordReady) (hs : 0 < s.coord.sh.rx.rb.size)
    (hv : s.coord.sh.rx.rb.slots[s.coord.sh.rx.rb.head]? = some v)
    (hd : wdSymbol s.cfg (classify s.cfg v) (s.coord.taken s.cfg) = d) :
    exec (.wdPoll now) s = .next (s.putCoord (rearm s.cfg now d)) := by
  rw [exec_wdPoll now h, wdPoll_of_pos hs, rxFront_eq hv, hd]

/-- WD_POLL in GOOD on a bit, which goes to the automaton. -/
theorem exec_wdPoll_of_bit {bit : Bit} (h : s.coordReady) (hs : 0 < s.coord.sh.rx.rb.size)
    (hv : s.coord.sh.rx.rb.slots[s.coord.sh.rx.rb.head]? = some v)
    (hgood : s.coord.wdState = .good) (hbit : classify s.cfg v = symOfBit bit)
    (hd : wdFeed s.cfg bit (s.coord.taken s.cfg) = d) :
    exec (.wdPoll now) s = .next (s.putCoord (rearm s.cfg now d)) := by
  refine exec_wdPoll_of_symbol h hs hv ?_
  rw [wdSymbol_of_good (c := s.coord.taken s.cfg) hgood, hbit, wdGood_symOfBit, hd]

end Operations

/-! ### A bulk halts no agent (R316) -/

theorem CodecProgram.halted_eq {cfg : Config} {is : List Instr} {f : Shared → Shared}
    (h : CodecProgram cfg is f) (sh : Shared) : (f sh).faults.halted = sh.faults.halted := by
  induction h generalizing sh with
  | single h => exact h.halted_eq sh
  | cons h hp ih => exact (ih _).trans (h.halted_eq sh)

@[simp] theorem sendPairs_halted (cfg : Config) (ps : List TxPair) (sh : Shared) :
    (sendPairs cfg ps sh).faults.halted = sh.faults.halted :=
  (codecProgram_bulkProgram cfg ps).halted_eq sh

end Sys2Proof.Machine

open Sys2Proof Sys2Proof.Machine

/-- Settles O47: the boot sequence is then done. -/
theorem wdInitResult : Obligations.WdInitResult :=
  ⟨fun _ => rfl, fun _ now h => ⟨true, exec_wdInit now h⟩⟩

/-- Settles O48: the deadline is ahead or not, and a due one is met in RESET or outside it. -/
theorem wdPollTimeout : Obligations.WdPollTimeout := by
  intro s now h hs
  by_cases hnow : now < s.coord.wdDeadline
  · rw [if_pos hnow, exec_wdPoll_of_early h hs hnow]
  · rw [if_neg hnow, exec_wdPoll_of_due h hs (Nat.le_of_not_lt hnow)]
    by_cases hr : s.coord.wdState = .reset
    · rw [if_pos hr, wdTimeout_of_reset hr]
      rfl
    · rw [if_neg hr, wdTimeout_of_ne_reset hr]
      rfl

/-- Settles O49: outside GOOD only the echo in RESET does more than drop the symbol. -/
theorem wdPollSymbolOutsideGood : Obligations.WdPollSymbolOutsideGood := by
  intro s now v popped h hs hv hpop
  subst hpop
  refine ⟨fun hcool => ?_, fun hreset hecho => ?_, fun hreset hother => ?_⟩
  · exact exec_wdPoll_of_symbol h hs hv (wdSymbol_of_cooldown hcool)
  · have hd := wdSymbol_of_echo (cfg := s.cfg) (c := s.coord.taken s.cfg) hreset
    rw [← hecho] at hd
    exact ⟨_, exec_wdPoll_of_symbol h hs hv hd, startCycle_writeBuf .., startCycle_readBuf ..,
      congrArg (rearm s.cfg now) (startCycle_eq s.cfg (s.coord.taken s.cfg))⟩
  · have hd := wdSymbol_of_no_echo (cfg := s.cfg) (c := s.coord.taken s.cfg) hreset hother
    exact exec_wdPoll_of_symbol h hs hv hd

/-- Settles O50: a bit goes to the automaton, whose answer decides; the other symbols do not. -/
theorem wdPollSymbolInGood : Obligations.WdPollSymbolInGood := by
  intro s now v popped h hs hv hpop hgood
  subst hpop
  refine ⟨fun hsym => ?_, fun bit fed hbit hfed => ?_, fun bit fed hbit hfed => ?_⟩
  · have hd := (wdSymbol_of_good (cfg := s.cfg) (c := s.coord.taken s.cfg) hgood).trans
      (wdGood_of_reset_or_error hsym)
    exact exec_wdPoll_of_symbol h hs hv hd
  · exact exec_wdPoll_of_bit h hs hv hgood hbit (wdFeed_of_continuing hfed)
  · rw [exec_wdPoll_of_bit h hs hv hgood hbit (wdFeed_of_resync hfed), coordFeed_resync_eq hfed]
    rfl

/-- Settles O51: the symbol is the automaton's H, and a cycle ends with or without an entry left. -/
theorem wdPollCompletesACycle : Obligations.WdPollCompletesACycle := by
  intro s now v n popped h hwf hs hv hpop hgood halert hid hhowl
  subst hpop
  have hcount : (s.coord.wolfId + 1).toNat = n := by omega
  have hfeed := wdFeed_howl (cfg := s.cfg) (c := s.coord.taken s.cfg) halert
  have hlast : (s.coord.taken s.cfg).sh.rx.rb.size = 0 ↔ s.coord.sh.rx.rb.size = 1 := by
    rw [CoordRec.taken_size]
    omega
  refine ⟨_, exec_wdPoll_of_bit h hs hv hgood hhowl hfeed,
    (wdComplete_published ..).readBuf_eq, wdComplete_writeBuf .., ?_⟩
  refine (congrArg (rearm s.cfg now) (wdComplete_eq ..)).trans ?_
  simp only [coordReset_sh, hlast, ← edgeVector_of_buffersWf hwf, ← hcount]
  rfl

/-- Settles O52: a timeout sends in every state, moves the deadline and leaves the ring empty. -/
theorem oneTimeoutPerMissedDeadline : Obligations.OneTimeoutPerMissedDeadline := by
  intro s now h hs _ hdue
  refine ⟨_, exec_wdPoll_of_due h hs hdue, wdTimeout_wdState .., rfl, wdTimeout_sh ..,
    fun later _ hlater => exec_wdPoll_of_early ?_ ?_ hlater⟩
  · obtain ⟨hctx, hcur, hrunning⟩ := h
    refine ⟨hctx, hcur, ?_⟩
    rw [State.putCoord_coord, rearm, wdTimeout_sh, sendReset, sendPairs_halted, hrunning]
  · rw [State.putCoord_coord, rearm, wdTimeout_sh, sendReset_rx, hs]

end

section
/-! PROOFS. What a consumer can read (R275, R73, R356): no operation but the two that publish
changes it, and WD_POLL only on the H that completes a cycle. -/

namespace Sys2Proof.Machine

/-! ### The supervisor's moves -/

section Moves

variable {cfg : Config} {c : CoordRec} {bit : Bit} {now : Nat}

theorem answer_viewKept (c : CoordRec) (r : Result) : ViewKept c (c.answer r) :=
  ⟨rfl, rfl, rfl, rfl⟩

theorem fallBack_viewKept (c : CoordRec) : ViewKept c (fallBack c) := ⟨rfl, rfl, rfl, rfl⟩

theorem taken_viewKept (cfg : Config) (c : CoordRec) : ViewKept c (c.taken cfg) :=
  ⟨rfl, rfl, rfl, rfl⟩

theorem wdTimeout_viewKept (cfg : Config) (c : CoordRec) : ViewKept c (wdTimeout cfg c) := by
  unfold wdTimeout
  split <;> exact ⟨rfl, rfl, rfl, rfl⟩

theorem rearm_viewKept (cfg : Config) (now : Nat) (c : CoordRec) :
    ViewKept c (rearm cfg now c) := ⟨rfl, rfl, rfl, rfl⟩

/-- A bit that does not complete a cycle publishes nothing (R263). -/
theorem wdFeed_viewKept (h : ¬ (c.state = .alert ∧ bit = howl cfg)) :
    ViewKept c (wdFeed cfg bit c) := by
  obtain hr | ⟨hs, hb, -⟩ | ⟨d, hr, hd⟩ := coordFeed_cases cfg bit c
  · rw [wdFeed_of_resync hr]
    exact (coordReset_viewKept c).trans (enterReset_viewKept ..)
  · exact absurd ⟨hs, hb⟩ h
  · rw [wdFeed_of_continuing hr]
    exact hd

theorem wdGood_viewKept {sym : Sym} (h : ¬ (c.state = .alert ∧ sym = symOfBit (howl cfg))) :
    ViewKept c (wdGood cfg sym c) := by
  have hbit (b : Bit) (hb : sym = symOfBit b) : ViewKept c (wdFeed cfg b c) :=
    wdFeed_viewKept fun ⟨hs, e⟩ => h ⟨hs, e ▸ hb⟩
  cases sym with
  | reset => exact fallBack_viewKept c
  | error => exact fallBack_viewKept c
  | zero => exact hbit false rfl
  | one => exact hbit true rfl

/-- A symbol publishes nothing but in GOOD, as the H that completes a cycle (R263 to R269). -/
theorem wdSymbol_viewKept {sym : Sym}
    (h : ¬ (c.wdState = .good ∧ c.state = .alert ∧ sym = symOfBit (howl cfg))) :
    ViewKept c (wdSymbol cfg sym c) := by
  cases hs : c.wdState with
  | good =>
    rw [wdSymbol_of_good hs]
    exact wdGood_viewKept fun hc => h ⟨hs, hc⟩
  | cooldown =>
    rw [wdSymbol_of_cooldown hs]
    exact .refl c
  | reset =>
    by_cases hy : sym = .reset
    · rw [hy, wdSymbol_of_echo hs]
      exact startCycle_viewKept ..
    · rw [wdSymbol_of_no_echo hs hy]
      exact fallBack_viewKept c

/-- The symbol at the front of the ring is, in GOOD, the H that completes a cycle (R264). -/
structure CoordRec.Completes (cfg : Config) (c : CoordRec) : Prop where
  good : c.wdState = .good
  alert : c.state = .alert
  waiting : 0 < c.sh.rx.rb.size
  front_howl : classify cfg (rxFront c.sh.rx.rb) = symOfBit (howl cfg)

theorem wdPoll_viewKept (now : Nat) (h : ¬ c.Completes cfg) : ViewKept c (wdPoll cfg now c) := by
  obtain hs | hs := Nat.eq_zero_or_pos c.sh.rx.rb.size
  · obtain hnow | hnow := Nat.lt_or_ge now c.wdDeadline
    · rw [wdPoll_of_early hs hnow]
      exact .refl c
    · rw [wdPoll_of_due hs hnow]
      exact (wdTimeout_viewKept cfg c).trans (rearm_viewKept ..)
  · rw [wdPoll_of_pos hs]
    have hk := wdSymbol_viewKept (c := c.taken cfg) fun ⟨hg, ha, hy⟩ => h ⟨hg, ha, hs, hy⟩
    exact ((taken_viewKept cfg c).trans hk).trans (rearm_viewKept ..)

theorem wdPoll_published (now : Nat) (h : c.Completes cfg) :
    Published cfg (c.wolfId + 1).toNat c (wdPoll cfg now c) := by
  rw [wdPoll_of_pos h.waiting, h.front_howl, wdSymbol_of_good (c := c.taken cfg) h.good,
    wdGood_symOfBit, wdFeed_howl (c := c.taken cfg) h.alert]
  obtain ⟨hsel, hread, hcount, hedge⟩ :=
    wdComplete_published cfg (c.wolfId + 1).toNat (coordReset (c.taken cfg))
  exact ⟨hsel, hread, hcount, hedge⟩

end Moves

/-! ### All operations -/

section Exec

variable {s t : State} {i : Instr}

theorem publishes_wdPoll_iff {now : Nat} :
    s.publishes (.wdPoll now) = true ↔ s.coord.Completes s.cfg := by
  simp only [State.publishes, Ring.avail, Bool.and_eq_true, decide_eq_true_eq]
  exact ⟨fun ⟨⟨⟨hg, hs⟩, ha⟩, hy⟩ => ⟨hg, ha, hs, hy⟩,
    fun ⟨hg, ha, hs, hy⟩ => ⟨⟨⟨hg, hs⟩, ha⟩, hy⟩⟩

theorem CodecsOnly.viewKept (h : CodecsOnly s t) : ViewKept s.coord t.coord := by
  obtain ⟨hc, -⟩ := h
  rw [hc]
  exact ⟨rfl, rfl, rfl, rfl⟩

theorem onNode_viewKept {f : NodeRec → Nat → NodeRec × Nat} (h : onNode s f = .next t) :
    ViewKept s.coord t.coord := by
  obtain ⟨j, n, -, rfl⟩ := onNode_next h
  exact .refl _

theorem onCoord_viewKept {f : CoordRec → CoordRec} (h : onCoord s f = .next t)
    (hf : ViewKept s.coord (f s.coord)) : ViewKept s.coord t.coord := by
  obtain ⟨-, rfl⟩ := onCoord_next h
  exact hf

/-- An operation that does not publish leaves what a consumer can read as it is. -/
theorem exec_viewKept (hp : s.publishes i = false) (h : exec i s = .next t) :
    ViewKept s.coord t.coord := by
  cases i with
  | txSchedule | txBulkBegin | txBulkSchedule | txBulkEnd | rxBitsAvailable | rxReceiveBit =>
    exact (onShared_codecsOnly h).viewKept
  | txExpiry => exact (execTxExpiry_codecsOnly h).viewKept
  | rxCapture value => exact (execRxCapture_codecsOnly h).viewKept
  | nodeStep | nodeReset | nodePoll => exact onNode_viewKept h
  | coordFeed bit =>
    have hx : execCoordFeed bit s = .next t := h
    exact onCoord_viewKept hx ((coordFeed_viewKept ..).trans (answer_viewKept ..))
  | coordReset => exact onCoord_viewKept h (coordReset_viewKept _)
  | coordReseed => exact onCoord_viewKept h (coordReseed_viewKept ..)
  | wdInit now => exact onCoord_viewKept h ⟨rfl, rfl, rfl, rfl⟩
  | wdPoll now =>
    refine onCoord_viewKept h (wdPoll_viewKept now fun hc => ?_)
    rw [publishes_wdPoll_iff.mpr hc] at hp
    cases hp
  | dbPublish k => cases hp
  | dbLatestSnapshot =>
    have hx : execDbLatestSnapshot s = .next t := h
    exact onCoord_viewKept hx (answer_viewKept ..)
  | dbEdgeEvents =>
    have hx : execDbEdgeEvents s = .next t := h
    exact onCoord_viewKept hx (answer_viewKept ..)

theorem execDbPublish_published {k : Nat} (h : execDbPublish k s = .next t) :
    Published s.cfg k s.coord t.coord := by
  obtain ⟨-, hk⟩ := withCoord_next h
  split at hk
  case isTrue => cases hk
  case isFalse =>
    cases hk
    exact dbPublish_published ..

theorem execWdPoll_published {now : Nat} (hc : s.coord.Completes s.cfg)
    (h : execWdPoll now s = .next t) :
    Published s.cfg (s.coord.wolfId + 1).toNat s.coord t.coord := by
  obtain ⟨-, rfl⟩ := onCoord_next h
  exact wdPoll_published now hc

/-- The operations that publish are DB_PUBLISH and a WD_POLL that completes a cycle (R356). -/
theorem exec_published (hp : s.publishes i = true) (h : exec i s = .next t) :
    ∃ k, Published s.cfg k s.coord t.coord := by
  cases i with
  | dbPublish k => exact ⟨k, execDbPublish_published h⟩
  | wdPoll now => exact ⟨_, execWdPoll_published (publishes_wdPoll_iff.mp hp) h⟩
  | _ => cases hp

end Exec

end Sys2Proof.Machine

open Sys2Proof Sys2Proof.Machine

/-- Settles O53: an operation publishes and the buffers change roles, or it leaves the view. -/
theorem consumersSeeOnlyCompletedCycles : Obligations.ConsumersSeeOnlyCompletedCycles := by
  refine ⟨fun i s t hdb hwd h => ?_, fun now s t h => ?_,
    fun i s t h => ⟨fun hp => ?_, fun hsel => ?_⟩⟩
  · have hp : s.publishes i = false := by
      cases i with
      | dbPublish n => exact absurd rfl (hdb n)
      | wdPoll now => exact absurd rfl (hwd now)
      | _ => rfl
    obtain ⟨hsel, hread, hcount, hedge⟩ := exec_viewKept hp h
    exact ⟨hsel, hread, hcount, hedge⟩
  · by_cases hc : s.coord.Completes s.cfg
    · obtain ⟨hsel, hread, hcount, hedge⟩ := execWdPoll_published hc h
      exact .inr ⟨hc.good, hc.alert, hc.waiting, hc.front_howl, hsel, hread, hcount,
        fun hwf => hedge.trans (edgeVector_of_buffersWf hwf)⟩
    · have hp : s.publishes (.wdPoll now) = false :=
        Bool.eq_false_iff.mpr (mt publishes_wdPoll_iff.mp hc)
      obtain ⟨hsel, hread, hcount, hedge⟩ := exec_viewKept hp h
      exact .inl ⟨hsel, hread, hcount, hedge⟩
  · obtain ⟨k, hpub⟩ := exec_published hp h
    exact hpub.sel_eq
  · by_contra hp
    have hkept := (exec_viewKept (Bool.eq_false_iff.mpr hp) h).sel_eq
    exact Bool.not_ne_self _ (hsel.symm.trans hkept)

end

section
/-! PROOFS. The debounce buffers (45_debounce.md): a publish edge by edge, and the queries of the
consumers (R291, R296, R297, R299). -/

namespace Sys2Proof.Machine

/-! ### The bytes of a buffer and of the edge vector (R72, R291) -/

section Bytes

variable {cfg : Config} {c : CoordRec} {w : List Byte} {x y : Byte}

/-- Read byte by byte, a buffer of MAX_NODES bytes is the buffer itself. -/
theorem readAll_of_length_eq (h : w.length = cfg.maxNodes) : readAll cfg w = w := by
  refine List.ext_getElem (by simp [readAll, h]) fun j _ hj => ?_
  simp [readAll, memRead_of_lt hj]

theorem edgeFlag_xor_iff : edgeFlag (x ^^^ y) = true ↔ x ≠ y := by
  simp [edgeFlag, BitVec.xor_eq_zero_iff]

/-- Equal snapshots have no edges. -/
theorem eq_zero_of_mem_zipWith_xor_self {e : Byte} (he : e ∈ List.zipWith (· ^^^ ·) w w) :
    e = 0 := by
  rw [List.zipWith_self] at he
  obtain ⟨x, -, rfl⟩ := List.mem_map.mp he
  exact BitVec.xor_self

/-- What DB_LATEST_SNAPSHOT returns when the buffers keep their sizes (R296). -/
theorem latestSnapshot_of_buffersWf (h : c.buffersWf cfg) :
    latestSnapshot cfg c = .snapshot c.readBuf c.readCount := by
  rw [latestSnapshot, readAll_of_length_eq (CoordRec.readBuf_length h)]

/-- What DB_EDGE_EVENTS returns when the buffers keep their sizes (R297). -/
theorem edgeEvents_of_buffersWf (h : c.buffersWf cfg) :
    edgeEvents cfg c = .edges c.edge := by
  obtain ⟨-, -, hedge, -⟩ := h
  rw [edgeEvents, readAll_of_length_eq hedge]

end Bytes

/-! ### The operations -/

section Debounce

variable {s t : State} {k : Nat}

theorem exec_dbPublish (h : s.coordReady) (hk : k ≤ s.cfg.maxNodes) :
    exec (.dbPublish k) s = .next (s.putCoord (dbPublish s.cfg k s.coord)) := by
  change execDbPublish k s = _
  rw [execDbPublish, withCoord_ready _ h, if_neg hk.not_gt]

theorem exec_dbPublish_of_gt (h : s.coordReady) (hk : k > s.cfg.maxNodes) :
    exec (.dbPublish k) s = .refused .countOutOfRange := by
  change execDbPublish k s = _
  rw [execDbPublish, withCoord_ready _ h, if_pos hk]

theorem exec_dbPublish_next (h : exec (.dbPublish k) s = .next t) :
    t = s.putCoord (dbPublish s.cfg k s.coord) := by
  obtain ⟨hr, -⟩ := withCoord_next (show execDbPublish k s = .next t from h)
  by_cases hk : k ≤ s.cfg.maxNodes
  · simpa [eq_comm] using (exec_dbPublish hr hk).symm.trans h
  · rw [exec_dbPublish_of_gt hr (Nat.lt_of_not_ge hk)] at h
    cases h

theorem exec_dbLatestSnapshot (h : s.coordReady) :
    exec .dbLatestSnapshot s =
      .next (s.putCoord (s.coord.answer (latestSnapshot s.cfg s.coord))) :=
  onCoord_ready (fun c => c.answer (latestSnapshot s.cfg c)) h

theorem exec_dbEdgeEvents (h : s.coordReady) :
    exec .dbEdgeEvents s = .next (s.putCoord (s.coord.answer (edgeEvents s.cfg s.coord))) :=
  onCoord_ready (fun c => c.answer (edgeEvents s.cfg c)) h

end Debounce

end Sys2Proof.Machine

open Sys2Proof Sys2Proof.Machine

/-- Settles O56: the edges are the XOR of the two snapshots, which is zero on equal bytes alone. -/
theorem debounceLaws : Obligations.DebounceLaws := by
  intro s t n h hwf
  obtain rfl := exec_dbPublish_next h
  rw [State.putCoord_coord, dbPublish_readBuf, dbPublish_writeBuf,
    (dbPublish_published s.cfg n s.coord).edge_eq, edgeVector_of_buffersWf hwf]
  refine ⟨fun heq e he => ?_, fun i x y hx hy => ?_, fun e he => List.eq_of_mem_replicate he,
    List.length_replicate, rfl⟩
  · rw [heq] at he
    exact eq_zero_of_mem_zipWith_xor_self he
  · exact ⟨x ^^^ y, by simp [List.getElem?_zipWith, hx, hy], edgeFlag_xor_iff⟩

/-- Settles O54: the guard on the count decides between the publish and the refusal. -/
theorem dbPublishResult : Obligations.DbPublishResult := by
  refine ⟨fun _ => rfl, fun s n h hwf hn => ?_, fun s n => exec_dbPublish_of_gt⟩
  refine ⟨dbPublish s.cfg n s.coord, exec_dbPublish h hn, dbPublish_readBuf .., dbPublish_writeBuf ..,
    ?_⟩
  rw [← edgeVector_of_buffersWf hwf]
  exact dbPublish_eq ..

/-- Settles O55: a query writes the model's return field alone. -/
theorem consumerQueriesResult : Obligations.ConsumerQueriesResult := by
  refine ⟨rfl, rfl, fun s h hwf => ⟨?_, ?_⟩⟩
  · rw [exec_dbLatestSnapshot h, latestSnapshot_of_buffersWf hwf]
    rfl
  · rw [exec_dbEdgeEvents h, edgeEvents_of_buffersWf hwf]
    rfl

end

section
/-! PROOFS. A placed step and the clock advance (R64, R333), the refusals an operation can answer
(R318), and an agent that has halted (R316). -/

namespace Sys2Proof.Machine

/-! ### The refusals of an operation (R116, R311 to R314, R330, R291) -/

/-- The refusals of the admission every operation passes (R116, R311, R312, R328). -/
inductive AdmissionRefusal : Refusal → Prop
  | wrongAgent : AdmissionRefusal .wrongAgent
  | wrongContext : AdmissionRefusal .wrongContext
  | noSuchAgent : AdmissionRefusal .noSuchAgent

section Refused

variable {s : State} {r : Refusal}

theorem withShared_refused {ctx : Context} {k : Shared → Host.Outcome State Fault Refusal}
    (h : withShared ctx s k = .refused r) : AdmissionRefusal r ∨ ∃ sh, k sh = .refused r := by
  unfold withShared at h
  split at h
  case isFalse => cases h; exact .inl .wrongContext
  case isTrue =>
    split at h
    case h_1 => cases h; exact .inl .noSuchAgent
    case h_2 sh _ =>
      split at h
      case isTrue => cases h
      case isFalse => exact .inr ⟨sh, h⟩

theorem withNode_refused {k : Nat → NodeRec → Host.Outcome State Fault Refusal}
    (h : withNode s k = .refused r) : AdmissionRefusal r ∨ ∃ i n, k i n = .refused r := by
  unfold withNode at h
  split at h
  case h_1 => cases h; exact .inl .wrongAgent
  case h_2 i _ =>
    split at h
    case isFalse => cases h; exact .inl .wrongContext
    case isTrue =>
      split at h
      case h_1 => cases h; exact .inl .noSuchAgent
      case h_2 n _ =>
        split at h
        case isTrue => cases h
        case isFalse => exact .inr ⟨i, n, h⟩

theorem withCoord_refused {k : CoordRec → Host.Outcome State Fault Refusal}
    (h : withCoord s k = .refused r) : AdmissionRefusal r ∨ k s.coord = .refused r := by
  unfold withCoord at h
  split at h
  case h_1 => cases h; exact .inl .wrongAgent
  case h_2 =>
    split at h
    case isFalse => cases h; exact .inl .wrongContext
    case isTrue =>
      split at h
      case isTrue => cases h
      case isFalse => exact .inr h

theorem onShared_refused {f : Shared → Shared} (h : onShared s f = .refused r) :
    AdmissionRefusal r := by
  obtain hr | ⟨_, hk⟩ := withShared_refused h
  · exact hr
  · cases hk

theorem onNode_refused {f : NodeRec → Nat → NodeRec × Nat} (h : onNode s f = .refused r) :
    AdmissionRefusal r := by
  obtain hr | ⟨_, _, hk⟩ := withNode_refused h
  · exact hr
  · cases hk

theorem onCoord_refused {f : CoordRec → CoordRec} (h : onCoord s f = .refused r) :
    AdmissionRefusal r := by
  obtain hr | hk := withCoord_refused h
  · exact hr
  · cases hk

theorem execTxExpiry_refused (h : execTxExpiry s = .refused r) :
    AdmissionRefusal r ∨ r = .notEnabled := by
  obtain hr | ⟨_, hk⟩ := withShared_refused h
  · exact .inl hr
  · split at hk
    case isTrue => cases hk
    case isFalse => cases hk; exact .inr rfl

theorem execRxCapture_refused {value : Nat} (h : execRxCapture value s = .refused r) :
    AdmissionRefusal r ∨ r = .notEnabled ∨ r = .captureOutOfRange := by
  obtain hr | ⟨_, hk⟩ := withShared_refused h
  · exact .inl hr
  · simp only at hk
    split at hk
    case h_1 => cases hk; exact .inr (.inl rfl)
    case h_2 =>
      split at hk
      case isFalse => cases hk; exact .inr (.inr rfl)
      case isTrue =>
        split at hk
        case h_1 => cases hk
        case h_2 => cases hk; exact .inl .noSuchAgent

theorem execDbPublish_refused {n : Nat} (h : execDbPublish n s = .refused r) :
    AdmissionRefusal r ∨ r = .countOutOfRange := by
  obtain hr | hk := withCoord_refused h
  · exact .inl hr
  · split at hk
    case isTrue => cases hk; exact .inr rfl
    case isFalse => cases hk

/-- All that an operation can answer as a refusal: that of its admission, the missing request or the
impossible value of an interrupt event (R313, R314, R330), the count of DB_PUBLISH (R291). -/
theorem exec_refused {i : Instr} (h : exec i s = .refused r) :
    AdmissionRefusal r ∨ r = .notEnabled ∨ r = .captureOutOfRange ∨ r = .countOutOfRange := by
  unfold exec at h
  cases i with
  | txExpiry => exact (execTxExpiry_refused h).imp_right .inl
  | rxCapture value => exact (execRxCapture_refused h).imp_right (.imp_right .inl)
  | dbPublish n => exact (execDbPublish_refused h).imp_right fun e => .inr (.inr e)
  | nodeStep | nodeReset | nodePoll => exact .inl (onNode_refused h)
  | coordFeed | coordReset | coordReseed | wdInit | wdPoll | dbLatestSnapshot | dbEdgeEvents =>
    exact .inl (onCoord_refused h)
  | _ => exact .inl (onShared_refused h)

theorem exec_ne_badConfig (i : Instr) (s : State) : exec i s ≠ .refused .badConfig := by
  intro h
  obtain hr | hr | hr | hr := exec_refused h <;> cases hr

end Refused

/-- A recorded halting code halts the agent (R316). -/
theorem FaultSet.halted_of_has {f : FaultSet} {c : FaultCode} (hc : c.halts = true)
    (h : f.has c = true) : f.halted = true := f.halted_iff.mpr ⟨c, hc, h⟩

end Sys2Proof.Machine

open Sys2Proof Sys2Proof.Machine

/-- Settles O4: the step on a placed word is the decoded operation, once the counters have run on. -/
theorem stepRunsThePlacedOperation : Obligations.StepRunsThePlacedOperation := by
  intro s a ctx w i rest hok hs hw
  refine ⟨runCounters s, runCounters_ranTo s, ?_⟩
  rw [step_placed hok hs, runEvent, hw]
  rfl

/-- Settles O7: the clock advance touches neither the agents' records nor the configuration. -/
theorem clockAdvanceMovesOnlyTheClock : Obligations.ClockAdvanceMovesOnlyTheClock := by
  intro s d rest hok hs
  refine ⟨_, step_placed hok hs, ?_⟩
  obtain ⟨-, hrecords⟩ := runCounters_ranTo s
  exact ⟨rfl, hrecords⟩

/-- Settles O5: the two guards on the configuration refuse, and the refusals an operation can answer
do not contain BAD_CONFIG. -/
theorem badConfigurationHasNoStep : Obligations.BadConfigurationHasNoStep := by
  refine ⟨fun cfg n clock hbad => ?_, fun s hbad => ?_, exec_ne_badConfig⟩
  · rw [instantiate, hbad, if_neg Bool.noConfusion]
  · rw [step, stepSystem, hbad, if_neg Bool.noConfusion]

/-- Settles O11: the admission of every operation refuses a halted agent, and `halted` reads the
halting codes alone. -/
theorem haltedAgentTakesNoStep : Obligations.HaltedAgentTakesNoStep := by
  refine ⟨fun i s t sh c ha hc hhalting => ?_, fun f c hf hother => ?_⟩
  · have hhalts : c.halts = true := by
      obtain rfl | rfl | rfl := hhalting <;> rfl
    exact exec_ne_next_of_halted ha (FaultSet.halted_of_has hhalts hc) i s.ctx
  · have hhalts : c.halts = false := by
      obtain rfl | rfl | rfl | rfl := hother <;> rfl
    rw [FaultSet.halted_add, hf, hhalts, Bool.or_false]

end

section
/-! PROOFS. The ring of the wires (R328): upstream and downstream undo each other. -/

namespace Sys2Proof.Machine

/-- The agents of a ring of `n` nodes (R328). -/
def AgentId.InRing (n : Nat) (a : AgentId) : Prop := a = .coordinator ∨ ∃ i < n, a = .node i

section Ring

variable {n : Nat} {i : Nat}

theorem AgentId.inRing_node : (AgentId.node i).InRing n ↔ i < n := by
  simp [AgentId.InRing]

theorem downstream_coordinator_of_pos (h : 0 < n) : downstream n .coordinator = .node 0 :=
  if_neg (Nat.ne_of_gt h)

theorem downstream_node_of_lt (h : i + 1 < n) : downstream n (.node i) = .node (i + 1) := if_pos h

theorem downstream_node_of_le (h : n ≤ i + 1) : downstream n (.node i) = .coordinator :=
  if_neg (Nat.not_lt.mpr h)

theorem upstream_coordinator_of_pos (h : 0 < n) : upstream n .coordinator = .node (n - 1) :=
  if_neg (Nat.ne_of_gt h)

theorem downstream_inRing (n : Nat) (a : AgentId) : (downstream n a).InRing n := by
  cases a with
  | coordinator =>
    obtain rfl | hn := Nat.eq_zero_or_pos n
    · exact .inl rfl
    · rw [downstream_coordinator_of_pos hn]
      exact AgentId.inRing_node.mpr hn
  | node i =>
    obtain hi | hi := Nat.lt_or_ge (i + 1) n
    · rw [downstream_node_of_lt hi]
      exact AgentId.inRing_node.mpr hi
    · rw [downstream_node_of_le hi]
      exact .inl rfl

theorem upstream_downstream {a : AgentId} (h : a.InRing n) : upstream n (downstream n a) = a := by
  cases a with
  | coordinator =>
    obtain rfl | hn := Nat.eq_zero_or_pos n
    · rfl
    · rw [downstream_coordinator_of_pos hn]
      rfl
  | node i =>
    have hin : i < n := AgentId.inRing_node.mp h
    obtain hi | hi := Nat.lt_or_ge (i + 1) n
    · rw [downstream_node_of_lt hi]
      rfl
    · rw [downstream_node_of_le hi, upstream_coordinator_of_pos (by omega)]
      congr 1
      omega

theorem downstream_upstream {a : AgentId} (h : a.InRing n) : downstream n (upstream n a) = a := by
  match a with
  | .coordinator =>
    obtain rfl | hn := Nat.eq_zero_or_pos n
    · rfl
    · rw [upstream_coordinator_of_pos hn]
      exact downstream_node_of_le (by omega)
  | .node 0 => exact downstream_coordinator_of_pos (AgentId.inRing_node.mp h)
  | .node (i + 1) => exact downstream_node_of_lt (AgentId.inRing_node.mp h)

end Ring

end Sys2Proof.Machine

open Sys2Proof Sys2Proof.Machine

/-- Settles O9: the chain wraps from its last node to the coordinator, in both directions. -/
theorem upstreamInvertsDownstream : Obligations.UpstreamInvertsDownstream :=
  ⟨rfl, fun _ hn => ⟨downstream_coordinator_of_pos hn, downstream_node_of_le (by omega)⟩,
    fun _ _ => downstream_node_of_lt,
    fun n a h => ⟨upstream_downstream h, downstream_upstream h, downstream_inRing n a⟩⟩

end

section
/-! PROOFS. The free scheduler (R321): which steps are enabled, that each of them completes, and that
the capture counters, running on before the choice, do not change what is enabled. -/

namespace Sys2Proof.Machine

/-! ### The enabled steps -/

section Enabled

variable {s r : State} {a : AgentId} {sh : Shared}

/-- The agents of the ring are those that have a record (R328). -/
theorem State.mem_agents : a ∈ s.agents ↔ ∃ sh, s.shared? a = some sh := by
  cases a with
  | coordinator => simp [State.agents]
  | node i => simp [State.agents, List.getElem?_eq_some_iff]

theorem State.haltedAgent_eq (h : s.shared? a = some sh) : s.haltedAgent a = sh.faults.halted := by
  simp [State.haltedAgent, h]

theorem txEnabled_eq (h : s.shared? a = some sh) : txEnabled s a = sh.tx.armed := by
  simp [txEnabled, h]

theorem rxEnabled_iff : rxEnabled s a = true ↔ s.linkOf (s.upstreamOf a) ≠ [] := by
  simp [rxEnabled]

/-- `p` is one of the three steps of the agent `a` that R321 enables while its record is `sh`. -/
inductive EnabledAt (s : State) (a : AgentId) (sh : Shared) : Pick → Prop
  | mainLine : EnabledAt s a sh (.mainLine a)
  | txExpiry (h : sh.tx.armed = true) : EnabledAt s a sh (.txExpiry a)
  | rxCapture (h : s.linkOf (s.upstreamOf a) ≠ []) : EnabledAt s a sh (.rxCapture a)

theorem enabledAt_iff {p : Pick} : EnabledAt s a sh p ↔
    p = .mainLine a ∨ (sh.tx.armed = true ∧ p = .txExpiry a) ∨
      (s.linkOf (s.upstreamOf a) ≠ [] ∧ p = .rxCapture a) := by
  constructor
  · rintro (_ | h | h)
    exacts [.inl rfl, .inr (.inl ⟨h, rfl⟩), .inr (.inr ⟨h, rfl⟩)]
  · rintro (rfl | ⟨h, rfl⟩ | ⟨h, rfl⟩)
    exacts [.mainLine, .txExpiry h, .rxCapture h]

theorem mem_agentPicks {p : Pick} (h : s.shared? a = some sh) :
    p ∈ agentPicks s a ↔ sh.faults.halted = false ∧ EnabledAt s a sh p := by
  rw [agentPicks, State.haltedAgent_eq h, txEnabled_eq h, enabledAt_iff, ← rxEnabled_iff]
  cases sh.faults.halted with
  | true => simp
  | false => simp

/-- The enabled steps are the clock's and those of the agents that have not halted (R321, R316). -/
theorem mem_enabledPicks {p : Pick} :
    p ∈ enabledPicks s ↔ p = .clock ∨
      ∃ a sh, s.shared? a = some sh ∧ sh.faults.halted = false ∧ EnabledAt s a sh p := by
  rw [enabledPicks, List.mem_cons, List.mem_flatMap]
  refine or_congr Iff.rfl ⟨?_, ?_⟩
  · rintro ⟨a, ha, hp⟩
    obtain ⟨sh, hsh⟩ := State.mem_agents.mp ha
    exact ⟨a, sh, hsh, (mem_agentPicks hsh).mp hp⟩
  · rintro ⟨a, sh, hsh, hp⟩
    exact ⟨a, State.mem_agents.mpr ⟨sh, hsh⟩, (mem_agentPicks hsh).mpr hp⟩

theorem clock_mem_enabledPicks : Pick.clock ∈ enabledPicks s := mem_enabledPicks.mpr (.inl rfl)

theorem mainLine_mem_enabledPicks : Pick.mainLine a ∈ enabledPicks s ↔
    ∃ sh, s.shared? a = some sh ∧ sh.faults.halted = false := by
  simp [mem_enabledPicks, enabledAt_iff]

theorem txExpiry_mem_enabledPicks : Pick.txExpiry a ∈ enabledPicks s ↔
    ∃ sh, s.shared? a = some sh ∧ sh.faults.halted = false ∧ sh.tx.armed = true := by
  simp [mem_enabledPicks, enabledAt_iff]

theorem rxCapture_mem_enabledPicks : Pick.rxCapture a ∈ enabledPicks s ↔
    ∃ sh, s.shared? a = some sh ∧ sh.faults.halted = false ∧
      s.linkOf (s.upstreamOf a) ≠ [] := by
  simp [mem_enabledPicks, enabledAt_iff]

/-! ### What is enabled does not depend on the capture counters -/

/-- A reading of an agent's record that does not look at its capture counter. -/
theorem State.countersRanTo.map_shared? {β : Type} {f : Shared → β} (h : s.countersRanTo r)
    (hf : ∀ sh x, f (sh.setCounter x) = f sh) (a : AgentId) :
    (r.shared? a).map f = (s.shared? a).map f := by
  cases ha : s.shared? a with
  | none => rw [h.shared?_none ha]
  | some sh =>
    obtain ⟨y, -, hr⟩ := h.shared? ha
    rw [hr, Option.map_some, Option.map_some, hf]

theorem State.countersRanTo.agentPicks_eq (h : s.countersRanTo r) (a : AgentId) :
    agentPicks r a = agentPicks s a := by
  have hhalted : r.haltedAgent a = s.haltedAgent a :=
    congrArg (·.getD false) (h.map_shared? (fun _ _ => rfl) a)
  have htx : txEnabled r a = txEnabled s a :=
    congrArg (·.getD false) (h.map_shared? (fun _ _ => rfl) a)
  have hup : r.upstreamOf a = s.upstreamOf a := congrArg (upstream · a) h.2.1
  have hlink : r.linkOf (s.upstreamOf a) = s.linkOf (s.upstreamOf a) :=
    congrArg (·.getD []) (h.map_shared? (f := Shared.link) (fun _ _ => rfl) _)
  have hrx : rxEnabled r a = rxEnabled s a := by rw [rxEnabled, hup, hlink, rxEnabled]
  rw [agentPicks, hhalted, htx, hrx, agentPicks]

theorem State.countersRanTo.enabledPicks_eq (h : s.countersRanTo r) :
    enabledPicks r = enabledPicks s := by
  have hagents : r.agents = s.agents := by
    obtain ⟨-, hlen, -⟩ := h
    rw [State.agents, hlen, State.agents]
  rw [enabledPicks, hagents, funext h.agentPicks_eq, enabledPicks]

/-- The draw numbers one of the enabled steps: there is always the clock's. -/
theorem pickStep_getElem? (s : State) :
    (enabledPicks s)[Config.draw s.draws % (enabledPicks s).length]? = some (pickStep s) := by
  have hpos : 0 < (enabledPicks s).length := List.length_pos_of_mem clock_mem_enabledPicks
  rw [pickStep, List.getElem?_eq_getElem (Nat.mod_lt _ hpos), Option.getD_some]

theorem pickStep_mem (s : State) : pickStep s ∈ enabledPicks s :=
  List.mem_of_getElem? (pickStep_getElem? s)

end Enabled

/-! ### Each enabled step completes -/

section Completes

variable {s : State} {a : AgentId} {sh : Shared}

/-- A draw lies in its range (00_scope.md section 4). -/
theorem drawIn_mem {lo hi : Nat} (h : lo ≤ hi) (x : Nat) :
    lo ≤ drawIn lo hi x ∧ drawIn lo hi x ≤ hi := by
  have hmod : x % (hi - lo + 1) < hi - lo + 1 := Nat.mod_lt _ (Nat.succ_pos _)
  rw [drawIn]
  omega

theorem captureLow_le_captureHigh (cfg : Config) (w : Nat) :
    captureLow cfg w ≤ captureHigh cfg w := by
  unfold captureLow captureHigh
  split <;> omega

theorem exec_mainLineOp (ha : s.shared? a = some sh) (hh : sh.faults.halted = false) :
    ∃ t, exec (mainLineOp s a) { s with cur := a, ctx := .main } = .next t := by
  cases a with
  | coordinator =>
    cases ha
    have hready : State.coordReady { s with cur := .coordinator, ctx := .main } := ⟨rfl, rfl, hh⟩
    cases hstarted : s.coord.started with
    | true =>
      rw [mainLineOp, if_pos hstarted]
      exact ⟨_, exec_wdPoll s.now hready⟩
    | false =>
      rw [mainLineOp, hstarted, if_neg Bool.noConfusion]
      exact ⟨_, exec_wdInit s.now hready⟩
  | node i =>
    obtain ⟨n, hn, rfl⟩ := Option.map_eq_some_iff.mp ha
    have hready : State.nodeReady { s with cur := .node i, ctx := .main } i n := ⟨rfl, rfl, hn, hh⟩
    exact ⟨_, exec_nodePoll s.now hready⟩

theorem exec_txExpiry_completes (h : s.sharedReady .txi sh) (harmed : sh.tx.armed = true) :
    ∃ t, exec .txExpiry s = .next t := by
  obtain ⟨-, ht⟩ | ⟨-, d, -, ht⟩ := exec_txExpiry_of_armed h harmed
  · exact ⟨_, ht⟩
  · exact ⟨_, ht⟩

/-- The value the scheduler draws for a capture is one that the oldest pulse can give (R330). -/
theorem exec_rxCapture_completes (h : s.sharedReady .rxi sh)
    (hl : s.linkOf (s.upstreamOf s.cur) ≠ []) (x : Nat) :
    ∃ t, exec (.rxCapture (captureValue s s.cur x)) s = .next t := by
  obtain ⟨w, rest, hlink⟩ := List.exists_cons_of_ne_nil hl
  obtain ⟨up, hu, hul⟩ := State.shared?_of_linkOf hlink
  have hrange := drawIn_mem (captureLow_le_captureHigh s.cfg w) x
  have hvalue : captureValue s s.cur x =
      drawIn (captureLow s.cfg w) (captureHigh s.cfg w) x := by
    rw [captureValue, hlink]
  rw [hvalue, exec_rxCapture_of_pulse h hu hul, if_pos hrange]
  exact ⟨_, rfl⟩

theorem runPick_completes {p : Pick} (h : p ∈ enabledPicks s) : ∃ t, runPick p s = .next t := by
  obtain rfl | ⟨a, sh, ha, hh, hp⟩ := mem_enabledPicks.mp h
  · exact ⟨_, rfl⟩
  · cases hp with
    | mainLine => exact exec_mainLineOp ha hh
    | txExpiry harmed =>
      exact exec_txExpiry_completes (s := { s with cur := a, ctx := .txi }) ⟨rfl, ha, hh⟩ harmed
    | rxCapture hlink =>
      exact exec_rxCapture_completes
        (s := { s with cur := a, ctx := .rxi, draws := s.draws + 1 }) ⟨rfl, ha, hh⟩ hlink _

end Completes

end Sys2Proof.Machine

open Sys2Proof Sys2Proof.Machine

/-- Settles O6: each enabled step completes as the operation it names, and the counters, which run
on before the draw, leave what is enabled as it was. -/
theorem freeStepTakesAnEnabledStep : Obligations.FreeStepTakesAnEnabledStep := by
  refine ⟨fun s => ⟨clock_mem_enabledPicks, fun _ => mainLine_mem_enabledPicks,
    fun _ => txExpiry_mem_enabledPicks, fun _ => rxCapture_mem_enabledPicks, fun p hp => ?_⟩,
    fun s hok hs => ?_⟩
  · obtain ⟨t, ht⟩ := runPick_completes hp
    refine ⟨t, ht, ?_⟩
    match p, ht with
    | .clock, ht => cases ht; exact ⟨_, rfl⟩
    | .mainLine .coordinator, ht => exact ht
    | .mainLine (.node _), ht => exact ht
    | .txExpiry _, ht => exact ht
    | .rxCapture _, ht => exact ⟨_, ht⟩
  · have hran := runCounters_ranTo s
    have hmem : pickStep (runCounters s) ∈
        enabledPicks { runCounters s with draws := (runCounters s).draws + 1 } :=
      pickStep_mem (runCounters s)
    obtain ⟨t, ht⟩ := runPick_completes hmem
    have hstep := step_free hok hs
    refine ⟨runCounters s, pickStep (runCounters s), t, hran, ?_, hstep, hstep.trans ht⟩
    rw [← hran.enabledPicks_eq]
    exact pickStep_getElem? (runCounters s)

end

section
/-! PROOFS. Power-on and the boot (70_reset_and_hazards.md): every agent's record at power-on is
fresh and well formed (R350), and WD_INIT makes the power-on state a clean launch (R352, R355). -/

namespace Sys2Proof.Machine

/-! ### The records at power-on (R350) -/

section PowerOn

variable {cfg : Config}

theorem Ring.fresh_empty {α : Type} (cap : Nat) (fill : α) : (Ring.empty cap fill).fresh cap :=
  ⟨List.length_replicate, rfl, rfl, rfl⟩

theorem Shared.fresh_powerOn (cfg : Config) : (Shared.powerOn cfg).fresh cfg :=
  ⟨Ring.fresh_empty cfg.txCap _, rfl, rfl, rfl, rfl, rfl, rfl, Ring.fresh_empty cfg.rxCap _,
    rfl, rfl⟩

theorem NodeRec.fresh_powerOn (cfg : Config) : (NodeRec.powerOn cfg).fresh cfg :=
  ⟨Shared.fresh_powerOn cfg, rfl, rfl, rfl⟩

theorem State.nodes_fresh_powerOn (cfg : Config) (n clock : Nat) :
    ∀ m ∈ (State.powerOn cfg n clock).nodes, m.fresh cfg := by
  intro m hm
  rw [List.eq_of_mem_replicate hm]
  exact NodeRec.fresh_powerOn cfg

theorem NodeRec.wf_powerOn (h : configOk cfg = true) : (NodeRec.powerOn cfg).wf cfg :=
  ⟨Shared.wf_powerOn h, NodeState.noConfusion, Nat.zero_le _, NodeState.noConfusion,
    fun hcount => absurd hcount (Nat.not_succ_le_zero 0)⟩

theorem CoordRec.automatonWf_powerOn (cfg : Config) : (CoordRec.powerOn cfg).automatonWf cfg :=
  have hrange : (-1 : Int) < cfg.maxNodes := by omega
  ⟨Int.le_refl (-1), hrange, Nat.zero_le _, fun _ => rfl, CoordState.noConfusion,
    CoordState.noConfusion, fun hcount => absurd hcount (Nat.not_succ_le_zero 0)⟩

theorem CoordRec.buffersWf_powerOn (cfg : Config) : (CoordRec.powerOn cfg).buffersWf cfg :=
  ⟨List.length_replicate, List.length_replicate, List.length_replicate, Nat.zero_le _⟩

theorem State.Inv_powerOn (h : configOk cfg = true) (n clock : Nat) :
    (State.powerOn cfg n clock).Inv := by
  refine ⟨h, ⟨Shared.wf_powerOn h, CoordRec.automatonWf_powerOn cfg,
    CoordRec.buffersWf_powerOn cfg⟩, fun m hm => ?_⟩
  rw [List.eq_of_mem_replicate hm]
  exact NodeRec.wf_powerOn h

end PowerOn

/-! ### A clean launch and the capture counters (R355, R170) -/

section Counters

variable {cfg : Config} {s r : State}

/-- Power-on leaves the capture counter open (R350), so that `Shared.fresh` does not read it. -/
theorem Shared.fresh_setCounter {sh : Shared} (h : sh.fresh cfg) (x : Nat) :
    (sh.setCounter x).fresh cfg := h

theorem State.countersRanTo.now_eq (h : s.countersRanTo r) : r.now = s.now := by
  rw [h.1]

/-- Every node of the ring after the counters have run on is one from before but for its
counter. -/
theorem State.countersRanTo.exists_node (h : s.countersRanTo r) :
    ∀ m ∈ r.nodes, ∃ n ∈ s.nodes, ∃ x, m = n.setCounter x := by
  intro m hm
  obtain ⟨-, hlen, -, hnodes⟩ := h
  obtain ⟨i, hi, rfl⟩ := List.mem_iff_getElem.mp hm
  rw [hlen] at hi
  obtain ⟨x, -, hx⟩ := hnodes i _ (List.getElem?_eq_getElem hi)
  exact ⟨s.nodes[i], List.getElem_mem hi, x, (List.getElem_eq_iff _).mpr hx⟩

/-- The counters that run on leave a clean launch one. -/
theorem State.countersRanTo.cleanLaunch (h : s.countersRanTo r) (hs : s.cleanLaunch) :
    r.cleanLaunch := by
  obtain ⟨hok, ⟨hsh, hautomaton⟩, hnodes⟩ := hs
  have hnode := h.exists_node
  rw [State.cleanLaunch, h.cfg_eq, h.now_eq]
  obtain ⟨-, -, ⟨x, -, hcoord⟩, -⟩ := h
  rw [hcoord]
  refine ⟨hok, ⟨Shared.fresh_setCounter hsh x, hautomaton⟩, fun m hm => ?_⟩
  obtain ⟨n, hn, y, rfl⟩ := hnode m hm
  obtain ⟨hnsh, hidle⟩ := hnodes n hn
  exact ⟨Shared.fresh_setCounter hnsh y, hidle⟩

end Counters

/-! ### The boot (R352, R260) -/

section Boot

variable {s : State}

/-- A WD_INIT issued from the coordinator's main line. -/
theorem runScript_wdInit (now : Nat) (hok : configOk s.cfg = true)
    (hrunning : s.coord.sh.faults.halted = false) :
    ∃ t, runScript (issue .coordinator [.wdInit now]) s = .next t ∧
      ((s.putCoord (wdInit s.cfg now s.coord)).onMainLine .coordinator []).countersRanTo t := by
  obtain ⟨-, hlen, ⟨x, hx, hcoord⟩, hnodes⟩ := runCounters_ranTo s
  have hready : ((runCounters s).onMainLine .coordinator []).coordReady := ⟨rfl, rfl, hrunning⟩
  have hstep := (step_issued hok .coordinator (.wdInit now) []).trans (exec_wdInit now hready)
  exact ⟨_, (runScript_cons hstep rfl).trans (runScript_nil rfl), rfl, hlen,
    ⟨x, hx, congrArg (wdInit s.cfg now) hcoord⟩, hnodes⟩

/-- The power-on record with WD_INIT run on it is the coordinator's at a clean launch. -/
theorem CoordRec.fresh_wdInit_powerOn (cfg : Config) (now : Nat) :
    (wdInit cfg now (CoordRec.powerOn cfg)).fresh cfg now :=
  ⟨Shared.fresh_powerOn cfg, rfl, rfl, rfl, rfl, rfl, rfl, rfl, rfl, rfl, rfl, rfl⟩

end Boot

end Sys2Proof.Machine

open Sys2Proof Sys2Proof.Machine

/-- Settles O58: WD_INIT changes the coordinator's record alone, and a clean launch does not read
the counters that ran on before it. -/
theorem bootEndsInACleanLaunch : Obligations.BootEndsInACleanLaunch := by
  intro cfg n clock hok
  obtain ⟨t, ht, hran⟩ := runScript_wdInit (s := State.powerOn cfg n clock) clock hok rfl
  exact ⟨t, ht, hran.cleanLaunch
    ⟨hok, CoordRec.fresh_wdInit_powerOn cfg clock, State.nodes_fresh_powerOn cfg n clock⟩⟩

/-- Settles O57: the nodes are copies of one fresh record, and the coordinator's codec part is
fresh as well. -/
theorem powerOnValues : Obligations.PowerOnValues := fun cfg n clock =>
  ⟨List.length_replicate, State.nodes_fresh_powerOn cfg n clock, Shared.fresh_powerOn cfg,
    rfl, rfl, rfl, rfl, rfl, rfl, rfl, rfl, rfl⟩

/-- Settles O59: reset is the power-on state of the example configuration, which is well formed. -/
theorem invariantHoldsAtReset : Obligations.InvariantHoldsAtReset :=
  have hex : configOk Config.ex = true := by decide
  ⟨State.Inv_powerOn hex 1 0, fun _ n clock h => State.Inv_powerOn h n clock⟩

end
